-- ==== Sys2Proof/Word.lean ====
section
/-! DEFINITION. The word types of the block: what the spec gives a fixed number of bits. -/

namespace Sys2Proof

/-- A byte: 8 bits (R8). -/
abbrev Byte := BitVec 8

/-- A command word or a control register: 32 bits (R80, R26 to R31). -/
abbrev Word := BitVec 32

/-- A bus address: 16 bits (R55). -/
abbrev Addr := BitVec 16

/-- A lane of the permutation state: 64 bits (R32). -/
abbrev Lane := BitVec 64

/-- A big register or a constant of `PARAM`: 528 bits, 66 bytes (R21, R36). -/
abbrev Big := BitVec 528

end Sys2Proof
end

