-- ==== Sys2Proof/Machine/Bytes.lean ====
section
/-! DEFINITION. Bytes of numbers and of words (R7, R8). Byte order is little-endian everywhere (R59). -/

namespace Sys2Proof.Machine

/-- `ceil8(L)` (R7). -/
def ceil8 (bits : Nat) : Nat := (bits + 7) / 8

/-- `LE(b)` (R8). -/
def leValue : List Byte → Nat
  | [] => 0
  | b :: bs => b.toNat + 256 * leValue bs

/-- `enc_k(v)` (R8). DESIGN CHOICE: R8 defines it for `v < 2^(8k)` only; of a larger `v` the low `k` bytes are kept
(log 17). -/
def leBytes : Nat → Nat → List Byte
  | 0, _ => []
  | k + 1, v => BitVec.ofNat 8 v :: leBytes k (v / 256)

/-- `enc(v)`, 66 bytes (R8, `CFG.FE_BYTES`). -/
def enc (v : Nat) : List Byte := leBytes 66 v

/-- Byte `j` of a word: `v[8j+7 : 8j]` (R33, R56, R57). -/
def byteOf {w : Nat} (v : BitVec w) (j : Nat) : Byte := v.extractLsb' (8 * j) 8

/-- The word with byte `j` replaced by `b` and every other bit kept (R53, R56, R57). -/
def withByte {w : Nat} (v : BitVec w) (j : Nat) (b : Byte) : BitVec w :=
  (v &&& ~~~((0xFF#8).setWidth w <<< (8 * j))) ||| (b.setWidth w <<< (8 * j))

/-- Bytewise XOR of two byte strings (R132, R255). -/
def xorBytes (a b : List Byte) : List Byte := List.zipWith (· ^^^ ·) a b

end Sys2Proof.Machine
end

