-- ==== Sys2Proof/Machine/Flags.lean ====
section
/-! DEFINITION. The outcome codes of RESULT and the fault codes of FAULT. The block has no arithmetic flags (R25). -/

namespace Sys2Proof.Machine

/-- The outcome codes of `RESULT` (R26, R273). -/
inductive ResultCode where
  /-- 0, success. -/
  | ok
  /-- 1, a point operand is not on the curve. -/
  | malformedPoint
  /-- 2, a scalar is zero or out of range. -/
  | invalidScalar
  /-- 3, reserved for the host (R254); no command writes it. -/
  | authFailure
  /-- 4, the recomputed challenge differs. -/
  | signatureInvalid
  deriving DecidableEq, Repr

/-- The number of an outcome code, zero-extended to 32 bits (R26, R271). -/
def ResultCode.number : ResultCode → Word
  | .ok => 0
  | .malformedPoint => 1
  | .invalidScalar => 2
  | .authFailure => 3
  | .signatureInvalid => 4

/-- The fault codes of `FAULT` (R27, R272). -/
inductive FaultCode where
  /-- 1, a word of no row of R84. -/
  | illegalCmd
  /-- 2, a field of the word out of its legal range. -/
  | badParam
  /-- 3, a length beyond its buffer. -/
  | lenRange
  /-- 4, an unmapped address, or a write to a read-only one. -/
  | busError
  deriving DecidableEq, Repr

/-- The number of a fault code, zero-extended to 32 bits (R27, R274). -/
def FaultCode.number : FaultCode → Word
  | .illegalCmd => 1
  | .badParam => 2
  | .lenRange => 3
  | .busError => 4

end Sys2Proof.Machine
end

