-- ==== Sys2Proof/Config.lean ====
section
/-! DEFINITION. The configuration record CFG (R6) and the model's one free value. -/

namespace Sys2Proof

/-- The configuration record of R6. `STATE_BITS`, `ROUNDS` and `FE_BYTES` have one admissible value each and stand in
the types and loops of the model instead (log 3). `G` is the pair `gx`, `gy`. -/
structure Config where
  /-- `CFG.p`, the field's modulus. -/
  p : Nat
  /-- `CFG.d`, the curve constant. -/
  d : Nat
  /-- `CFG.r`, the order of the generator. -/
  r : Nat
  /-- `CFG.n`, the point count. -/
  n : Nat
  /-- `CFG.G.x`. -/
  gx : Nat
  /-- `CFG.G.y`. -/
  gy : Nat
  /-- `CFG.IBUF_SIZE` in bytes. -/
  ibufSize : Nat
  /-- `CFG.OBUF_SIZE` in bytes. -/
  obufSize : Nat
  /-- `CFG.CAP_XOF` in bits. -/
  capXof : Nat
  /-- `CFG.HASH_BITS`. -/
  hashBits : Nat
  /-- `CFG.TAG_BITS`. -/
  tagBits : Nat
  /-- `CFG.NONCE_BITS`. -/
  nonceBits : Nat
  /-- `CFG.DS_HASH`. -/
  dsHash : Byte
  /-- `CFG.DS_KDF`. -/
  dsKdf : Byte
  /-- `CFG.DS_MAC`. -/
  dsMac : Byte
  /-- `CFG.CTX_SIG`. -/
  ctxSig : List Byte
  /-- `CFG.CTX_NONCE`. -/
  ctxNonce : List Byte
  deriving DecidableEq, Repr

/-- The value R6 and R170 fix for `p`. -/
def Config.e521P : Nat := 2 ^ 521 - 1

/-- The value R6 and R191 fix for `d`. -/
def Config.e521D : Nat := Config.e521P - 376014

/-- The value R6 and R191 fix for `r`. -/
def Config.e521R : Nat :=
  2 ^ 519 - 337554763258501705789107630418782636071904961214051226618635150085779108655765

/-- The x coordinate of R192's default generator. -/
def Config.defaultGx : Nat :=
  1571054894184995387535939749894317568645297350402905821437625181152304994381188529632591196067604100772673927915114267193389905003276673749012051148356041324

/-- The defaults of R6, with R192's default generator. -/
def Config.default : Config where
  p := Config.e521P
  d := Config.e521D
  r := Config.e521R
  n := 4 * Config.e521R
  gx := Config.defaultGx
  gy := 12
  ibufSize := 4096
  obufSize := 4096
  capXof := 512
  hashBits := 256
  tagBits := 256
  nonceBits := 1024
  dsHash := 0x06
  dsKdf := 0x1F
  dsMac := 0x04
  ctxSig := [0x73, 0x69, 0x67]
  ctxNonce := [0x6E, 0x6F, 0x6E, 0x63, 0x65]

/-- R173: `invp(0)` is undefined and never evaluated. Its value is free: nothing constrains it (log 7). -/
opaque Config.invpOfZero : Nat

end Sys2Proof
end

