-- ==== Sys2Proof/Syntax.lean ====
section
/-! DEFINITION. The 14 commands of R84, one constructor per row, and the host's four transactions (R50). -/

namespace Sys2Proof

/-- A field of type `r` (R82): the index of a big register. -/
abbrev Reg := Fin 16

/-- A field of type `pt` (R82), as the index `j` of the point register `P[j]`; its field value is `2j`. -/
abbrev PointReg := Fin 8

/-- The commands, in the order of R84. `cap` and `rate` are numbers of bits; `WellFormed` bounds them by their fields. -/
inductive Instr where
  /-- KECCAK_F (R119). -/
  | keccakF
  /-- ABSORB cap, ds (R136). -/
  | absorb (cap : Nat) (ds : Byte)
  /-- SQUEEZE rate (R137). -/
  | squeeze (rate : Nat)
  /-- HASH (R152). -/
  | hash
  /-- KDF (R153). -/
  | kdf
  /-- MAC (R154). -/
  | mac
  /-- FMUL Rd, Ra, Rb (R176). -/
  | fmul (rd ra rb : Reg)
  /-- FINV Rd, Ra (R177). -/
  | finv (rd ra : Reg)
  /-- PADD Pd, Pa, Pb (R199). -/
  | padd (pd pa pb : PointReg)
  /-- PDBL Pd, Pa (R200). -/
  | pdbl (pd pa : PointReg)
  /-- PMUL Pd, Rk, Pa (R201). -/
  | pmul (pd : PointReg) (rk : Reg) (pa : PointReg)
  /-- SIGN Rh, Rs, Rd (R226). -/
  | sign (rh rs rd : Reg)
  /-- SIGN.X Rh, Rs, Rd, Rk (R227). -/
  | signX (rh rs rd rk : Reg)
  /-- VERIFY Rh, Rs, Pv (R228). -/
  | verify (rh rs : Reg) (pv : PointReg)
  deriving DecidableEq, Repr

/-- The host's transactions (R50). -/
inductive Transaction where
  /-- `Reset` (R300). -/
  | reset
  /-- `Read8(a)` (R52). -/
  | read8 (a : Addr)
  /-- `Write8(a, v)` (R53). -/
  | write8 (a : Addr) (v : Byte)
  /-- `Issue(w)` (R54). -/
  | issue (w : Word)
  deriving DecidableEq, Repr

end Sys2Proof
end

