-- ==== Sys2Proof/Machine/State.lean ====
section
/-! DEFINITION. The state of one block instance (R20), the host's transaction list (R24), and the state after reset (R39). -/

namespace Sys2Proof.Machine

/-- The five lanes of one row y of the grid, by x (R32). -/
structure Plane where
  /-- Lane (0, y). -/
  x0 : Lane
  /-- Lane (1, y). -/
  x1 : Lane
  /-- Lane (2, y). -/
  x2 : Lane
  /-- Lane (3, y). -/
  x3 : Lane
  /-- Lane (4, y). -/
  x4 : Lane
  deriving DecidableEq, Repr

/-- The 5 by 5 grid of lanes, 1600 bits, by y (R32, R110). -/
structure Grid where
  /-- The lanes (x, 0). -/
  y0 : Plane
  /-- The lanes (x, 1). -/
  y1 : Plane
  /-- The lanes (x, 2). -/
  y2 : Plane
  /-- The lanes (x, 3). -/
  y3 : Plane
  /-- The lanes (x, 4). -/
  y4 : Plane
  deriving DecidableEq, Repr

/-- All 25 lanes 0. -/
def Grid.zero : Grid :=
  let row : Plane := ⟨0, 0, 0, 0, 0⟩
  ⟨row, row, row, row, row⟩

/-- The bytes of a buffer, by offset: offsets strictly rising, no byte listed that is 0, since an unlisted byte reads
as 0, its reset value (R34, R35; log 5). `Memory.wf` of Machine/Ops.lean says so. -/
abbrev Memory := List Host.Cell

/-- The state: R20's architectural state, then the model's own fields. -/
structure State where
  /-- `R[0]` to `R[15]` (R21); `P[j]` is the pair `R[2j]`, `R[2j+1]` (R22). -/
  regs : Vector Big 16
  /-- `ST` (R32). -/
  st : Grid
  /-- `IBUF` (R34). -/
  ibuf : Memory
  /-- `OBUF` (R35). -/
  obuf : Memory
  /-- `ILEN` (R29). -/
  ilen : Word
  /-- `OBITS` (R30). -/
  obits : Word
  /-- `OLEN` (R31). -/
  olen : Word
  /-- `RESULT` (R26). -/
  result : Word
  /-- `FAULT` (R27). -/
  fault : Word
  /-- `FAULT_INFO` (R28). -/
  faultInfo : Word
  /-- The configuration record (R6), a parameter of the model that nothing writes; `PARAM` (R36) is read from it
  (log 1). DESIGN CHOICE. -/
  cfg : Config
  /-- The host's list of transactions (R24; log 2). DESIGN CHOICE. -/
  txns : List Transaction
  /-- The index of the next transaction (R24). -/
  pc : Nat
  /-- The byte the last transaction returned to the host, if it was a `Read8` (R50; log 4). DESIGN CHOICE. -/
  returned : Option Byte
  deriving DecidableEq, Repr

/-- Why the machine stops. -/
inductive Fault where
  /-- Raised by `step` when `pc` is at the end of the transaction list: the run is over (R24) and there is no next
  state. Safe: the host may still issue nothing more (log 6). -/
  | endOfRun
  deriving DecidableEq, Repr

/-- Why an instruction has no meaning. -/
inductive Refusal where
  /-- Raised by an arm of `exec` for an instruction not modelled yet; no arm does. Safe. -/
  | notModelled (mnemonic : String)
  deriving DecidableEq, Repr

/-- The state after Reset (R39, R300), with the default configuration (R6, log 1) and no transaction listed (log 2). -/
def State.reset : State where
  regs := Vector.replicate 16 0
  st := Grid.zero
  ibuf := []
  obuf := []
  ilen := 0
  obits := 0
  olen := 0
  result := 0
  fault := 0
  faultInfo := 0
  cfg := Config.default
  txns := []
  pc := 0
  returned := none

/-- What a step or a meaning answers. -/
abbrev Answer := Host.Outcome State Fault Refusal

end Sys2Proof.Machine
end

