-- ==== Sys2Proof/Machine/Ops.lean ====
section
/-! DEFINITION. The named operations over buffers and registers, the end of a command, the taking of a fault and the
return from it. -/

namespace Sys2Proof.Machine

/-- The byte at an offset of a buffer; an unlisted one is 0 (R34, R35). -/
def Memory.read : Memory → Nat → Byte
  | [], _ => 0
  | (k, b) :: rest, j => if j = k then b else Memory.read rest j

/-- The buffer with nothing listed at an offset. -/
def Memory.erase : Memory → Nat → Memory
  | [], _ => []
  | (k, b) :: rest, j => if j = k then Memory.erase rest j else (k, b) :: Memory.erase rest j

/-- The buffer with a byte listed at an offset, in rising order. -/
def Memory.insert : Memory → Nat → Byte → Memory
  | [], j, v => [(j, v)]
  | (k, b) :: rest, j, v =>
    if j < k then (j, v) :: (k, b) :: rest
    else if j = k then (j, v) :: rest
    else (k, b) :: Memory.insert rest j v

/-- The buffer with the byte at an offset replaced; writing 0 lists nothing (log 5). -/
def Memory.write (m : Memory) (j : Nat) (v : Byte) : Memory := if v = 0 then m.erase j else m.insert j v

/-- The buffer with a byte string written from an offset upward. -/
def Memory.writeBytes : Memory → Nat → List Byte → Memory
  | m, _, [] => m
  | m, j, b :: bs => Memory.writeBytes (m.write j b) (j + 1) bs

/-- The byte string at offsets 0 to `n - 1`. -/
def Memory.readBytes (m : Memory) (n : Nat) : List Byte := (List.range n).map m.read

/-- The canonical form of a buffer of `size` bytes: offsets strictly rising and below `size`, no zero byte listed. -/
def Memory.wf (m : Memory) (size : Nat) : Bool :=
  decide (m.Pairwise fun a b => a.1 < b.1) && m.all fun cell => cell.1 < size && cell.2 != 0

/-- `R[i]`, a natural number below `2^528` (R10, R21). -/
def State.reg (s : State) (i : Reg) : Nat := (s.regs.get i).toNat

/-- `R[i] <- v` (R10). Every value a command writes is below `2^528` under an admissible configuration; of a larger one
the low 528 bits are kept (log 17). -/
def State.setReg (s : State) (i : Reg) (v : Nat) : State := { s with regs := s.regs.set i (BitVec.ofNat 528 v) }

/-- The register `R[2j]`, the x coordinate of `P[j]` (R22). -/
def pointX (j : PointReg) : Reg := ⟨2 * j.val, by omega⟩

/-- The register `R[2j+1]`, the y coordinate of `P[j]` (R22). -/
def pointY (j : PointReg) : Reg := ⟨2 * j.val + 1, by omega⟩

/-- `msg()`: the byte string `IBUF[0:ILEN]` (R10, R29). -/
def State.msg (s : State) : List Byte := s.ibuf.readBytes s.ilen.toNat

/-- `OBUF[0 : len(out)] <- out` and `OLEN <- len(out)`; later bytes of `OBUF` keep their values (R31, R35, R137,
R151). -/
def State.writeOutput (s : State) (out : List Byte) : State :=
  { s with obuf := s.obuf.writeBytes 0 out, olen := BitVec.ofNat 32 out.length }

/-- `ST <- all 25 lanes 0` (R151, R223). -/
def State.clearSt (s : State) : State := { s with st := Grid.zero }

/-- `finish(code)` (R271). -/
def finish (code : ResultCode) (s : State) : State := { s with result := code.number }

/-- `raise Fault(code, info)`, the block's only trap entry (R274): the first fault is kept, and nothing else changes.
It saves no program counter, changes no mode and enters no handler. -/
def raiseFault (code : FaultCode) (info : Word) (s : State) : State :=
  if s.fault = 0 then { s with fault := code.number, faultInfo := info } else s

/-- The Reset transaction, the only return from a fault (R279, R300): every piece of architectural state takes its value
of R39. The configuration and the host's list and index are no such state. -/
def resetBlock (s : State) : State :=
  { State.reset with cfg := s.cfg, txns := s.txns, pc := s.pc, returned := s.returned }

end Sys2Proof.Machine
end

