-- ==== Sys2Proof/Machine/Permutation.lean ====
section
/-! DEFINITION. The grid's byte view (R33) and the permutation Keccak-f[1600] (R110 to R118). -/

namespace Sys2Proof.Machine

/-- The lane at x of a row, x modulo 5 (R110). -/
def Plane.at (p : Plane) (x : Nat) : Lane :=
  match x % 5 with
  | 0 => p.x0
  | 1 => p.x1
  | 2 => p.x2
  | 3 => p.x3
  | _ => p.x4

/-- The lane (x, y), x and y modulo 5 (R110). -/
def Grid.lane (a : Grid) (x y : Nat) : Lane :=
  match y % 5 with
  | 0 => a.y0.at x
  | 1 => a.y1.at x
  | 2 => a.y2.at x
  | 3 => a.y3.at x
  | _ => a.y4.at x

/-- The grid whose lane (x, y) is `f x y`. -/
def Grid.ofLanes (f : Nat → Nat → Lane) : Grid :=
  let row := fun y => Plane.mk (f 0 y) (f 1 y) (f 2 y) (f 3 y) (f 4 y)
  ⟨row 0, row 1, row 2, row 3, row 4⟩

/-- Byte `i` of `state_bytes`: byte `i mod 8` of the lane with linear index `x + 5y = i div 8` (R33). -/
def Grid.byte (a : Grid) (i : Nat) : Byte := byteOf (a.lane (i / 8 % 5) (i / 8 / 5)) (i % 8)

/-- The grid with byte `i` of its byte view replaced (R33, R53). -/
def Grid.setByte (a : Grid) (i : Nat) (b : Byte) : Grid :=
  Grid.ofLanes fun x y => if x + 5 * y = i / 8 then withByte (a.lane x y) (i % 8) b else a.lane x y

/-- `state_bytes(ST)`, 200 bytes (R33). -/
def Grid.bytes (a : Grid) : List Byte := (List.range 200).map a.byte

/-- `lanes(b)`, the inverse of `state_bytes` on strings of 200 bytes (R33). -/
def Grid.ofBytes (b : List Byte) : Grid :=
  Grid.ofLanes fun x y => BitVec.ofNat 64 (leValue ((b.drop (8 * (x + 5 * y))).take 8))

/-- `C[x]`, the parity of column x (R112). -/
def columnParity (a : Grid) (x : Nat) : Lane :=
  a.lane x 0 ^^^ a.lane x 1 ^^^ a.lane x 2 ^^^ a.lane x 3 ^^^ a.lane x 4

/-- theta (R112, `90_conflicts.md` C1). Indices are modulo 5. -/
def theta (a : Grid) : Grid :=
  Grid.ofLanes fun x y => a.lane x y ^^^ (columnParity a (x + 4) ^^^ (columnParity a (x + 1)).rotateLeft 1)

/-- `RHO[x][y]` (R113), one list for each x. -/
def rhoTable : List (List Nat) :=
  [ [0, 36, 3, 41, 18],
    [1, 44, 10, 45, 2],
    [62, 6, 43, 15, 61],
    [28, 55, 25, 21, 56],
    [27, 20, 39, 8, 14] ]

/-- The rotation offset of lane (x, y) (R113). -/
def rhoOffset (x y : Nat) : Nat := (rhoTable.getD x []).getD y 0

/-- rho (R113). -/
def rho (a : Grid) : Grid := Grid.ofLanes fun x y => (a.lane x y).rotateLeft (rhoOffset x y)

/-- pi, in R114's form `A'[x,y] = A[(x+3y) mod 5, x]`. -/
def piStep (a : Grid) : Grid := Grid.ofLanes fun x y => a.lane (x + 3 * y) x

/-- chi (R115). -/
def chi (a : Grid) : Grid :=
  Grid.ofLanes fun x y => a.lane x y ^^^ (~~~(a.lane (x + 1) y) &&& a.lane (x + 2) y)

/-- The row `n` of R116's table, n from 0 to 7: `RC[n]`, `RC[n+8]` and `RC[n+16]`. -/
def roundConstantRow : Nat → Lane × Lane × Lane
  | 0 => (0x0000000000000001, 0x000000000000008A, 0x8000000000008002)
  | 1 => (0x0000000000008082, 0x0000000000000088, 0x8000000000000080)
  | 2 => (0x800000000000808A, 0x0000000080008009, 0x000000000000800A)
  | 3 => (0x8000000080008000, 0x000000008000000A, 0x800000008000000A)
  | 4 => (0x000000000000808B, 0x000000008000808B, 0x8000000080008081)
  | 5 => (0x0000000080000001, 0x800000000000008B, 0x8000000000008080)
  | 6 => (0x8000000080008081, 0x8000000000008089, 0x0000000080000001)
  | _ => (0x8000000000008009, 0x8000000000008003, 0x8000000080008008)

/-- `RC[ir]` (R116), for ir from 0 to 23. -/
def roundConstant (ir : Nat) : Lane :=
  let (first, second, third) := roundConstantRow (ir % 8)
  if ir < 8 then first else if ir < 16 then second else third

/-- iota (R116). -/
def iota (a : Grid) (ir : Nat) : Grid :=
  Grid.ofLanes fun x y => if x = 0 ∧ y = 0 then a.lane 0 0 ^^^ roundConstant ir else a.lane x y

/-- `Rnd(A, ir)` (R117). -/
def keccakRound (a : Grid) (ir : Nat) : Grid := iota (chi (piStep (rho (theta a)))) ir

/-- `keccak_f(A)`: 24 rounds, `ir` rising from 0 (R118). -/
def keccakF (a : Grid) : Grid := (List.range 24).foldl keccakRound a

end Sys2Proof.Machine
end

