-- ==== Sys2Proof/Machine/Bus.lean ====
section
/-! DEFINITION. The address map (R55 to R58) and the transactions Read8 and Write8 (R52, R53). -/

namespace Sys2Proof.Machine

/-- The control registers, in address order (R55, R57). -/
inductive ControlReg where
  | result | fault | faultInfo | ilen | obits | olen
  deriving DecidableEq, Repr

/-- The control register at base address `4n` (R55). -/
def ControlReg.ofIndex : Nat → ControlReg
  | 0 => .result
  | 1 => .fault
  | 2 => .faultInfo
  | 3 => .ilen
  | 4 => .obits
  | _ => .olen

/-- What a mapped address holds: a byte of a piece of state or of `PARAM`. -/
inductive Location where
  /-- Byte `j` of a control register (R57). -/
  | control (c : ControlReg) (j : Nat)
  /-- Byte `i` of `state_bytes(ST)` (R33). -/
  | lanes (i : Nat)
  /-- Byte `j` of `R[i]` (R56). -/
  | reg (i : Reg) (j : Nat)
  /-- Byte `j` of `PARAM[k]` (R56). -/
  | param (k : Fin 6) (j : Nat)
  /-- `IBUF[j]` (R58). -/
  | input (j : Nat)
  /-- `OBUF[j]` (R58). -/
  | output (j : Nat)
  deriving DecidableEq, Repr

/-- The address map (R55): what a mapped address holds, or none if it is unmapped. -/
def locate (cfg : Config) (a : Addr) : Option Location :=
  let n := a.toNat
  if n < 0x0018 then some (.control (ControlReg.ofIndex (n / 4)) (n % 4))
  else if n < 0x0100 then none
  else if n < 0x01C8 then some (.lanes (n - 0x0100))
  else if n < 0x0400 then none
  else if n < 0x0C00 then
    if (n - 0x0400) % 0x80 < 66 then some (.reg (Fin.ofNat 16 ((n - 0x0400) / 0x80)) ((n - 0x0400) % 0x80)) else none
  else if n < 0x0F00 then
    if (n - 0x0C00) % 0x80 < 66 then some (.param (Fin.ofNat 6 ((n - 0x0C00) / 0x80)) ((n - 0x0C00) % 0x80)) else none
  else if n < 0x4000 then none
  else if n < 0x8000 then if n - 0x4000 < cfg.ibufSize then some (.input (n - 0x4000)) else none
  else if n < 0xC000 then if n - 0x8000 < cfg.obufSize then some (.output (n - 0x8000)) else none
  else none

/-- `PARAM[k]` (R36). -/
def paramValue (cfg : Config) (k : Fin 6) : Big :=
  match k with
  | 0 => BitVec.ofNat 528 cfg.p
  | 1 => BitVec.ofNat 528 cfg.d
  | 2 => BitVec.ofNat 528 cfg.r
  | 3 => BitVec.ofNat 528 cfg.n
  | 4 => BitVec.ofNat 528 cfg.gx
  | 5 => BitVec.ofNat 528 cfg.gy

/-- The 32 bits of a control register. -/
def State.control (s : State) : ControlReg → Word
  | .result => s.result
  | .fault => s.fault
  | .faultInfo => s.faultInfo
  | .ilen => s.ilen
  | .obits => s.obits
  | .olen => s.olen

/-- The byte a location holds. -/
def State.byteAt (s : State) : Location → Byte
  | .control c j => byteOf (s.control c) j
  | .lanes i => s.st.byte i
  | .reg i j => byteOf (s.regs.get i) j
  | .param k j => byteOf (paramValue s.cfg k) j
  | .input j => s.ibuf.read j
  | .output j => s.obuf.read j

/-- The byte at a bus address, none if it is unmapped. -/
def State.peek (s : State) (a : Addr) : Option Byte := (locate s.cfg a).map s.byteAt

/-- The access "RW" of R55. -/
def Location.writable : Location → Bool
  | .control .ilen _ => true
  | .control .obits _ => true
  | .control _ _ => false
  | .lanes _ => true
  | .reg _ _ => true
  | .param _ _ => false
  | .input _ => true
  | .output _ => false

/-- The state with the byte of a writable location replaced (R53); a read-only location keeps its byte. -/
def State.putByte (s : State) (l : Location) (v : Byte) : State :=
  match l with
  | .control .ilen j => { s with ilen := withByte s.ilen j v }
  | .control .obits j => { s with obits := withByte s.obits j v }
  | .control _ _ => s
  | .lanes i => { s with st := s.st.setByte i v }
  | .reg i j => { s with regs := s.regs.set i (withByte (s.regs.get i) j v) }
  | .param _ _ => s
  | .input j => { s with ibuf := s.ibuf.write j v }
  | .output _ => s

/-- `Read8(a)` (R52): the byte, or 0x00 and BUS_ERROR if the address is unmapped. It works while FAULT is not 0 too. -/
def readByte (a : Addr) (s : State) : State :=
  match s.peek a with
  | some b => { s with returned := some b }
  | none => { raiseFault .busError (a.setWidth 32) s with returned := some 0 }

/-- `Write8(a, v)` (R53): ignored while FAULT is not 0 (R275). -/
def writeByte (a : Addr) (v : Byte) (s : State) : State :=
  if s.fault ≠ 0 then s
  else
    match locate s.cfg a with
    | some l => if l.writable then s.putByte l v else raiseFault .busError (a.setWidth 32) s
    | none => raiseFault .busError (a.setWidth 32) s

end Sys2Proof.Machine
end

