-- ==== Sys2Proof/Machine/Arith.lean ====
section
/-! DEFINITION. Arithmetic modulo p and modulo r on natural numbers (R11, R170 to R175). -/

namespace Sys2Proof.Machine

/-- `addp(a, b)` (R171). -/
def addp (cfg : Config) (a b : Nat) : Nat := (a + b) % cfg.p

/-- `subp(a, b)`, the difference taken over the integers (R171). -/
def subp (cfg : Config) (a b : Nat) : Nat := (((a : Int) - b) % cfg.p).toNat

/-- `negp(a)`, the difference taken over the integers (R7, R11, R171). -/
def negp (cfg : Config) (a : Nat) : Nat := (((cfg.p : Int) - a) % cfg.p).toNat

/-- `mulp(a, b)` (R172). -/
def mulp (cfg : Config) (a b : Nat) : Nat := a * b % cfg.p

/-- The loop of `powMod`: the bits `i - 1` to 0 of the exponent, most significant first. -/
def powModLoop (m a e : Nat) : Nat → Nat → Nat
  | 0, acc => acc
  | i + 1, acc => powModLoop m a e i (if e.testBit i then acc * acc % m * a % m else acc * acc % m)

/-- `a^e mod m` by squaring and multiplying. -/
def powMod (a e m : Nat) : Nat := powModLoop m a e (e.log2 + 1) 1

/-- `invp(a)`, computed as `a^(p-2) mod p` (R173, 93 GK15; log 13). R173 leaves `invp(0)` undefined and no command
evaluates it: a free value (log 7). -/
def invp (cfg : Config) (a : Nat) : Nat :=
  if a % cfg.p = 0 then Config.invpOfZero else powMod a (cfg.p - 2) cfg.p

/-- `(k - h·dk) mod r` over the integers (R175, R225). -/
def responseScalar (cfg : Config) (k h dk : Nat) : Nat := (((k : Int) - h * dk) % cfg.r).toNat

end Sys2Proof.Machine
end

