-- ==== Sys2Proof/Machine/Points.lean ====
section
/-! DEFINITION. The curve's functions (R190 to R197). -/

namespace Sys2Proof.Machine

/-- A pair of coordinates; a point of the curve when `onCurve` says so (R190). -/
structure Point where
  /-- The x coordinate. -/
  x : Nat
  /-- The y coordinate. -/
  y : Nat
  deriving DecidableEq, Repr

/-- The identity point `O = (0, 1)` (R194). -/
def Point.identity : Point := ⟨0, 1⟩

/-- The negative `(negp(x), y)` (R194). -/
def ptNeg (cfg : Config) (a : Point) : Point := ⟨negp cfg a.x, a.y⟩

/-- Equality of points, after reduction modulo p (R194). -/
def ptEq (cfg : Config) (a b : Point) : Bool := a.x % cfg.p == b.x % cfg.p && a.y % cfg.p == b.y % cfg.p

/-- `on_curve(x, y)` (R193). -/
def onCurve (cfg : Config) (a : Point) : Bool :=
  addp cfg (mulp cfg a.x a.x) (mulp cfg a.y a.y)
    == addp cfg 1 (mulp cfg cfg.d (mulp cfg (mulp cfg a.x a.x) (mulp cfg a.y a.y)))

/-- `t = d·x1·x2·y1·y2` of R195. -/
def addTerm (cfg : Config) (a b : Point) : Nat :=
  mulp cfg cfg.d (mulp cfg (mulp cfg a.x b.x) (mulp cfg a.y b.y))

/-- `pt_add` (R195). R195 defines it for points on the curve only, and the commands call it with no other (R198;
log 8). -/
def ptAdd (cfg : Config) (a b : Point) : Point :=
  ⟨mulp cfg (addp cfg (mulp cfg a.x b.y) (mulp cfg a.y b.x)) (invp cfg (addp cfg 1 (addTerm cfg a b))),
   mulp cfg (subp cfg (mulp cfg a.y b.y) (mulp cfg a.x b.x)) (invp cfg (subp cfg 1 (addTerm cfg a b)))⟩

/-- `pt_dbl(P) = pt_add(P, P)` (R196). -/
def ptDbl (cfg : Config) (a : Point) : Point := ptAdd cfg a a

/-- `bitlen(k)`, with `bitlen(0) = 0` (R197). -/
def bitLength (k : Nat) : Nat := if k = 0 then 0 else k.log2 + 1

/-- The loop of R197 over the bits `i - 1` to 0 of `k`, most significant first. -/
def doubleAndAdd (cfg : Config) (k : Nat) (base : Point) : Nat → Point → Point
  | 0, acc => acc
  | i + 1, acc =>
    let doubled := ptAdd cfg acc acc
    doubleAndAdd cfg k base i (if k.testBit i then ptAdd cfg doubled base else doubled)

/-- The multiple `k·P` with no reduction of `k` (R192's `r·G`). -/
def ptMulUnreduced (cfg : Config) (k : Nat) (base : Point) : Point :=
  doubleAndAdd cfg k base (bitLength k) Point.identity

/-- `pt_mul(k, P)`: the scalar is reduced modulo r first (R197). -/
def ptMul (cfg : Config) (k : Nat) (base : Point) : Point := ptMulUnreduced cfg (k % cfg.r) base

/-- `CFG.G` (R192). -/
def generator (cfg : Config) : Point := ⟨cfg.gx, cfg.gy⟩

end Sys2Proof.Machine
end

