-- ==== Sys2Proof/Machine/Operands.lean ====
section
/-! DEFINITION. The four operand roles of R23, the operand-read step of the point commands (R198), and the length checks
of the message and output operands (R272, R276). -/

namespace Sys2Proof.Machine

/-- A field element: `R[i] mod p` (R23). -/
def State.fieldOperand (s : State) (i : Reg) : Nat := s.reg i % s.cfg.p

/-- The coordinate pair of `P[j]`, each modulo p (R23). -/
def State.coordinates (s : State) (j : PointReg) : Point := ⟨s.fieldOperand (pointX j), s.fieldOperand (pointY j)⟩

/-- `get_point`: the point, or none if it is malformed (R198). -/
def State.getPoint (s : State) (j : PointReg) : Option Point :=
  if onCurve s.cfg (s.coordinates j) then some (s.coordinates j) else none

/-- A multiplier scalar: `R[i] mod r` (R23). -/
def State.multiplierScalar (s : State) (i : Reg) : Nat := s.reg i % s.cfg.r

/-- A checked scalar: `R[i]` unreduced (R23). -/
def State.checkedScalar (s : State) (i : Reg) : Nat := s.reg i

/-- `P[j] <- (x, y)`: x first, then y (R22, R199). -/
def State.setPoint (s : State) (j : PointReg) (a : Point) : State := (s.setReg (pointX j) a.x).setReg (pointY j) a.y

/-- `ILEN > CFG.IBUF_SIZE` (R272). -/
def State.messageTooLong (s : State) : Bool := s.cfg.ibufSize < s.ilen.toNat

/-- `ceil8(OBITS) > CFG.OBUF_SIZE` (R272). -/
def State.outputTooLong (s : State) : Bool := s.cfg.obufSize < ceil8 s.obits.toNat

/-- A private key out of range: `dk = 0` or `dk ≥ r` (R226). -/
def keyOutOfRange (cfg : Config) (dk : Nat) : Bool := dk = 0 || cfg.r ≤ dk

end Sys2Proof.Machine
end

