-- ==== Sys2Proof/Machine/Curve.lean ====
section
/-! DEFINITION. The commands PADD, PDBL and PMUL. -/

namespace Sys2Proof.Machine

/-- PADD Pd, Pa, Pb (R199). -/
def execPadd (pd pa pb : PointReg) (s : State) : Answer :=
  match s.getPoint pa, s.getPoint pb with
  | some a, some b => .next (finish .ok (s.setPoint pd (ptAdd s.cfg a b)))
  | _, _ => .next (finish .malformedPoint s)

/-- PDBL Pd, Pa (R200). -/
def execPdbl (pd pa : PointReg) (s : State) : Answer :=
  match s.getPoint pa with
  | some a => .next (finish .ok (s.setPoint pd (ptDbl s.cfg a)))
  | none => .next (finish .malformedPoint s)

/-- PMUL Pd, Rk, Pa (R201): the scalar is reduced inside `ptMul`. -/
def execPmul (pd : PointReg) (rk : Reg) (pa : PointReg) (s : State) : Answer :=
  match s.getPoint pa with
  | some a => .next (finish .ok (s.setPoint pd (ptMul s.cfg (s.reg rk) a)))
  | none => .next (finish .malformedPoint s)

end Sys2Proof.Machine
end

