-- ==== Sys2Proof/Machine/Field.lean ====
section
/-! DEFINITION. The commands FMUL and FINV. -/

namespace Sys2Proof.Machine

/-- FMUL Rd, Ra, Rb (R176). -/
def execFmul (rd ra rb : Reg) (s : State) : Answer :=
  .next (finish .ok (s.setReg rd (mulp s.cfg (s.fieldOperand ra) (s.fieldOperand rb))))

/-- FINV Rd, Ra (R177). -/
def execFinv (rd ra : Reg) (s : State) : Answer :=
  if s.fieldOperand ra = 0 then .next (finish .invalidScalar s)
  else .next (finish .ok (s.setReg rd (invp s.cfg (s.fieldOperand ra))))

end Sys2Proof.Machine
end

