-- ==== Sys2Proof/Machine/Keccak.lean ====
section
/-! DEFINITION. The command KECCAK_F. -/

namespace Sys2Proof.Machine

/-- KECCAK_F (R119). -/
def execKeccakF (s : State) : Answer := .next (finish .ok { s with st := keccakF s.st })

end Sys2Proof.Machine
end

