-- ==== Sys2Proof/WellFormed.lean ====
section
/-! DEFINITION. Which commands a command word can carry (R81, R82). -/

namespace Sys2Proof

/-- Every field fits its place in the word (R82): `cap` and `rate` have 11 bits. The other fields' types are their
widths. A legal range inside the field (R82) is no part of this: such a word decodes, and its command raises
`BAD_PARAM` (R85). -/
def Instr.wellFormed : Instr → Bool
  | .keccakF => true
  | .absorb cap _ => cap < 2 ^ 11
  | .squeeze rate => rate < 2 ^ 11
  | .hash => true
  | .kdf => true
  | .mac => true
  | .fmul _ _ _ => true
  | .finv _ _ => true
  | .padd _ _ _ => true
  | .pdbl _ _ => true
  | .pmul _ _ _ => true
  | .sign _ _ _ => true
  | .signX _ _ _ _ => true
  | .verify _ _ _ => true

end Sys2Proof
end

