-- ==== Sys2Proof/Decode.lean ====
section
/-! DEFINITION. The table of R84, the total decoder (R86) and the encoder (R88). -/

namespace Sys2Proof

/-- The rows of R84, one name each. -/
inductive Opcode where
  | keccakF | absorb | squeeze | hash | kdf | mac | fmul | finv | padd | pdbl | pmul | sign | signX | verify
  deriving DecidableEq, Repr

/-- A row of R84: a word `w` is the command of the row iff `w` and `mask` give `pattern` (the spec's `match`). -/
structure Row where
  /-- The row's name. -/
  op : Opcode
  /-- The row's `match`. -/
  pattern : Word
  /-- The row's `mask`. -/
  mask : Word
  deriving DecidableEq, Repr

/-- The complete list of commands (R84). -/
def opcodeTable : List Row :=
  [ ⟨.keccakF, 0x01000000, 0xFFFFFFFF⟩,
    ⟨.absorb,  0x02000000, 0xFF00F800⟩,
    ⟨.squeeze, 0x03000000, 0xFFFFF800⟩,
    ⟨.hash,    0x10000000, 0xFFFFFFFF⟩,
    ⟨.kdf,     0x11000000, 0xFFFFFFFF⟩,
    ⟨.mac,     0x12000000, 0xFFFFFFFF⟩,
    ⟨.fmul,    0x20000000, 0xFF000FFF⟩,
    ⟨.finv,    0x21000000, 0xFF00FFFF⟩,
    ⟨.padd,    0x30000000, 0xFF111FFF⟩,
    ⟨.pdbl,    0x31000000, 0xFF11FFFF⟩,
    ⟨.pmul,    0x32000000, 0xFF101FFF⟩,
    ⟨.sign,    0x40000000, 0xFF000FFF⟩,
    ⟨.signX,   0x40000001, 0xFF0000FF⟩,
    ⟨.verify,  0x41000000, 0xFF001FFF⟩ ]

/-- `w` is a command of this row (R84). -/
def Row.accepts (row : Row) (w : Word) : Bool := w &&& row.mask == row.pattern

/-- The `r` field whose lowest bit is `lo` (R82). -/
def regField (w : Word) (lo : Nat) : Reg := ⟨(w.extractLsb' lo 4).toNat, (w.extractLsb' lo 4).isLt⟩

/-- The `pt` field whose lowest bit is `lo`: its upper three bits are the index of the point register (R82). -/
def pointField (w : Word) (lo : Nat) : PointReg :=
  ⟨(w.extractLsb' (lo + 1) 3).toNat, (w.extractLsb' (lo + 1) 3).isLt⟩

/-- The `cap` or `rate` field, `w[10:0]` (R81). -/
def lengthField (w : Word) : Nat := (w.extractLsb' 0 11).toNat

/-- The `ds` field, `w[23:16]` (R81). -/
def suffixField (w : Word) : Byte := w.extractLsb' 16 8

/-- The fields of a row, extracted at the row's bit positions (R81, R84). -/
def operandsOf (op : Opcode) (w : Word) : Instr :=
  match op with
  | .keccakF => .keccakF
  | .absorb => .absorb (lengthField w) (suffixField w)
  | .squeeze => .squeeze (lengthField w)
  | .hash => .hash
  | .kdf => .kdf
  | .mac => .mac
  | .fmul => .fmul (regField w 20) (regField w 16) (regField w 12)
  | .finv => .finv (regField w 20) (regField w 16)
  | .padd => .padd (pointField w 20) (pointField w 16) (pointField w 12)
  | .pdbl => .pdbl (pointField w 20) (pointField w 16)
  | .pmul => .pmul (pointField w 20) (regField w 16) (pointField w 12)
  | .sign => .sign (regField w 20) (regField w 16) (regField w 12)
  | .signX => .signX (regField w 20) (regField w 16) (regField w 12) (regField w 8)
  | .verify => .verify (regField w 20) (regField w 16) (pointField w 12)

/-- Why a word is no command (R85). Both kinds raise the one fault `ILLEGAL_CMD`. -/
inductive Illegal where
  /-- The opcode `w[31:24]` is that of no row. -/
  | unknownOpcode
  /-- The opcode is known, and a bit that must be zero is not (R81), among them bit 0 of a `pt` field, `w[7:1]` of
  opcode 0x40, and `rk` of SIGN. -/
  | nonzeroFixedBit
  deriving DecidableEq, Repr

/-- Some row has the opcode of `w`. -/
def knownOpcode (w : Word) : Bool :=
  opcodeTable.any fun row => row.pattern.extractLsb' 24 8 == w.extractLsb' 24 8

/-- R86: the first row that accepts `w`, with its fields, or illegal. -/
def decode (w : Word) : Except Illegal Instr :=
  match opcodeTable.find? (fun row => row.accepts w) with
  | some row => .ok (operandsOf row.op w)
  | none => .error (if knownOpcode w then .nonzeroFixedBit else .unknownOpcode)

/-- A field value put at bit `lo` of a word. -/
def placed (v lo : Nat) : Word := BitVec.ofNat 32 v <<< lo

/-- The field value `2j` of the point register `P[j]` (R82). -/
def pointValue (p : PointReg) : Nat := 2 * p.val

/-- The word of a well-formed command (R81, R88). -/
def encode : Instr → Word
  | .keccakF => 0x01000000
  | .absorb cap ds => 0x02000000 ||| placed ds.toNat 16 ||| placed cap 0
  | .squeeze rate => 0x03000000 ||| placed rate 0
  | .hash => 0x10000000
  | .kdf => 0x11000000
  | .mac => 0x12000000
  | .fmul rd ra rb => 0x20000000 ||| placed rd 20 ||| placed ra 16 ||| placed rb 12
  | .finv rd ra => 0x21000000 ||| placed rd 20 ||| placed ra 16
  | .padd pd pa pb => 0x30000000 ||| placed (pointValue pd) 20 ||| placed (pointValue pa) 16 ||| placed (pointValue pb) 12
  | .pdbl pd pa => 0x31000000 ||| placed (pointValue pd) 20 ||| placed (pointValue pa) 16
  | .pmul pd rk pa => 0x32000000 ||| placed (pointValue pd) 20 ||| placed rk 16 ||| placed (pointValue pa) 12
  | .sign rh rs rd => 0x40000000 ||| placed rh 20 ||| placed rs 16 ||| placed rd 12
  | .signX rh rs rd rk => 0x40000001 ||| placed rh 20 ||| placed rs 16 ||| placed rd 12 ||| placed rk 8
  | .verify rh rs pv => 0x41000000 ||| placed rh 20 ||| placed rs 16 ||| placed (pointValue pv) 12

/-- The command the decoder reads from the word `w`. A command word is one number on the command port and has no byte
order (R51, R80; log 15). -/
def decodeTableWord (nbits w : Nat) : Option Instr :=
  (decode (BitVec.ofNat 32 (w % 2 ^ nbits))).toOption

end Sys2Proof
end

