-- ==== Sys2Proof/Machine/SpongeFn.lean ====
section
/-! DEFINITION. The sponge as functions of byte strings (R130 to R134) and Hash, KDF, MAC (R150). -/

namespace Sys2Proof.Machine

/-- `pad(M, rate_bytes, ds)` (R131). -/
def pad (msg : List Byte) (rateBytes : Nat) (ds : Byte) : List Byte :=
  let q := rateBytes - msg.length % rateBytes
  msg ++ (ds :: List.replicate (q - 1) 0).modify (q - 1) (· ^^^ 0x80)

/-- Block `i` of a padded string, zero-extended to 200 bytes (R132). -/
def padBlock (padded : List Byte) (rateBytes i : Nat) : List Byte :=
  (padded.drop (i * rateBytes)).take rateBytes ++ List.replicate (200 - rateBytes) 0

/-- One block of absorption: XOR into the byte view, then the permutation (R132). -/
def absorbBlock (a : Grid) (block : List Byte) : Grid := keccakF (Grid.ofBytes (xorBytes a.bytes block))

/-- `absorb(M, cap, ds)` (R132). -/
def absorb (msg : List Byte) (cap : Nat) (ds : Byte) : Grid :=
  let rateBytes := (1600 - cap) / 8
  let padded := pad msg rateBytes ds
  (List.range (padded.length / rateBytes)).foldl (fun a i => absorbBlock a (padBlock padded rateBytes i)) Grid.zero

/-- The loop of `squeeze` (R133): at most `fuel` times, while `8·len(out) < L`. -/
def squeezeLoop (bits rateBytes : Nat) : Nat → List Byte → Grid → List Byte × Grid
  | 0, out, a => (out, a)
  | fuel + 1, out, a =>
    if 8 * out.length < bits then squeezeLoop bits rateBytes fuel (out ++ a.bytes.take rateBytes) (keccakF a)
    else (out, a)

/-- The first `bits` bits of `out`: `ceil8(bits)` bytes, the last one keeping its low `bits mod 8` bits (R133). -/
def truncateBits (out : List Byte) (bits : Nat) : List Byte :=
  let nb := ceil8 bits
  if bits % 8 ≠ 0 then (out.take nb).modify (nb - 1) (· &&& BitVec.ofNat 8 (2 ^ (bits % 8) - 1)) else out.take nb

/-- `squeeze(A, L, rate)` (R133). Each turn of the loop adds `rate/8 ≥ 1` bytes, so `L` turns suffice (log 13). -/
def squeeze (a : Grid) (bits rate : Nat) : List Byte × Grid :=
  let (out, a') := squeezeLoop bits (rate / 8) bits [] a
  (truncateBits out bits, a')

/-- `sponge(M, cap, ds, L)` (R134). -/
def sponge (msg : List Byte) (cap : Nat) (ds : Byte) (bits : Nat) : List Byte :=
  (squeeze (absorb msg cap ds) bits (1600 - cap)).1

/-- `Hash(data)` (R150). -/
def hashFn (cfg : Config) (data : List Byte) : List Byte := sponge data cfg.capXof cfg.dsHash cfg.hashBits

/-- `KDF(key_material, context, L)` (R150). -/
def kdfFn (cfg : Config) (keyMaterial context : List Byte) (bits : Nat) : List Byte :=
  sponge (context ++ keyMaterial) cfg.capXof cfg.dsKdf bits

/-- `MAC(key, message, context)` (R150). -/
def macFn (cfg : Config) (key message context : List Byte) : List Byte :=
  sponge (context ++ key ++ message) cfg.capXof cfg.dsMac cfg.tagBits

end Sys2Proof.Machine
end

