-- ==== Sys2Proof/Machine/Schnorr.lean ====
section
/-! DEFINITION. The Schnorr engine's functions (R221 to R225) and the commands SIGN, SIGN.X and VERIFY. -/

namespace Sys2Proof.Machine

/-- `challenge(Rp, M)` (R222). -/
def challenge (cfg : Config) (a : Point) (msg : List Byte) : Nat :=
  leValue (sponge (cfg.ctxSig ++ enc a.x ++ enc a.y ++ msg) cfg.capXof cfg.dsMac cfg.tagBits) % cfg.r

/-- One attempt of `derive_nonce`, with counter byte `ctr` (R224). -/
def nonceAttempt (cfg : Config) (dk : Nat) (msg : List Byte) (ctr : Nat) : Nat :=
  leValue (sponge (cfg.ctxNonce ++ [BitVec.ofNat 8 ctr] ++ enc dk ++ msg) cfg.capXof cfg.dsKdf cfg.nonceBits) % cfg.r

/-- `derive_nonce(dk, M)`: the first nonzero attempt of 256 (R224). -/
def deriveNonce (cfg : Config) (dk : Nat) (msg : List Byte) : Option Nat :=
  (List.range 256).findSome? fun ctr =>
    let k := nonceAttempt cfg dk msg ctr
    if k = 0 then none else some k

/-- `sign_core(dk, k, M)`: the pair `(h, s)` (R225). -/
def signCore (cfg : Config) (dk k : Nat) (msg : List Byte) : Nat × Nat :=
  let h := challenge cfg (ptMul cfg k (generator cfg)) msg
  (h, responseScalar cfg k h dk)

/-- The writes of a completed signature: h, then s, then `ST <- 0` (R226, R227). -/
def writeSignature (rh rs : Reg) (sig : Nat × Nat) (s : State) : State :=
  finish .ok ((s.setReg rh sig.1).setReg rs sig.2).clearSt

/-- The point `R' = s·G + h·V` of R228. -/
def commitment (cfg : Config) (h resp : Nat) (key : Point) : Point :=
  ptAdd cfg (ptMul cfg resp (generator cfg)) (ptMul cfg h key)

/-- SIGN Rh, Rs, Rd (R226). -/
def execSign (rh rs rd : Reg) (s : State) : Answer :=
  if s.messageTooLong then .next (raiseFault .lenRange (encode (.sign rh rs rd)) s)
  else if keyOutOfRange s.cfg (s.checkedScalar rd) then .next (finish .invalidScalar s)
  else
    match deriveNonce s.cfg (s.checkedScalar rd) s.msg with
    | none => .next (finish .invalidScalar s.clearSt)
    | some k => .next (writeSignature rh rs (signCore s.cfg (s.checkedScalar rd) k s.msg) s)

/-- SIGN.X Rh, Rs, Rd, Rk (R227). -/
def execSignX (rh rs rd rk : Reg) (s : State) : Answer :=
  if s.messageTooLong then .next (raiseFault .lenRange (encode (.signX rh rs rd rk)) s)
  else if keyOutOfRange s.cfg (s.checkedScalar rd) then .next (finish .invalidScalar s)
  else if s.multiplierScalar rk = 0 then .next (finish .invalidScalar s)
  else .next (writeSignature rh rs (signCore s.cfg (s.checkedScalar rd) (s.multiplierScalar rk) s.msg) s)

/-- VERIFY Rh, Rs, Pv (R228). -/
def execVerify (rh rs : Reg) (pv : PointReg) (s : State) : Answer :=
  if s.messageTooLong then .next (raiseFault .lenRange (encode (.verify rh rs pv)) s)
  else if s.cfg.r ≤ s.checkedScalar rh ∨ s.cfg.r ≤ s.checkedScalar rs then .next (finish .invalidScalar s)
  else
    match s.getPoint pv with
    | none => .next (finish .malformedPoint s)
    | some key =>
      if challenge s.cfg (commitment s.cfg (s.checkedScalar rh) (s.checkedScalar rs) key) s.msg = s.checkedScalar rh
      then .next (finish .ok s.clearSt)
      else .next (finish .signatureInvalid s.clearSt)

end Sys2Proof.Machine
end

