-- ==== Sys2Proof/Machine/Sponge.lean ====
section
/-! DEFINITION. The commands ABSORB and SQUEEZE. The word a fault records is the command's own word, `encode` (log 16). -/

namespace Sys2Proof.Machine

/-- The parameters ABSORB refuses (R136). -/
def absorbBadParam (cap : Nat) (ds : Byte) : Bool := cap % 8 ≠ 0 || 1592 < cap || ds.toNat < 0x01 || 0x7F < ds.toNat

/-- The parameters SQUEEZE refuses (R137). -/
def squeezeBadParam (rate : Nat) : Bool := rate % 8 ≠ 0 || rate < 8 || 1600 < rate

/-- ABSORB cap, ds (R136). -/
def execAbsorb (cap : Nat) (ds : Byte) (s : State) : Answer :=
  if absorbBadParam cap ds then .next (raiseFault .badParam (encode (.absorb cap ds)) s)
  else if s.messageTooLong then .next (raiseFault .lenRange (encode (.absorb cap ds)) s)
  else .next (finish .ok { s with st := absorb s.msg cap ds })

/-- SQUEEZE rate (R137). -/
def execSqueeze (rate : Nat) (s : State) : Answer :=
  if squeezeBadParam rate then .next (raiseFault .badParam (encode (.squeeze rate)) s)
  else if s.outputTooLong then .next (raiseFault .lenRange (encode (.squeeze rate)) s)
  else
    let (out, a) := squeeze s.st s.obits.toNat rate
    .next (finish .ok { s.writeOutput out with st := a })

end Sys2Proof.Machine
end

