-- ==== Sys2Proof/Machine/Xof.lean ====
section
/-! DEFINITION. The commands HASH, KDF and MAC. -/

namespace Sys2Proof.Machine

/-- `xof_cmd(ds, L)` (R151). -/
def xofCommand (ds : Byte) (bits : Nat) (s : State) : State :=
  finish .ok (s.writeOutput (sponge s.msg s.cfg.capXof ds bits)).clearSt

/-- HASH (R152). -/
def execHash (s : State) : Answer :=
  if s.messageTooLong then .next (raiseFault .lenRange (encode .hash) s)
  else .next (xofCommand s.cfg.dsHash s.cfg.hashBits s)

/-- KDF (R153). -/
def execKdf (s : State) : Answer :=
  if s.messageTooLong then .next (raiseFault .lenRange (encode .kdf) s)
  else if s.outputTooLong then .next (raiseFault .lenRange (encode .kdf) s)
  else .next (xofCommand s.cfg.dsKdf s.obits.toNat s)

/-- MAC (R154). -/
def execMac (s : State) : Answer :=
  if s.messageTooLong then .next (raiseFault .lenRange (encode .mac) s)
  else .next (xofCommand s.cfg.dsMac s.cfg.tagBits s)

end Sys2Proof.Machine
end

