-- ==== Sys2Proof/Machine/Dispatch.lean ====
section
/-! DEFINITION. The meaning of every command: what its rule does once its word is decoded and FAULT is 0 (R54, R86). -/

namespace Sys2Proof.Machine

def exec (i : Instr) (s : State) : Host.Outcome State Fault Refusal :=
  match i with
  | .keccakF => Sys2Proof.Machine.execKeccakF s
  | .absorb cap ds => Sys2Proof.Machine.execAbsorb cap ds s
  | .squeeze rate => Sys2Proof.Machine.execSqueeze rate s
  | .hash => Sys2Proof.Machine.execHash s
  | .kdf => Sys2Proof.Machine.execKdf s
  | .mac => Sys2Proof.Machine.execMac s
  | .fmul rd ra rb => Sys2Proof.Machine.execFmul rd ra rb s
  | .finv rd ra => Sys2Proof.Machine.execFinv rd ra s
  | .padd pd pa pb => Sys2Proof.Machine.execPadd pd pa pb s
  | .pdbl pd pa => Sys2Proof.Machine.execPdbl pd pa s
  | .pmul pd rk pa => Sys2Proof.Machine.execPmul pd rk pa s
  | .sign rh rs rd => Sys2Proof.Machine.execSign rh rs rd s
  | .signX rh rs rd rk => Sys2Proof.Machine.execSignX rh rs rd rk s
  | .verify rh rs pv => Sys2Proof.Machine.execVerify rh rs pv s

end Sys2Proof.Machine
end

