-- ==== Sys2Proof/Machine/Transact.lean ====
section
/-! DEFINITION. The host's four transactions (R50) and the fetch of the next one (R24). -/

namespace Sys2Proof.Machine

/-- `Issue(w)` (R54): ignored while FAULT is not 0 (R275); else decoded (R86), an illegal word raising ILLEGAL_CMD
(R85). -/
def issueWord (w : Word) (s : State) : Answer :=
  if s.fault ≠ 0 then .next s
  else
    match decode w with
    | .ok i => exec i s
    | .error _ => .next (raiseFault .illegalCmd w s)

/-- The transaction is over: `pc <- pc + 1` (R24). -/
def State.advance (s : State) : State := { s with pc := s.pc + 1 }

/-- The answer with the transaction over. -/
def endTransaction : Answer → Answer
  | .next s => .next s.advance
  | .fault f => .fault f
  | .refused r => .refused r

/-- The state in which a transaction starts: nothing is returned yet (R50; log 4). -/
def State.begin (s : State) : State := { s with returned := none }

/-- One transaction, from the state it starts in to the state it ends in (R50). -/
def transact (t : Transaction) (s : State) : Answer :=
  match t with
  | .reset => .next (resetBlock s.begin).advance
  | .read8 a => .next (readByte a s.begin).advance
  | .write8 a v => .next (writeByte a v s.begin).advance
  | .issue w => endTransaction (issueWord w s.begin)

/-- The host's next transaction, none at the end of the run (R24). -/
def State.nextTransaction (s : State) : Option Transaction := s.txns[s.pc]?

/-- `s` with `t` as its next transaction. Where the list is too short for the index, it is first filled with Resets. -/
def State.withNext (s : State) (t : Transaction) : State :=
  { s with txns := (s.txns ++ List.replicate (s.pc + 1 - s.txns.length) Transaction.reset).set s.pc t }

end Sys2Proof.Machine
end

