-- ==== Sys2Proof/Machine/Step.lean ====
section
/-! DEFINITION. One step: one host transaction (R24, R50). -/

namespace Sys2Proof.Machine

/-- The next transaction of the host's list, whatever its outcome followed by `pc <- pc + 1`; at the end of the list
the run is over (R24; log 6). -/
def step (s : State) : Host.Outcome State Fault Refusal :=
  match s.nextTransaction with
  | none => .fault .endOfRun
  | some t => transact t s

/-- `s` with the word `w` (its low `nbits` bits) as the host's next Issue (log 2). -/
def State.withFetchWord (s : State) (nbits w : Nat) : State :=
  s.withNext (.issue (BitVec.ofNat 32 (w % 2 ^ nbits)))

end Sys2Proof.Machine
end

