-- ==== Sys2Proof/Machine/HostProtocols.lean ====
section
/-! DEFINITION. Host software over the block (R88, R89, R250 to R261). It adds no state and no command to the block
(R250): its statements are lists of transactions, its protocols functions of byte strings. Log 12. -/

namespace Sys2Proof.Machine

/-! ### The host's statements (R89) -/

/-- `WRB a, b0 b1 ...`: ascending `Write8`s (R89). DESIGN CHOICE: R89 does not say what follows 0xFFFF, the last address of
R55; the next write is then to 0x0000 (log 19). -/
def hostWriteBytes : Addr → List Byte → List Transaction
  | _, [] => []
  | a, b :: bs => .write8 a b :: hostWriteBytes (a + 1) bs

/-- `RDB a, n`: ascending `Read8`s (R89). DESIGN CHOICE: past 0xFFFF the next read is of 0x0000, as in `hostWriteBytes`
(log 19). -/
def hostReadBytes : Addr → Nat → List Transaction
  | _, 0 => []
  | a, n + 1 => .read8 a :: hostReadBytes (a + 1) n

/-- `WR32 a, v`, with `v < 2^32` (R89; log 17 beyond). -/
def hostWrite32 (a : Addr) (v : Nat) : List Transaction := hostWriteBytes a (leBytes 4 v)

/-- The address of byte 0 of `R[i]` (R55). -/
def regAddress (i : Reg) : Addr := BitVec.ofNat 16 (0x0400 + 0x80 * i.val)

/-- `WRR Ri, v`: 66 writes, with `v < 2^528` (R89; log 17 beyond). -/
def hostWriteReg (i : Reg) (v : Nat) : List Transaction := hostWriteBytes (regAddress i) (enc v)

/-- `WRP Pj, (x, y)` (R89). -/
def hostWritePoint (j : PointReg) (a : Point) : List Transaction :=
  hostWriteReg (pointX j) a.x ++ hostWriteReg (pointY j) a.y

/-- `WRMSG b0 ... bk`: loads `IBUF` and `ILEN` (R89). -/
def hostWriteMessage (msg : List Byte) : List Transaction :=
  hostWriteBytes 0x4000 msg ++ hostWrite32 0x000C msg.length

/-- A command statement: the `Issue` of its word (R88). -/
def hostIssue (i : Instr) : Transaction := .issue (encode i)

/-- The host issues transactions one after another and keeps the bytes they return, in order. -/
def hostRun : List Transaction → State → State × List Byte
  | [], s => (s, [])
  | t :: ts, s =>
    match transact t s with
    | .next s' =>
      let (s'', out) := hostRun ts s'
      (s'', s'.returned.toList ++ out)
    | _ => (s, [])

/-- `RD32 a`, with the number it reads (R89). -/
def hostRead32 (a : Addr) (s : State) : State × Nat :=
  let (s', bytes) := hostRun (hostReadBytes a 4) s
  (s', leValue bytes)

/-- `RDR Ri`, 66 reads, with the number they read (R89). -/
def hostReadReg (i : Reg) (s : State) : State × Nat :=
  let (s', bytes) := hostRun (hostReadBytes (regAddress i) 66) s
  (s', leValue bytes)

/-- `RDOUT`: reads `OLEN`, then `OBUF[0:OLEN]` (R89). -/
def hostReadOutput (s : State) : State × List Byte :=
  let (s', olen) := hostRead32 0x0014 s
  hostRun (hostReadBytes 0x8000 olen) s'

/-! ### Host entities (R251) and parameters (R252) -/

/-- A key pair (R251). The owner label and the creation timestamp are opaque to every computation; that they are a string
and a number is the model's choice (log 12). -/
structure KeyPair where
  /-- The owner label. -/
  owner : String
  /-- The private scalar. -/
  scalar : Nat
  /-- The public point. -/
  point : Point
  /-- The creation timestamp. -/
  created : Nat
  deriving DecidableEq, Repr

/-- R251's invariant of a key pair: 0 < s < r and V = s·G. -/
def KeyPair.Valid (cfg : Config) (kp : KeyPair) : Prop :=
  0 < kp.scalar ∧ kp.scalar < cfg.r ∧ kp.point = ptMul cfg kp.scalar (generator cfg)

/-- The result of `encrypt_with_pw` (R251). -/
structure SymmetricCryptogram where
  /-- The nonce. -/
  z : List Byte
  /-- The ciphertext. -/
  c : List Byte
  /-- The tag. -/
  t : List Byte
  deriving DecidableEq, Repr

/-- The result of `encrypt_with_key` (R251). -/
structure ECCryptogram where
  /-- The ephemeral public point. -/
  z : Point
  /-- The ciphertext. -/
  c : List Byte
  /-- The tag. -/
  t : List Byte
  deriving DecidableEq, Repr

/-- The parameters of the host procedures (R252), in which the model is generic (93 U25). They are no part of State. -/
structure HostParams where
  /-- The context string "key". -/
  ctxKey : List Byte
  /-- The context string "sym". -/
  ctxSym : List Byte
  /-- The context string "stream". -/
  ctxStream : List Byte
  /-- The context string "tag". -/
  ctxTag : List Byte
  /-- `Z_BYTES`, the length of the nonce z. -/
  zBytes : Nat
  /-- `KE_BYTES`. -/
  keBytes : Nat
  /-- `KA_BYTES`. -/
  kaBytes : Nat
  /-- The bytes of the key-generation KDF output. -/
  keygenBytes : Nat
  /-- The serialization of `W.x`. -/
  serialize : Nat → List Byte
  /-- The number of attempts at a nonzero key. -/
  attempts : Nat
  /-- The key material of attempt `j` with a password. -/
  material : Nat → List Byte → List Byte

/-- The values R252 suggests. -/
def HostParams.suggested : HostParams where
  ctxKey := [0x6B, 0x65, 0x79]
  ctxSym := [0x73, 0x79, 0x6D]
  ctxStream := [0x73, 0x74, 0x72, 0x65, 0x61, 0x6D]
  ctxTag := [0x74, 0x61, 0x67]
  zBytes := 64
  keBytes := 64
  kaBytes := 64
  keygenBytes := 128
  serialize := enc
  attempts := 256
  material := fun j password => if j = 0 then password else password ++ [BitVec.ofNat 8 j]

/-! ### Shared pieces (R253 to R255) -/

/-- The value of `KDFh(key_material, context, nbytes)` (R253). DESIGN CHOICE: beyond R253's limits, where the block cannot
process the strings, it is still the value of R150's KDF (log 20). -/
def kdfBytes (cfg : Config) (keyMaterial context : List Byte) (nbytes : Nat) : List Byte :=
  kdfFn cfg keyMaterial context (8 * nbytes)

/-- `KDFh` as the host performs it on the block (R253). -/
def hostKdf (keyMaterial context : List Byte) (nbytes : Nat) (s : State) : State × List Byte :=
  hostReadOutput
    (hostRun (hostWriteMessage (context ++ keyMaterial) ++ hostWrite32 0x0010 (8 * nbytes) ++ [hostIssue .kdf]) s).1

/-- `MACh` as the host performs it on the block (R253). -/
def hostMac (key message context : List Byte) (s : State) : State × List Byte :=
  hostReadOutput (hostRun (hostWriteMessage (context ++ key ++ message) ++ [hostIssue .mac]) s).1

/-- The host's comparison of tags: equal lengths and equal values (R254). -/
def tagsEqual (a b : List Byte) : Bool := a == b

/-- The keys `(ke, ka)` of a secret (R255). -/
def sealKeys (hp : HostParams) (cfg : Config) (secret : List Byte) : List Byte × List Byte :=
  let kk := kdfBytes cfg secret hp.ctxSym (hp.keBytes + hp.kaBytes)
  (kk.take hp.keBytes, (kk.drop hp.keBytes).take hp.kaBytes)

/-- `seal(S, message)`: the ciphertext and its tag (R255). DESIGN CHOICE: of strings beyond R253's limits, which the block
cannot process, R255 does not say what a host returns; the functions KDF and MAC of R150 are used without limit (log 20). -/
def sealMessage (hp : HostParams) (cfg : Config) (secret message : List Byte) : List Byte × List Byte :=
  let (ke, ka) := sealKeys hp cfg secret
  let c := xorBytes message (kdfBytes cfg ke hp.ctxStream message.length)
  (c, macFn cfg ka c hp.ctxTag)

/-- `open(S, c, t)` (R255): no plaintext is released on a mismatch (R254). DESIGN CHOICE beyond R253's limits, as in
`sealMessage` (log 20). -/
def openMessage (hp : HostParams) (cfg : Config) (secret c t : List Byte) : List Byte × Bool :=
  let (ke, ka) := sealKeys hp cfg secret
  let message := xorBytes c (kdfBytes cfg ke hp.ctxStream c.length)
  if tagsEqual (macFn cfg ka c hp.ctxTag) t then (message, true) else ([], false)

/-! ### The protocols (R256 to R261) -/

/-- One attempt at the private scalar of a password (R256). -/
def keygenAttempt (hp : HostParams) (cfg : Config) (password : List Byte) (j : Nat) : Nat :=
  leValue (kdfBytes cfg (hp.material j password) hp.ctxKey hp.keygenBytes) % cfg.r

/-- The private scalar of a password, the first nonzero attempt (R252, R256). DESIGN CHOICE: R256's loop says nothing of
the case that every attempt is 0, which R251 excludes from a key pair; the model then answers none (log 18). -/
def keygenScalar (hp : HostParams) (cfg : Config) (password : List Byte) : Option Nat :=
  (List.range hp.attempts).findSome? fun j =>
    let k := keygenAttempt hp cfg password j
    if k = 0 then none else some k

/-- `gen_keypair(password, owner)` at the time `now` (R256); none where no scalar is found (log 18). -/
def genKeypair (hp : HostParams) (cfg : Config) (now : Nat) (password : List Byte) (owner : String) : Option KeyPair :=
  (keygenScalar hp cfg password).map fun k => ⟨owner, k, ptMul cfg k (generator cfg), now⟩

/-- Why a host call returns nothing. -/
inductive HostFailure where
  /-- The call fails with one of the kinds that RESULT's codes number (R26, R259, R260). -/
  | kind (code : ResultCode)
  /-- Every random number supplied was 0 modulo r: the call has not failed, the host draws again (R259; log 12). -/
  | drawAgain
  deriving DecidableEq, Repr

/-- `get_e521_point(x, y)`, the validated constructor (R261). -/
def getE521Point (cfg : Config) (x y : Nat) : Except HostFailure Point :=
  let a : Point := ⟨x % cfg.p, y % cfg.p⟩
  if onCurve cfg a then .ok a else .error (.kind .malformedPoint)

/-- `encrypt_with_pw(password, message)`, with the `Z_BYTES` random bytes `z` as an argument (R257). -/
def encryptWithPw (hp : HostParams) (cfg : Config) (z : Vector Byte hp.zBytes) (password message : List Byte) :
    SymmetricCryptogram :=
  let (c, t) := sealMessage hp cfg (z.toList ++ password) message
  ⟨z.toList, c, t⟩

/-- `decrypt_with_pw(password, cryptogram)` (R258). -/
def decryptWithPw (hp : HostParams) (cfg : Config) (password : List Byte) (g : SymmetricCryptogram) :
    List Byte × Bool :=
  openMessage hp cfg (g.z ++ password) g.c g.t

/-- The ephemeral scalar: random numbers are drawn one after another, each reduced modulo r, until one is not 0 (R259). -/
def ephemeralScalar (cfg : Config) : List Nat → Except HostFailure Nat
  | [] => .error .drawAgain
  | draw :: rest => if draw % cfg.r = 0 then ephemeralScalar cfg rest else .ok (draw % cfg.r)

/-- `encrypt_with_key(pubKey, message)`, with the random numbers the host draws as an argument; it fails with
MALFORMED_POINT where the public key is not on the curve (R259). -/
def encryptWithKey (hp : HostParams) (cfg : Config) (draws : List Nat) (pubKey : Point) (message : List Byte) :
    Except HostFailure ECCryptogram :=
  match ephemeralScalar cfg draws with
  | .error e => .error e
  | .ok k =>
    (getE521Point cfg pubKey.x pubKey.y).map fun v =>
      let (c, t) := sealMessage hp cfg (hp.serialize (ptMul cfg k v).x) message
      ⟨ptMul cfg k (generator cfg), c, t⟩

/-- `decrypt_with_key(privKey, cryptogram)`; it fails with MALFORMED_POINT where the cryptogram's point is not on the curve
(R260). -/
def decryptWithKey (hp : HostParams) (cfg : Config) (privKey : Nat) (g : ECCryptogram) :
    Except HostFailure (List Byte × Bool) :=
  (getE521Point cfg g.z.x g.z.y).map fun z => openMessage hp cfg (hp.serialize (ptMul cfg privKey z).x) g.c g.t

end Sys2Proof.Machine
end

