-- ==== Sys2Proof/Safety.lean ====
section
/-! DEFINITION. The words the statements use: admissible configurations (R6), the group facts of the generator (R202), and
the invariant every step keeps. -/

namespace Sys2Proof

/-- The fields of which R6 admits one value each. -/
abbrev Config.FixedConstants (cfg : Config) : Prop :=
  cfg.p = Config.e521P ∧ cfg.d = Config.e521D ∧ cfg.r = Config.e521R ∧ cfg.n = 4 * Config.e521R

/-- R6's conditions on sizes, lengths and suffix bytes. -/
abbrev Config.SizesOk (cfg : Config) : Prop :=
  cfg.capXof % 8 = 0 ∧ cfg.capXof ≤ 1592
    ∧ (0x01 ≤ cfg.dsHash.toNat ∧ cfg.dsHash.toNat ≤ 0x7F)
    ∧ (0x01 ≤ cfg.dsKdf.toNat ∧ cfg.dsKdf.toNat ≤ 0x7F)
    ∧ (0x01 ≤ cfg.dsMac.toNat ∧ cfg.dsMac.toNat ≤ 0x7F)
    ∧ cfg.dsHash ≠ cfg.dsKdf ∧ cfg.dsHash ≠ cfg.dsMac ∧ cfg.dsKdf ≠ cfg.dsMac
    ∧ 1 ≤ cfg.hashBits ∧ 1 ≤ cfg.tagBits ∧ 1 ≤ cfg.nonceBits
    ∧ Machine.ceil8 cfg.hashBits ≤ cfg.obufSize ∧ Machine.ceil8 cfg.tagBits ≤ cfg.obufSize
    ∧ (1 ≤ cfg.ibufSize ∧ cfg.ibufSize ≤ 16384) ∧ (1 ≤ cfg.obufSize ∧ cfg.obufSize ≤ 16384)

/-- R192's conditions on the generator: field elements, on the curve, not the identity, and of order r. -/
abbrev Config.GeneratorOk (cfg : Config) : Prop :=
  cfg.gx < cfg.p ∧ cfg.gy < cfg.p
    ∧ Machine.onCurve cfg (Machine.generator cfg) = true
    ∧ Machine.generator cfg ≠ Machine.Point.identity
    ∧ Machine.ptMulUnreduced cfg cfg.r (Machine.generator cfg) = Machine.Point.identity

/-- An admissible configuration (R6). -/
abbrev Config.Admissible (cfg : Config) : Prop := cfg.FixedConstants ∧ cfg.SizesOk ∧ cfg.GeneratorOk

namespace Machine

/-- A pair of field elements on the curve (R190). -/
abbrev Point.Valid (cfg : Config) (a : Point) : Prop := a.x < cfg.p ∧ a.y < cfg.p ∧ onCurve cfg a = true

/-- What R229 takes from the group law (R202): the multiples of G are valid points, they add by adding scalars, and a
multiple of a multiple multiplies them. -/
def GeneratorLaw (cfg : Config) : Prop :=
  (∀ a, (ptMul cfg a (generator cfg)).Valid cfg)
    ∧ (∀ a b, ptAdd cfg (ptMul cfg a (generator cfg)) (ptMul cfg b (generator cfg)) = ptMul cfg (a + b) (generator cfg))
    ∧ ∀ a b, ptMul cfg a (ptMul cfg b (generator cfg)) = ptMul cfg (a * b) (generator cfg)

/-- What holds at reset and every step keeps: the buffers are in canonical form and inside their sizes; RESULT and FAULT
hold codes that R26 and R27 name; FAULT_INFO is 0 without a fault, an address under BUS_ERROR, an illegal word under
ILLEGAL_CMD and a command's word under BAD_PARAM and LEN_RANGE (R28, R272); OLEN is within OBUF (R31); the configuration
has R6's sizes; the index is within the list (R24). -/
abbrev State.Inv (s : State) : Prop :=
  s.ibuf.wf s.cfg.ibufSize = true ∧ s.obuf.wf s.cfg.obufSize = true
    ∧ s.cfg.SizesOk
    ∧ s.result ∈ [0, 1, 2, 4] ∧ s.fault ∈ [0, 1, 2, 3, 4]
    ∧ (s.fault = 0 → s.faultInfo = 0)
    ∧ (s.fault = 1 → (decode s.faultInfo).toOption = none)
    ∧ (s.fault = 2 ∨ s.fault = 3 → (decode s.faultInfo).toOption.isSome = true)
    ∧ (s.fault = 4 → s.faultInfo.toNat < 2 ^ 16)
    ∧ s.olen.toNat ≤ s.cfg.obufSize
    ∧ s.pc ≤ s.txns.length

/-- The next transaction is `Issue(w)`, and no fault is recorded. -/
abbrev State.Issues (s : State) (w : Word) : Prop := s.nextTransaction = some (.issue w) ∧ s.fault = 0

/-- The big registers are among what the command writes, by the table of R20. -/
def writesRegs : Instr → Bool
  | .fmul _ _ _ | .finv _ _ | .padd _ _ _ | .pdbl _ _ | .pmul _ _ _ | .sign _ _ _ | .signX _ _ _ _ => true
  | _ => false

/-- `ST` is among what the command writes, by the table of R20. -/
def writesLanes : Instr → Bool
  | .keccakF | .absorb _ _ | .squeeze _ | .hash | .kdf | .mac | .sign _ _ _ | .signX _ _ _ _ | .verify _ _ _ => true
  | _ => false

/-- `OBUF` and `OLEN` are among what the command writes, by the table of R20. -/
def writesOutput : Instr → Bool
  | .squeeze _ | .hash | .kdf | .mac => true
  | _ => false

/-- The `RESULT` codes the command can write, by the table of R273. -/
def resultCodes : Instr → List Word
  | .finv _ _ => [0, 2]
  | .padd _ _ _ | .pdbl _ _ | .pmul _ _ _ => [0, 1]
  | .sign _ _ _ | .signX _ _ _ _ => [0, 2]
  | .verify _ _ _ => [0, 1, 2, 4]
  | _ => [0]

/-- The `FAULT` codes the command can raise once decoded, by the table of R272. -/
def faultCodes : Instr → List Word
  | .absorb _ _ | .squeeze _ => [2, 3]
  | .hash | .kdf | .mac | .sign _ _ _ | .signX _ _ _ _ | .verify _ _ _ => [3]
  | _ => []

/-- The commands that read the message and refuse a length beyond `IBUF` before anything else, by R272 and R276;
ABSORB checks its parameters first. -/
def checksMessageFirst : Instr → Bool
  | .hash | .kdf | .mac | .sign _ _ _ | .signX _ _ _ _ | .verify _ _ _ => true
  | _ => false

/-- What `FAULT_INFO` records of a transaction that faults, by the last column of R272; a Reset never faults. -/
def faultRecord : Transaction → Word
  | .issue w => w
  | .write8 a _ => a.setWidth 32
  | .read8 a => a.setWidth 32
  | .reset => 0

/-- The positions R113's generation rule visits, from (1,0) at `t = 0`. -/
def rhoWalk : Nat → Nat × Nat
  | 0 => (1, 0)
  | t + 1 =>
    let (x, y) := rhoWalk t
    (y, (2 * x + 3 * y) % 5)

/-- One turn of the shift register of R116, on the bit string `R[0..7]`. -/
def lfsrTurn : List Bool → List Bool
  | [b0, b1, b2, b3, b4, b5, b6, b7] => [b7, b0, b1, b2, b3 ^^ b7, b4 ^^ b7, b5 ^^ b7, b6]
  | other => other

/-- The shift register after `n` turns from `10000000` (R116). -/
def lfsrAfter : Nat → List Bool
  | 0 => [true, false, false, false, false, false, false, false]
  | n + 1 => lfsrTurn (lfsrAfter n)

/-- `rc(t)` of R116. -/
def roundBit (t : Nat) : Bool := (lfsrAfter (t % 255)).headD false

/-- The round constant R116's generation rule gives: bit `2^j - 1` is `rc(j + 7·ir)` for j = 0 to 6, the others 0. -/
def generatedConstant (ir : Nat) : Lane :=
  (List.range 7).foldl (fun v j => if roundBit (j + 7 * ir) then v ||| (1#64 <<< (2 ^ j - 1)) else v) 0

end Machine

end Sys2Proof
end

