-- ==== Sys2Proof/Certificates/Slice0/Obligations.lean ====
section
/-! DEFINITION. The statements for the provers. Unless a docstring says so, each says what the rules it names say. -/

open Sys2Proof Sys2Proof.Machine

/-! ### Encoding and decoding -/

/-- The example words of R88 decode to the commands R88 writes beside them. -/
def Obligations.ExampleWordsDecode : Prop :=
  decode 0x02060200 = .ok (.absorb 512 0x06) ∧ decode 0x03000440 = .ok (.squeeze 1088)
    ∧ decode 0x20201000 = .ok (.fmul 2 0 1) ∧ decode 0x21320000 = .ok (.finv 3 2)
    ∧ decode 0x30402000 = .ok (.padd 2 0 1) ∧ decode 0x31200000 = .ok (.pdbl 1 0)
    ∧ decode 0x32204000 = .ok (.pmul 1 0 2) ∧ decode 0x40230000 = .ok (.sign 2 3 0)
    ∧ decode 0x40230101 = .ok (.signX 2 3 0 1) ∧ decode 0x41234000 = .ok (.verify 2 3 2)

/-- R84: rows are disjoint, no word satisfies two rows. -/
def Obligations.TableRowsAreDisjoint : Prop :=
  ∀ (w : Word), ∀ row₁ ∈ opcodeTable, ∀ row₂ ∈ opcodeTable, row₁.accepts w → row₂.accepts w → row₁ = row₂

/-- R86, R88: every well-formed command is what its word decodes to. -/
def Obligations.DecodeEncodeRoundTrip : Prop :=
  ∀ i : Instr, i.wellFormed = true → decode (encode i) = .ok i

/-- R84, R86: a word that decodes is the word of the command it decodes to, so that no bit of it is dropped, and that
command is well-formed. -/
def Obligations.EncodeDecodeRoundTrip : Prop :=
  ∀ (w : Word) (i : Instr), decode w = .ok i → encode i = w ∧ i.wellFormed = true

/-- R88: the word of each statement, as the sum R88 gives. -/
def Obligations.EncodeMatchesAssemblerSums : Prop :=
  (encode .keccakF).toNat = 0x01000000 ∧ (encode .hash).toNat = 0x10000000
    ∧ (encode .kdf).toNat = 0x11000000 ∧ (encode .mac).toNat = 0x12000000
    ∧ (∀ (cap : Nat) (ds : Byte), cap < 2 ^ 11 →
        (encode (.absorb cap ds)).toNat = 0x02000000 + ds.toNat * 2 ^ 16 + cap)
    ∧ (∀ rate : Nat, rate < 2 ^ 11 → (encode (.squeeze rate)).toNat = 0x03000000 + rate)
    ∧ (∀ d a b : Reg, (encode (.fmul d a b)).toNat = 0x20000000 + d.val * 2 ^ 20 + a.val * 2 ^ 16 + b.val * 2 ^ 12)
    ∧ (∀ d a : Reg, (encode (.finv d a)).toNat = 0x21000000 + d.val * 2 ^ 20 + a.val * 2 ^ 16)
    ∧ (∀ d a b : PointReg,
        (encode (.padd d a b)).toNat = 0x30000000 + 2 * d.val * 2 ^ 20 + 2 * a.val * 2 ^ 16 + 2 * b.val * 2 ^ 12)
    ∧ (∀ d a : PointReg, (encode (.pdbl d a)).toNat = 0x31000000 + 2 * d.val * 2 ^ 20 + 2 * a.val * 2 ^ 16)
    ∧ (∀ (d : PointReg) (k : Reg) (a : PointReg),
        (encode (.pmul d k a)).toNat = 0x32000000 + 2 * d.val * 2 ^ 20 + k.val * 2 ^ 16 + 2 * a.val * 2 ^ 12)
    ∧ (∀ h s d : Reg, (encode (.sign h s d)).toNat = 0x40000000 + h.val * 2 ^ 20 + s.val * 2 ^ 16 + d.val * 2 ^ 12)
    ∧ (∀ h s d k : Reg,
        (encode (.signX h s d k)).toNat
          = 0x40000001 + h.val * 2 ^ 20 + s.val * 2 ^ 16 + d.val * 2 ^ 12 + k.val * 2 ^ 8)
    ∧ (∀ (h s : Reg) (v : PointReg),
        (encode (.verify h s v)).toNat = 0x41000000 + h.val * 2 ^ 20 + s.val * 2 ^ 16 + 2 * v.val * 2 ^ 12)

/-! ### Transactions, reset and faults -/

/-- R24, R270: while the list has a transaction left, a step answers a next state, one further in the same list; at its
end the run is over. That the end is answered as a fault of that name is the model's choice (log 6). -/
def Obligations.EveryTransactionCompletes : Prop :=
  ∀ s : State,
    (s.pc < s.txns.length →
      ∃ t, step s = .next t ∧ t.pc = s.pc + 1 ∧ t.txns = s.txns ∧ t.cfg = s.cfg)
    ∧ (s.txns.length ≤ s.pc → step s = .fault .endOfRun)

/-- R54, R86, R24: with no fault recorded, a step whose transaction is `Issue(w)` runs the command `w` decodes to, from
the state with nothing returned, and moves on in the list. That `returned` is cleared is the model's choice (log 4). -/
def Obligations.StepRunsDecodedCommand : Prop :=
  ∀ (s : State) (w : Word) (i : Instr), s.Issues w → decode w = .ok i →
    ∃ t, exec i { s with returned := none } = .next t ∧ step s = .next { t with pc := s.pc + 1 }

/-- R85, R272: a word that matches no row raises ILLEGAL_CMD with the word, and changes nothing else. That `returned` is
cleared is the model's choice (log 4). -/
def Obligations.IllegalWordRaisesIllegalCmd : Prop :=
  ∀ (s : State) (w : Word), s.Issues w → (∀ row ∈ opcodeTable, w &&& row.mask ≠ row.pattern) →
    step s = .next { s with fault := 1, faultInfo := w, pc := s.pc + 1, returned := none }

/-- R39, R300: Reset gives every piece of architectural state its reset value, whatever it was, FAULT included, and
leaves `PARAM`, the configuration and the list. -/
def Obligations.ResetClearsArchitecturalState : Prop :=
  ∀ s : State, s.nextTransaction = some .reset →
    ∃ t, step s = .next t
      ∧ (∀ i : Reg, t.reg i = 0) ∧ (∀ x y, t.st.lane x y = 0)
      ∧ (∀ j, t.ibuf.read j = 0) ∧ (∀ j, t.obuf.read j = 0)
      ∧ t.ilen = 0 ∧ t.obits = 0 ∧ t.olen = 0 ∧ t.result = 0 ∧ t.fault = 0 ∧ t.faultInfo = 0
      ∧ (∀ k, paramValue t.cfg k = paramValue s.cfg k) ∧ t.cfg = s.cfg
      ∧ t.txns = s.txns ∧ t.pc = s.pc + 1

/-- R275: while FAULT is not 0, an Issue and a Write8 change no state whatever their arguments, a Read8 returns the byte
R52 gives and changes none either; the index still advances. What the field `returned` holds after an Issue or a Write8 is
left open. -/
def Obligations.FaultedBlockIgnoresWork : Prop :=
  ∀ s : State, s.fault ≠ 0 →
    (∀ w, s.nextTransaction = some (.issue w) →
        ∃ t, step s = .next t ∧ t = { s with pc := s.pc + 1, returned := t.returned })
    ∧ (∀ a v, s.nextTransaction = some (.write8 a v) →
        ∃ t, step s = .next t ∧ t = { s with pc := s.pc + 1, returned := t.returned })
    ∧ ∀ a, s.nextTransaction = some (.read8 a) →
        step s = .next { s with pc := s.pc + 1, returned := some ((s.peek a).getD 0x00) }

/-- R274: raising a fault writes FAULT and FAULT_INFO if no fault is recorded, with the codes 1 to 4, and nothing else; it
changes nothing if one is. -/
def Obligations.RaiseFaultKeepsTheFirst : Prop :=
  (∀ (code : FaultCode) (info : Word) (s : State), s.fault = 0 →
      raiseFault code info s = { s with fault := code.number, faultInfo := info })
    ∧ (∀ (code : FaultCode) (info : Word) (s : State), s.fault ≠ 0 → raiseFault code info s = s)
    ∧ FaultCode.number .illegalCmd = 1 ∧ FaultCode.number .badParam = 2
    ∧ FaultCode.number .lenRange = 3 ∧ FaultCode.number .busError = 4

/-- R272, R274, R277: a transaction that raises a fault writes FAULT, FAULT_INFO and nothing else of the block, and what
it records is its own word or address. -/
def Obligations.FaultingTransactionChangesNothingElse : Prop :=
  ∀ (s t : State) (x : Transaction), s.nextTransaction = some x → step s = .next t → s.fault = 0 → t.fault ≠ 0 →
    t.faultInfo = faultRecord x
      ∧ t = { s with fault := t.fault, faultInfo := t.faultInfo, pc := s.pc + 1, returned := t.returned }

/-- R20: the table's column "written by", for the commands. Whatever a command's outcome, it writes the big registers,
`ST`, `OBUF` and `OLEN` only where the table lists it, and `IBUF`, `ILEN`, `OBITS` and `PARAM` never. -/
def Obligations.CommandsWriteOnlyTheirState : Prop :=
  ∀ (i : Instr) (s t : State), exec i s = .next t →
    (writesRegs i = false → t.regs = s.regs) ∧ (writesLanes i = false → t.st = s.st)
      ∧ (writesOutput i = false → t.obuf = s.obuf ∧ t.olen = s.olen)
      ∧ t.ibuf = s.ibuf ∧ t.ilen = s.ilen ∧ t.obits = s.obits ∧ (∀ k, paramValue t.cfg k = paramValue s.cfg k)
      ∧ t.cfg = s.cfg ∧ t.txns = s.txns ∧ t.pc = s.pc ∧ t.returned = s.returned

/-- R270, R272, R273: a command issued with no fault recorded either completes, with an outcome code that R273's table
lists for it and no fault, or is refused with a fault that R272's table lists for it, RESULT unchanged. -/
def Obligations.CommandsEndInAListedOutcome : Prop :=
  ∀ (i : Instr) (s : State), s.fault = 0 →
    ∃ t, exec i s = .next t
      ∧ ((t.fault = 0 ∧ t.faultInfo = s.faultInfo ∧ t.result ∈ resultCodes i)
          ∨ (t.fault ∈ faultCodes i ∧ t.faultInfo = encode i ∧ t.result = s.result))

/-- `State.Inv` holds at reset. Its clause that the index is within the list, and the values of the model's own fields, are
the model's choice (logs 1, 2). -/
def Obligations.ResetHasTheInvariant : Prop := State.reset.Inv

/-- Every step keeps `State.Inv`. -/
def Obligations.StepKeepsTheInvariant : Prop :=
  ∀ s t : State, s.Inv → step s = .next t → t.Inv

/-! ### The bus -/

/-- R52: `Read8` of a mapped address returns its byte and changes no state; of an unmapped one returns 0x00 and raises
BUS_ERROR with the address if no fault is recorded. It works the same whether or not one is. -/
def Obligations.Read8ReturnsTheByte : Prop :=
  ∀ (s : State) (a : Addr), s.nextTransaction = some (.read8 a) →
    (∀ b, s.peek a = some b → step s = .next { s with pc := s.pc + 1, returned := some b })
    ∧ (s.peek a = none → s.fault = 0 →
        step s = .next { s with fault := 4, faultInfo := a.setWidth 32, pc := s.pc + 1, returned := some 0x00 })
    ∧ (s.peek a = none → s.fault ≠ 0 → step s = .next { s with pc := s.pc + 1, returned := some 0x00 })

/-- R53, with the access column of R55 by address: `Write8` does nothing while FAULT is not 0. Else, at an address of ILEN,
OBITS, ST, a register or IBUF, it replaces that byte and no other mapped byte; at every other address (RESULT, FAULT,
FAULT_INFO, OLEN, PARAM, OBUF, and the unmapped ones) it raises BUS_ERROR with the address and writes nothing. -/
def Obligations.Write8ReplacesOneByte : Prop :=
  ∀ (s : State) (a : Addr) (v : Byte), s.nextTransaction = some (.write8 a v) →
    (s.fault ≠ 0 → ∃ t, step s = .next t ∧ t = { s with pc := s.pc + 1, returned := t.returned })
    ∧ (s.fault = 0 →
        (0x000C ≤ a.toNat ∧ a.toNat < 0x0014 ∨ 0x0100 ≤ a.toNat ∧ a.toNat < 0x01C8
          ∨ 0x0400 ≤ a.toNat ∧ a.toNat < 0x0C00 ∧ a.toNat % 0x80 < 66
          ∨ 0x4000 ≤ a.toNat ∧ a.toNat < 0x8000 ∧ a.toNat < 0x4000 + s.cfg.ibufSize) →
        ∃ t, step s = .next t ∧ t.peek a = some v ∧ (∀ b, b ≠ a → t.peek b = s.peek b)
          ∧ t.cfg = s.cfg ∧ t.txns = s.txns ∧ t.pc = s.pc + 1)
    ∧ (s.fault = 0 →
        (a.toNat < 0x000C ∨ 0x0014 ≤ a.toNat ∧ a.toNat < 0x0100 ∨ 0x01C8 ≤ a.toNat ∧ a.toNat < 0x0400
          ∨ 0x0400 ≤ a.toNat ∧ a.toNat < 0x0C00 ∧ 66 ≤ a.toNat % 0x80
          ∨ 0x0C00 ≤ a.toNat ∧ a.toNat < 0x4000 ∨ 0x4000 + s.cfg.ibufSize ≤ a.toNat ∨ 0x8000 ≤ a.toNat) →
        ∃ t, step s = .next t
          ∧ t = { s with fault := 4, faultInfo := a.setWidth 32, pc := s.pc + 1, returned := t.returned })

/-- R33, R36, R55 to R58: what every address of the map reads as, byte by byte, little-endian, and that the rest of the
16-bit space is unmapped. -/
def Obligations.AddressMapReadsLittleEndian : Prop :=
  ∀ s : State, s.cfg.SizesOk →
    (∀ j, j < 4 →
        s.peek (BitVec.ofNat 16 (0x0000 + j)) = some (BitVec.ofNat 8 (s.result.toNat / 256 ^ j))
        ∧ s.peek (BitVec.ofNat 16 (0x0004 + j)) = some (BitVec.ofNat 8 (s.fault.toNat / 256 ^ j))
        ∧ s.peek (BitVec.ofNat 16 (0x0008 + j)) = some (BitVec.ofNat 8 (s.faultInfo.toNat / 256 ^ j))
        ∧ s.peek (BitVec.ofNat 16 (0x000C + j)) = some (BitVec.ofNat 8 (s.ilen.toNat / 256 ^ j))
        ∧ s.peek (BitVec.ofNat 16 (0x0010 + j)) = some (BitVec.ofNat 8 (s.obits.toNat / 256 ^ j))
        ∧ s.peek (BitVec.ofNat 16 (0x0014 + j)) = some (BitVec.ofNat 8 (s.olen.toNat / 256 ^ j)))
    ∧ (∀ x y k, x < 5 → y < 5 → k < 8 →
        s.peek (BitVec.ofNat 16 (0x0100 + (8 * (x + 5 * y) + k)))
          = some (BitVec.ofNat 8 ((s.st.lane x y).toNat / 256 ^ k)))
    ∧ (∀ (i : Reg) (j : Nat), j < 66 →
        s.peek (BitVec.ofNat 16 (0x0400 + 0x80 * i.val + j)) = some (BitVec.ofNat 8 (s.reg i / 256 ^ j)))
    ∧ (∀ j, j < 66 →
        s.peek (BitVec.ofNat 16 (0x0C00 + j)) = some (BitVec.ofNat 8 (s.cfg.p / 256 ^ j))
        ∧ s.peek (BitVec.ofNat 16 (0x0C80 + j)) = some (BitVec.ofNat 8 (s.cfg.d / 256 ^ j))
        ∧ s.peek (BitVec.ofNat 16 (0x0D00 + j)) = some (BitVec.ofNat 8 (s.cfg.r / 256 ^ j))
        ∧ s.peek (BitVec.ofNat 16 (0x0D80 + j)) = some (BitVec.ofNat 8 (s.cfg.n / 256 ^ j))
        ∧ s.peek (BitVec.ofNat 16 (0x0E00 + j)) = some (BitVec.ofNat 8 (s.cfg.gx / 256 ^ j))
        ∧ s.peek (BitVec.ofNat 16 (0x0E80 + j)) = some (BitVec.ofNat 8 (s.cfg.gy / 256 ^ j)))
    ∧ (∀ j, j < s.cfg.ibufSize → s.peek (BitVec.ofNat 16 (0x4000 + j)) = some (s.ibuf.read j))
    ∧ (∀ j, j < s.cfg.obufSize → s.peek (BitVec.ofNat 16 (0x8000 + j)) = some (s.obuf.read j))
    ∧ ∀ a : Addr,
        (0x0018 ≤ a.toNat ∧ a.toNat < 0x0100 ∨ 0x01C8 ≤ a.toNat ∧ a.toNat < 0x0400
          ∨ 0x0400 ≤ a.toNat ∧ a.toNat < 0x0F00 ∧ 66 ≤ a.toNat % 0x80
          ∨ 0x0F00 ≤ a.toNat ∧ a.toNat < 0x4000
          ∨ 0x4000 + s.cfg.ibufSize ≤ a.toNat ∧ a.toNat < 0x8000
          ∨ 0x8000 + s.cfg.obufSize ≤ a.toNat ∧ a.toNat < 0xC000
          ∨ 0xC000 ≤ a.toNat) →
        s.peek a = none

/-- R56, R57, R89: the 66 writes of `WRR Ri, v` load the register, and change nothing else; `RDR Ri` reads it and `RD32`
reads a control register, a fault recorded or not, and change nothing. What the field `returned` holds after is left
open. -/
def Obligations.HostWritesLoadARegister : Prop :=
  (∀ (i : Reg) (v : Nat) (s : State), s.fault = 0 → v < 2 ^ 528 →
    ∃ t, (hostRun (hostWriteReg i v) s).1 = t ∧ t.reg i = v ∧ (∀ k, k ≠ i → t.reg k = s.reg k)
      ∧ t = { s with regs := t.regs, pc := s.pc + 66, returned := t.returned })
    ∧ (∀ (i : Reg) (s : State), ∃ t, hostReadReg i s = (t, s.reg i)
        ∧ t = { s with pc := s.pc + 66, returned := t.returned })
    ∧ ∀ (s : State) (a : Addr) (v : Word),
        (a = 0x0000 ∧ v = s.result ∨ a = 0x0004 ∧ v = s.fault ∨ a = 0x0008 ∧ v = s.faultInfo
          ∨ a = 0x000C ∧ v = s.ilen ∨ a = 0x0010 ∧ v = s.obits ∨ a = 0x0014 ∧ v = s.olen) →
        ∃ t, hostRead32 a s = (t, v.toNat) ∧ t = { s with pc := s.pc + 4, returned := t.returned }

/-- R253: the host's sequences over the bus (`WRMSG`, `WR32`, the command, `RDOUT`) return KDF and MAC of R150, the squeeze
of the absorbed context, key and message in that order, from any state with no fault, where the input fits `IBUF` and the
output `OBUF`. -/
def Obligations.HostSequencesReturnKdfAndMac : Prop :=
  ∀ s : State, s.fault = 0 → s.cfg.SizesOk →
    (∀ (keyMaterial context : List Byte) (nbytes : Nat),
        context.length + keyMaterial.length ≤ s.cfg.ibufSize → nbytes ≤ s.cfg.obufSize →
        (hostKdf keyMaterial context nbytes s).2 = kdfFn s.cfg keyMaterial context (8 * nbytes)
          ∧ (hostKdf keyMaterial context nbytes s).2
              = (squeeze (absorb (context ++ keyMaterial) s.cfg.capXof s.cfg.dsKdf) (8 * nbytes)
                  (1600 - s.cfg.capXof)).1)
    ∧ ∀ key message context : List Byte,
        context.length + key.length + message.length ≤ s.cfg.ibufSize →
        (hostMac key message context s).2 = macFn s.cfg key message context
          ∧ (hostMac key message context s).2
              = (squeeze (absorb (context ++ key ++ message) s.cfg.capXof s.cfg.dsMac) s.cfg.tagBits
                  (1600 - s.cfg.capXof)).1

/-! ### The permutation -/

/-- R112, R114, R115: theta, pi and chi lane by lane, for every x and y, indices modulo 5. -/
def Obligations.ThetaPiChiLaneFormulas : Prop :=
  ∀ (a : Grid) (x y : Nat), x < 5 → y < 5 →
    (∀ c : Nat → Lane,
        (∀ u, u < 5 → c u = a.lane u 0 ^^^ a.lane u 1 ^^^ a.lane u 2 ^^^ a.lane u 3 ^^^ a.lane u 4) →
        (theta a).lane x y = a.lane x y ^^^ (c ((x + 4) % 5) ^^^ (c ((x + 1) % 5)).rotateLeft 1))
    ∧ (piStep a).lane y ((2 * x + 3 * y) % 5) = a.lane x y
    ∧ (piStep a).lane x y = a.lane ((x + 3 * y) % 5) x
    ∧ (chi a).lane x y = a.lane x y ^^^ (~~~(a.lane ((x + 1) % 5) y) &&& a.lane ((x + 2) % 5) y)

/-- R113, R116: rho and iota lane by lane, with the offsets and the round constants that the generation rules give. -/
def Obligations.RhoIotaFollowTheGenerationRules : Prop :=
  (∀ (a : Grid) (t : Nat), t < 24 →
      (rho a).lane (rhoWalk t).1 (rhoWalk t).2
        = (a.lane (rhoWalk t).1 (rhoWalk t).2).rotateLeft ((t + 1) * (t + 2) / 2 % 64))
    ∧ (∀ a : Grid, (rho a).lane 0 0 = a.lane 0 0)
    ∧ ∀ (a : Grid) (ir x y : Nat), ir < 24 → x < 5 → y < 5 →
        (iota a ir).lane x y = if x = 0 ∧ y = 0 then a.lane 0 0 ^^^ generatedConstant ir else a.lane x y

/-- R33: `lanes` is the inverse of `state_bytes` on strings of 200 bytes. -/
def Obligations.ByteViewIsABijection : Prop :=
  (∀ a : Grid, a.bytes.length = 200 ∧ Grid.ofBytes a.bytes = a)
    ∧ ∀ b : List Byte, b.length = 200 → (Grid.ofBytes b).bytes = b

/-- R121: the permutation of the all-zero state. -/
def Obligations.PermutationOfTheZeroState : Prop :=
  keccakF Grid.zero =
      ⟨⟨0xF1258F7940E1DDE7, 0x84D5CCF933C0478A, 0xD598261EA65AA9EE, 0xBD1547306F80494D, 0x8B284E056253D057⟩,
       ⟨0xFF97A42D7F8E6FD4, 0x90FEE5A0A44647C4, 0x8C5BDA0CD6192E76, 0xAD30A6F71B19059C, 0x30935AB7D08FFC64⟩,
       ⟨0xEB5AA93F2317D635, 0xA9A6E6260D712103, 0x81A57C16DBCF555F, 0x43B831CD0347C826, 0x01F22F1A11A5569F⟩,
       ⟨0x05E5635A21D9AE61, 0x64BEFEF28CC970F2, 0x613670957BC46611, 0xB87C5A554FD00ECB, 0x8C3EE88A1CCF32C8⟩,
       ⟨0x940C7922AE3A2614, 0x1841F924A2C509E4, 0x16F53526E70465C2, 0x75F644E97F30A13B, 0xEAF1FF7B5CECA249⟩⟩
    ∧ (keccakF Grid.zero).bytes.take 16
        = [0xE7, 0xDD, 0xE1, 0x40, 0x79, 0x8F, 0x25, 0xF1, 0x8A, 0x47, 0xC0, 0x33, 0xF9, 0xCC, 0xD5, 0x84]

/-- R118: two different states never permute to the same state, so that the permutation is a bijection on 1600-bit
states. -/
def Obligations.PermutationIsInjective : Prop :=
  ∀ a b : Grid, keccakF a = keccakF b → a = b

/-- R119: KECCAK_F completes with `ST` permuted by 24 rounds, `ir` rising from 0, RESULT `OK`, and nothing else written. -/
def Obligations.KeccakFCompletes : Prop :=
  ∀ s : State, exec .keccakF s = .next { s with st := (List.range 24).foldl keccakRound s.st, result := 0 }

/-! ### The sponge -/

/-- R131: the padded string is the message, then `ds`, zeros and a final 0x80, and its length is the least multiple of
the rate above the message's. -/
def Obligations.PaddingFillsTheLastBlock : Prop :=
  ∀ (msg : List Byte) (rateBytes : Nat) (ds : Byte), 1 ≤ rateBytes → rateBytes ≤ 200 →
    (pad msg rateBytes ds).take msg.length = msg
      ∧ rateBytes ∣ (pad msg rateBytes ds).length
      ∧ msg.length < (pad msg rateBytes ds).length
      ∧ (pad msg rateBytes ds).length ≤ msg.length + rateBytes
      ∧ ∀ j, msg.length ≤ j → j < (pad msg rateBytes ds).length →
          (pad msg rateBytes ds)[j]?
            = some ((if j = msg.length then ds else 0x00)
                ^^^ (if j + 1 = (pad msg rateBytes ds).length then 0x80 else 0x00))

/-- R135 (a), R133: the output of a squeeze has `ceil8(L)` bytes, and the bits from `L` up in its last byte are 0. -/
def Obligations.SqueezeOutputLength : Prop :=
  ∀ (a : Grid) (bits rate : Nat), rate % 8 = 0 → 8 ≤ rate → rate ≤ 1600 →
    (squeeze a bits rate).1.length = (bits + 7) / 8
      ∧ ∀ b, bits % 8 ≠ 0 → (squeeze a bits rate).1.getLast? = some b → b.toNat < 2 ^ (bits % 8)

/-- R135 (b): for two whole numbers of bytes, the shorter output is a prefix of the longer from the same state. -/
def Obligations.SqueezeIsPrefixExtending : Prop :=
  ∀ (a : Grid) (bits₁ bits₂ rate : Nat), rate % 8 = 0 → 8 ≤ rate → rate ≤ 1600 →
    bits₁ ≤ bits₂ → bits₁ % 8 = 0 → bits₂ % 8 = 0 →
    (squeeze a bits₁ rate).1 <+: (squeeze a bits₂ rate).1

/-- R133: a squeeze permutes `ceil(L / rate)` times, and the bytes of block `i` of its output are the first `rate/8`
bytes of the state permuted `i` times; of a last byte that is not whole, the low `L mod 8` bits. -/
def Obligations.SqueezeCopiesSuccessiveStates : Prop :=
  ∀ (a : Grid) (bits rate : Nat), rate % 8 = 0 → 8 ≤ rate → rate ≤ 1600 →
    (squeeze a bits rate).2 = keccakF^[(bits + rate - 1) / rate] a
      ∧ (∀ i j, j < rate / 8 → 8 * (i * (rate / 8) + j) + 8 ≤ bits →
          (squeeze a bits rate).1[i * (rate / 8) + j]? = some ((keccakF^[i] a).byte j))
      ∧ ∀ i j, j < rate / 8 → i * (rate / 8) + j = bits / 8 → bits % 8 ≠ 0 →
          (squeeze a bits rate).1[i * (rate / 8) + j]?
            = some ((keccakF^[i] a).byte j &&& BitVec.ofNat 8 (2 ^ (bits % 8) - 1))

/-- R136: with legal parameters and a message that fits, ABSORB completes with `ST` the absorbed state, whatever `ST`
was, and writes nothing else but RESULT. -/
def Obligations.AbsorbCompletes : Prop :=
  ∀ (cap : Nat) (ds : Byte) (s : State),
    cap % 8 = 0 → cap ≤ 1592 → 0x01 ≤ ds.toNat → ds.toNat ≤ 0x7F → s.ilen.toNat ≤ s.cfg.ibufSize →
    exec (.absorb cap ds) s = .next { s with st := absorb s.msg cap ds, result := 0 }
      ∧ ∀ a : Grid, exec (.absorb cap ds) { s with st := a } = exec (.absorb cap ds) s

/-- R136, R137, R276: ABSORB and SQUEEZE with a parameter out of its range raise BAD_PARAM, whatever the lengths. -/
def Obligations.BadParametersRaiseBadParam : Prop :=
  ∀ s : State, s.fault = 0 →
    (∀ (cap : Nat) (ds : Byte), (cap % 8 ≠ 0 ∨ 1592 < cap ∨ ds.toNat < 0x01 ∨ 0x7F < ds.toNat) →
        exec (.absorb cap ds) s = .next { s with fault := 2, faultInfo := encode (.absorb cap ds) })
    ∧ ∀ rate : Nat, (rate % 8 ≠ 0 ∨ rate < 8 ∨ 1600 < rate) →
        exec (.squeeze rate) s = .next { s with fault := 2, faultInfo := encode (.squeeze rate) }

/-- R272, R276: a message longer than `IBUF` makes each message-reading command raise LEN_RANGE before its scalar and
point checks, and an output longer than `OBUF` makes SQUEEZE and KDF raise it. -/
def Obligations.LengthsBeyondABufferRaiseLenRange : Prop :=
  ∀ s : State, s.fault = 0 →
    (∀ i : Instr, checksMessageFirst i = true → s.cfg.ibufSize < s.ilen.toNat →
        exec i s = .next { s with fault := 3, faultInfo := encode i })
    ∧ (∀ (cap : Nat) (ds : Byte), cap % 8 = 0 → cap ≤ 1592 → 0x01 ≤ ds.toNat → ds.toNat ≤ 0x7F →
        s.cfg.ibufSize < s.ilen.toNat →
        exec (.absorb cap ds) s = .next { s with fault := 3, faultInfo := encode (.absorb cap ds) })
    ∧ (∀ rate : Nat, rate % 8 = 0 → 8 ≤ rate → rate ≤ 1600 → s.cfg.obufSize < (s.obits.toNat + 7) / 8 →
        exec (.squeeze rate) s = .next { s with fault := 3, faultInfo := encode (.squeeze rate) })
    ∧ (s.ilen.toNat ≤ s.cfg.ibufSize → s.cfg.obufSize < (s.obits.toNat + 7) / 8 →
        exec .kdf s = .next { s with fault := 3, faultInfo := encode .kdf })

/-- R137: with a legal rate and a length that fits, SQUEEZE completes: `OBUF[0:OLEN]` holds the output, every later byte
of `OBUF` is as before, `ST` is the state left, RESULT is `OK`, and nothing else is written. -/
def Obligations.SqueezeCompletes : Prop :=
  ∀ (rate : Nat) (s : State), s.cfg.SizesOk → rate % 8 = 0 → 8 ≤ rate → rate ≤ 1600 →
    (s.obits.toNat + 7) / 8 ≤ s.cfg.obufSize →
    ∃ t, exec (.squeeze rate) s = .next t
      ∧ t.olen.toNat = (s.obits.toNat + 7) / 8
      ∧ (∀ j, j < t.olen.toNat → (squeeze s.st s.obits.toNat rate).1[j]? = some (t.obuf.read j))
      ∧ (∀ j, t.olen.toNat ≤ j → t.obuf.read j = s.obuf.read j)
      ∧ t.st = (squeeze s.st s.obits.toNat rate).2
      ∧ t.result = 0
      ∧ t = { s with st := t.st, obuf := t.obuf, olen := t.olen, result := t.result }

/-- R150 to R154: HASH, KDF and MAC complete where their lengths fit: `OBUF[0:OLEN]` holds Hash, KDF or MAC of the
message, which is the squeeze of the absorbed message with the command's own suffix and length, every later byte of `OBUF` is as before, `ST` is zero, RESULT is `OK`, and nothing else is written. -/
def Obligations.HashKdfMacComplete : Prop :=
  ∀ s : State, s.cfg.SizesOk → s.ilen.toNat ≤ s.cfg.ibufSize →
    ∀ (i : Instr) (out : List Byte),
      (i = .hash ∧ out = hashFn s.cfg s.msg
        ∨ i = .kdf ∧ (s.obits.toNat + 7) / 8 ≤ s.cfg.obufSize ∧ out = kdfFn s.cfg s.msg [] s.obits.toNat
        ∨ i = .mac ∧ out = macFn s.cfg [] s.msg []) →
      ∃ t, exec i s = .next t
        ∧ t.olen.toNat = out.length
        ∧ (i = .hash → out.length = (s.cfg.hashBits + 7) / 8
            ∧ out = (squeeze (absorb s.msg s.cfg.capXof s.cfg.dsHash) s.cfg.hashBits (1600 - s.cfg.capXof)).1)
        ∧ (i = .kdf → out.length = (s.obits.toNat + 7) / 8
            ∧ out = (squeeze (absorb s.msg s.cfg.capXof s.cfg.dsKdf) s.obits.toNat (1600 - s.cfg.capXof)).1)
        ∧ (i = .mac → out.length = (s.cfg.tagBits + 7) / 8
            ∧ out = (squeeze (absorb s.msg s.cfg.capXof s.cfg.dsMac) s.cfg.tagBits (1600 - s.cfg.capXof)).1)
        ∧ (∀ j, j < out.length → out[j]? = some (t.obuf.read j))
        ∧ (∀ j, out.length ≤ j → t.obuf.read j = s.obuf.read j)
        ∧ (∀ x y, t.st.lane x y = 0)
        ∧ t.result = 0
        ∧ t = { s with st := t.st, obuf := t.obuf, olen := t.olen, result := t.result }

/-! ### The field -/

/-- R171: addition, subtraction and negation of field elements. -/
def Obligations.FieldAddSubNegFormulas : Prop :=
  ∀ (cfg : Config) (a b : Nat), a < cfg.p → b < cfg.p →
    addp cfg a b = (a + b) % cfg.p ∧ addp cfg a b < cfg.p
      ∧ subp cfg a b = (if b ≤ a then a - b else a + cfg.p - b) ∧ subp cfg a b < cfg.p
      ∧ negp cfg a = (if a = 0 then 0 else cfg.p - a) ∧ negp cfg a < cfg.p

/-- R173: the inverse of a nonzero field element is the unique field element whose product with it is 1. -/
def Obligations.InverseExistsAndIsUnique : Prop :=
  ∀ (cfg : Config) (a : Nat), cfg.p = Config.e521P → 1 ≤ a → a < cfg.p →
    (1 ≤ invp cfg a ∧ invp cfg a < cfg.p ∧ mulp cfg a (invp cfg a) = 1)
      ∧ ∀ b, 1 ≤ b → b < cfg.p → mulp cfg a b = 1 → b = invp cfg a

/-- R178: the arithmetic laws of the field. -/
def Obligations.FieldLaws : Prop :=
  ∀ (cfg : Config) (a b c : Nat), cfg.p = Config.e521P → a < cfg.p → b < cfg.p → c < cfg.p →
    addp cfg a b = addp cfg b a ∧ addp cfg (addp cfg a b) c = addp cfg a (addp cfg b c)
      ∧ mulp cfg a b = mulp cfg b a ∧ mulp cfg (mulp cfg a b) c = mulp cfg a (mulp cfg b c)
      ∧ mulp cfg a (addp cfg b c) = addp cfg (mulp cfg a b) (mulp cfg a c)
      ∧ addp cfg a (negp cfg a) = 0 ∧ subp cfg a b = addp cfg a (negp cfg b)
      ∧ mulp cfg a 1 = a ∧ mulp cfg a 0 = 0
      ∧ (a ≠ 0 → mulp cfg a (invp cfg a) = 1 ∧ invp cfg (invp cfg a) = a)
      ∧ (a ≠ 0 → b ≠ 0 → invp cfg (mulp cfg a b) = mulp cfg (invp cfg a) (invp cfg b))

/-- R176: FMUL completes for every choice of registers: `R[rd]` is the product of the two register values modulo p, in
`[0, p)`, RESULT is `OK`, and no other register and nothing else is written. -/
def Obligations.FmulCompletes : Prop :=
  ∀ (rd ra rb : Reg) (s : State), s.cfg.p = Config.e521P →
    ∃ t, exec (.fmul rd ra rb) s = .next t
      ∧ t.reg rd = s.reg ra * s.reg rb % s.cfg.p
      ∧ (∀ i, i ≠ rd → t.reg i = s.reg i)
      ∧ t = { s with regs := t.regs, result := 0 }

/-- R177: FINV of a register that is not 0 modulo p completes: `R[rd]` is in `[1, p)` and its product with the operand is
1 modulo p, RESULT is `OK`, nothing else is written. Of one that is 0 modulo p it ends with INVALID_SCALAR and writes no
register. -/
def Obligations.FinvCompletes : Prop :=
  ∀ (rd ra : Reg) (s : State), s.cfg.p = Config.e521P →
    (s.reg ra % s.cfg.p ≠ 0 →
      ∃ t, exec (.finv rd ra) s = .next t
        ∧ 1 ≤ t.reg rd ∧ t.reg rd < s.cfg.p ∧ s.reg ra * t.reg rd % s.cfg.p = 1
        ∧ (∀ i, i ≠ rd → t.reg i = s.reg i)
        ∧ t = { s with regs := t.regs, result := 0 })
    ∧ (s.reg ra % s.cfg.p = 0 → exec (.finv rd ra) s = .next { s with result := 2 })

/-! ### The curve -/

/-- R195: for points of the curve neither denominator of the addition formula is 0 modulo p, so that `invp(0)` is never
evaluated, and the sum is the pair of field elements that solves the formula. -/
def Obligations.PointAddSolvesTheFormula : Prop :=
  ∀ (cfg : Config) (a b : Point), cfg.p = Config.e521P → cfg.d = Config.e521D → a.Valid cfg → b.Valid cfg →
    ∀ t, t = cfg.d * a.x * b.x * a.y * b.y →
      (1 + t) % cfg.p ≠ 0 ∧ ((1 : Int) - t) % cfg.p ≠ 0
        ∧ (ptAdd cfg a b).x < cfg.p ∧ (ptAdd cfg a b).y < cfg.p
        ∧ (ptAdd cfg a b).x * (1 + t) % cfg.p = (a.x * b.y + a.y * b.x) % cfg.p
        ∧ ((ptAdd cfg a b).y : Int) * (1 - t) % cfg.p = ((a.y : Int) * b.y - a.x * b.x) % cfg.p

/-- R195: the sum of two points of the curve is a point of the curve. -/
def Obligations.PointAddStaysOnTheCurve : Prop :=
  ∀ (cfg : Config) (a b : Point), cfg.p = Config.e521P → cfg.d = Config.e521D → a.Valid cfg → b.Valid cfg →
    (ptAdd cfg a b).Valid cfg

/-- R197, R201, R202: the multiples of a point of the curve by 0 and by r are the identity, the multiple by 1 is the point,
scalars count modulo r, and every multiple is a point of the curve. Below r, the multiple by 2k is the multiple by k
doubled, and the multiple by 2k + 1 is that with the point added. -/
def Obligations.PointMultiplesReduceTheScalar : Prop :=
  ∀ (cfg : Config) (a : Point), cfg.FixedConstants → a.Valid cfg →
    ptMul cfg 0 a = Point.identity ∧ ptMul cfg cfg.r a = Point.identity ∧ ptMul cfg 1 a = a
      ∧ (∀ k, ptMul cfg (k + cfg.r) a = ptMul cfg k a ∧ (ptMul cfg k a).Valid cfg)
      ∧ (∀ k, 2 * k < cfg.r → ptMul cfg (2 * k) a = ptAdd cfg (ptMul cfg k a) (ptMul cfg k a))
      ∧ ∀ k, 2 * k + 1 < cfg.r →
          ptMul cfg (2 * k + 1) a = ptAdd cfg (ptAdd cfg (ptMul cfg k a) (ptMul cfg k a)) a

/-- R199: PADD of two points of the curve completes for every choice of registers: `P[pd]` is their sum, a point of the
curve, RESULT is `OK`, and no other register and nothing else is written. -/
def Obligations.PaddCompletes : Prop :=
  ∀ (pd pa pb : PointReg) (s : State), s.cfg.FixedConstants →
    onCurve s.cfg (s.coordinates pa) = true → onCurve s.cfg (s.coordinates pb) = true →
    ∃ t, exec (.padd pd pa pb) s = .next t
      ∧ (⟨t.reg (pointX pd), t.reg (pointY pd)⟩ : Point) = ptAdd s.cfg (s.coordinates pa) (s.coordinates pb)
      ∧ onCurve s.cfg (t.coordinates pd) = true
      ∧ (∀ i, i ≠ pointX pd → i ≠ pointY pd → t.reg i = s.reg i)
      ∧ t = { s with regs := t.regs, result := 0 }

/-- R200: PDBL of a point of the curve completes likewise with the point added to itself, and PDBL has exactly the effect
of PADD with the operand named twice, in every state. -/
def Obligations.PdblCompletes : Prop :=
  ∀ (pd pa : PointReg) (s : State), s.cfg.FixedConstants →
    (onCurve s.cfg (s.coordinates pa) = true →
      ∃ t, exec (.pdbl pd pa) s = .next t
        ∧ (⟨t.reg (pointX pd), t.reg (pointY pd)⟩ : Point) = ptAdd s.cfg (s.coordinates pa) (s.coordinates pa)
        ∧ onCurve s.cfg (t.coordinates pd) = true
        ∧ (∀ i, i ≠ pointX pd → i ≠ pointY pd → t.reg i = s.reg i)
        ∧ t = { s with regs := t.regs, result := 0 })
    ∧ exec (.pdbl pd pa) s = exec (.padd pd pa pa) s

/-- R201: PMUL of a point of the curve completes for every scalar and every choice of registers: `P[pd]` is the multiple
by the register's value modulo r, a point of the curve, RESULT is `OK`, and nothing else is written. -/
def Obligations.PmulCompletes : Prop :=
  ∀ (pd : PointReg) (rk : Reg) (pa : PointReg) (s : State), s.cfg.FixedConstants →
    onCurve s.cfg (s.coordinates pa) = true →
    ∃ t, exec (.pmul pd rk pa) s = .next t
      ∧ (⟨t.reg (pointX pd), t.reg (pointY pd)⟩ : Point)
          = ptMul s.cfg (s.reg rk % s.cfg.r) (s.coordinates pa)
      ∧ onCurve s.cfg (t.coordinates pd) = true
      ∧ (∀ i, i ≠ pointX pd → i ≠ pointY pd → t.reg i = s.reg i)
      ∧ t = { s with regs := t.regs, result := 0 }

/-- R198: a point command with a point operand off the curve ends with MALFORMED_POINT and writes nothing else. -/
def Obligations.MalformedPointsAreRejected : Prop :=
  ∀ s : State,
    (∀ pd pa pb : PointReg,
        (onCurve s.cfg (s.coordinates pa) = false ∨ onCurve s.cfg (s.coordinates pb) = false) →
        exec (.padd pd pa pb) s = .next { s with result := 1 })
    ∧ (∀ pd pa : PointReg, onCurve s.cfg (s.coordinates pa) = false →
        exec (.pdbl pd pa) s = .next { s with result := 1 })
    ∧ ∀ (pd : PointReg) (rk : Reg) (pa : PointReg), onCurve s.cfg (s.coordinates pa) = false →
        exec (.pmul pd rk pa) s = .next { s with result := 1 }

/-- R202: `pt_add` is commutative on points of the curve and (0, 1) is its neutral element. -/
def Obligations.PointAddCommutesWithNeutral : Prop :=
  ∀ (cfg : Config) (a b : Point), cfg.p = Config.e521P → a.Valid cfg → b.Valid cfg →
    ptAdd cfg a b = ptAdd cfg b a ∧ ptAdd cfg a Point.identity = a ∧ ptAdd cfg Point.identity a = a

/-- R194, R199: a point of the curve and its negative add up to (0, 1). -/
def Obligations.PointAndNegativeCancel : Prop :=
  ∀ (cfg : Config) (a : Point), cfg.p = Config.e521P → cfg.d = Config.e521D → a.Valid cfg →
    (ptNeg cfg a).Valid cfg ∧ ptAdd cfg a (ptNeg cfg a) = Point.identity

/-- R6, R192: the default configuration is admissible; its generator is on the curve and of order r. -/
def Obligations.DefaultConfigurationIsAdmissible : Prop := Config.default.Admissible

/-! ### The Schnorr engine -/

/-- R222 to R225, R227: SIGN.X with a message that fits, a key in range and a nonce that is not 0 modulo r completes:
h is the challenge of the nonce's multiple of G, the MAC of R222 reduced modulo r, s is below r and solves the response equation, `R[rs]` is written last,
`ST` is zero, RESULT is `OK`, and nothing else is written. -/
def Obligations.SignXCompletes : Prop :=
  ∀ (rh rs rd rk : Reg) (s : State), s.cfg.r ≤ 2 ^ 528 → s.ilen.toNat ≤ s.cfg.ibufSize →
    s.reg rd ≠ 0 → s.reg rd < s.cfg.r → s.reg rk % s.cfg.r ≠ 0 →
    ∃ t h, exec (.signX rh rs rd rk) s = .next t
      ∧ h = challenge s.cfg (ptMul s.cfg (s.reg rk) (generator s.cfg)) s.msg ∧ h < s.cfg.r
      ∧ (∀ c : Point, c = ptMul s.cfg (s.reg rk) (generator s.cfg) →
          h = leValue (macFn s.cfg [] (enc c.x ++ enc c.y ++ s.msg) s.cfg.ctxSig) % s.cfg.r)
      ∧ t.reg rs < s.cfg.r ∧ (t.reg rs + h * s.reg rd) % s.cfg.r = s.reg rk % s.cfg.r
      ∧ (rh ≠ rs → t.reg rh = h)
      ∧ (∀ i, i ≠ rh → i ≠ rs → t.reg i = s.reg i)
      ∧ (∀ x y, t.st.lane x y = 0)
      ∧ t = { s with regs := t.regs, st := t.st, result := 0 }

/-- R224, R226: SIGN with a message that fits and a key in range completes with the derived nonce, with the effect of
SIGN.X with that nonce in a register; with no nonce it ends with INVALID_SCALAR and `ST` zero. -/
def Obligations.SignCompletes : Prop :=
  ∀ (rh rs rd : Reg) (s : State), s.cfg.r ≤ 2 ^ 528 → s.ilen.toNat ≤ s.cfg.ibufSize →
    s.reg rd ≠ 0 → s.reg rd < s.cfg.r →
    (∀ k, deriveNonce s.cfg (s.reg rd) s.msg = some k →
      ∃ t h, exec (.sign rh rs rd) s = .next t
        ∧ h = challenge s.cfg (ptMul s.cfg k (generator s.cfg)) s.msg ∧ h < s.cfg.r
        ∧ (∀ c : Point, c = ptMul s.cfg k (generator s.cfg) →
            h = leValue (macFn s.cfg [] (enc c.x ++ enc c.y ++ s.msg) s.cfg.ctxSig) % s.cfg.r)
        ∧ t.reg rs < s.cfg.r ∧ (t.reg rs + h * s.reg rd) % s.cfg.r = k
        ∧ (rh ≠ rs → t.reg rh = h)
        ∧ (∀ i, i ≠ rh → i ≠ rs → t.reg i = s.reg i)
        ∧ (∀ x y, t.st.lane x y = 0)
        ∧ t = { s with regs := t.regs, st := t.st, result := 0 }
        ∧ ∀ rk, s.reg rk = k → exec (.signX rh rs rd rk) s = .next t)
    ∧ (deriveNonce s.cfg (s.reg rd) s.msg = none →
        exec (.sign rh rs rd) s = .next { s with st := Grid.zero, result := 2 })

/-- R224: the derived nonce is the first nonzero attempt, counters 0 to 255, and none only if all are zero; an attempt is
the KDF of the key and the message under the nonce context and the counter byte, reduced modulo r. -/
def Obligations.NonceIsTheFirstNonzeroAttempt : Prop :=
  ∀ (cfg : Config) (dk : Nat) (msg : List Byte),
    (∀ k, deriveNonce cfg dk msg = some k ↔
      k ≠ 0 ∧ ∃ c, c < 256 ∧ nonceAttempt cfg dk msg c = k ∧ ∀ c', c' < c → nonceAttempt cfg dk msg c' = 0)
    ∧ (deriveNonce cfg dk msg = none ↔ ∀ c, c < 256 → nonceAttempt cfg dk msg c = 0)
    ∧ ∀ c : Byte, nonceAttempt cfg dk msg c.toNat
        = leValue (kdfFn cfg (enc dk ++ msg) (cfg.ctxNonce ++ [c]) cfg.nonceBits) % cfg.r

/-- R226 to R228, R276: with a message that fits, SIGN and SIGN.X with a key out of range, SIGN.X with a nonce that is 0
modulo r, and VERIFY with h or s not below r end with INVALID_SCALAR, VERIFY before its point check; VERIFY with scalars in
range and a key off the curve ends with MALFORMED_POINT. Each writes RESULT and nothing else. -/
def Obligations.SchnorrOperandChecks : Prop :=
  ∀ s : State, s.ilen.toNat ≤ s.cfg.ibufSize →
    (∀ rh rs rd rk : Reg, (s.reg rd = 0 ∨ s.cfg.r ≤ s.reg rd) →
        exec (.sign rh rs rd) s = .next { s with result := 2 }
          ∧ exec (.signX rh rs rd rk) s = .next { s with result := 2 })
    ∧ (∀ rh rs rd rk : Reg, s.reg rk % s.cfg.r = 0 → exec (.signX rh rs rd rk) s = .next { s with result := 2 })
    ∧ ∀ (rh rs : Reg) (pv : PointReg),
        ((s.cfg.r ≤ s.reg rh ∨ s.cfg.r ≤ s.reg rs) → exec (.verify rh rs pv) s = .next { s with result := 2 })
        ∧ (s.reg rh < s.cfg.r → s.reg rs < s.cfg.r → onCurve s.cfg (s.coordinates pv) = false →
            exec (.verify rh rs pv) s = .next { s with result := 1 })

/-- R228: VERIFY with a message that fits, scalars in range and a key on the curve completes: RESULT is `OK` exactly when
the recomputed challenge, the MAC of R222 reduced modulo r, is h, else SIGNATURE_INVALID; `ST` is zero; no register and nothing else is written. -/
def Obligations.VerifyDecides : Prop :=
  ∀ (rh rs : Reg) (pv : PointReg) (s : State), s.ilen.toNat ≤ s.cfg.ibufSize →
    s.reg rh < s.cfg.r → s.reg rs < s.cfg.r → onCurve s.cfg (s.coordinates pv) = true →
    ∃ t, exec (.verify rh rs pv) s = .next t
      ∧ t.result
          = (if challenge s.cfg
                (ptAdd s.cfg (ptMul s.cfg (s.reg rs) (generator s.cfg)) (ptMul s.cfg (s.reg rh) (s.coordinates pv)))
                s.msg = s.reg rh
             then 0 else 4)
      ∧ (∀ c : Point,
          c = ptAdd s.cfg (ptMul s.cfg (s.reg rs) (generator s.cfg)) (ptMul s.cfg (s.reg rh) (s.coordinates pv)) →
          (t.result = 0 ↔ leValue (macFn s.cfg [] (enc c.x ++ enc c.y ++ s.msg) s.cfg.ctxSig) % s.cfg.r = s.reg rh))
      ∧ (∀ x y, t.st.lane x y = 0)
      ∧ t = { s with st := t.st, result := t.result }

/-- R229: the signature that SIGN.X or SIGN writes makes VERIFY end with `OK` under the key's point, where the multiples
of G add and multiply as R202 says (`GeneratorLaw`), which R202 takes from the group law. -/
def Obligations.SignThenVerifyAccepts : Prop :=
  ∀ (rh rs rd rk : Reg) (pv : PointReg) (i : Instr) (s t : State),
    GeneratorLaw s.cfg → s.cfg.r ≤ 2 ^ 528 → s.ilen.toNat ≤ s.cfg.ibufSize →
    s.reg rd ≠ 0 → s.reg rd < s.cfg.r →
    s.coordinates pv = ptMul s.cfg (s.reg rd) (generator s.cfg) →
    rh ≠ rs → rh ≠ pointX pv → rh ≠ pointY pv → rs ≠ pointX pv → rs ≠ pointY pv →
    (i = .signX rh rs rd rk ∨ i = .sign rh rs rd) → exec i s = .next t → t.result = 0 →
    ∃ u, exec (.verify rh rs pv) t = .next u ∧ u.result = 0

/-! ### Host protocols -/

/-- R251, R255, R257, R258, R260: whatever the host's parameters, decrypting with the password gives the message back, the
cryptogram has the nonce and a ciphertext as long as the message, and a ciphertext whose tag does not match gives the empty
message and false. That it holds of strings beyond R253's limits is the model's choice (log 20). -/
def Obligations.PasswordDecryptionInverts : Prop :=
  ∀ (hp : HostParams) (cfg : Config) (z : Vector Byte hp.zBytes) (password message : List Byte), cfg.SizesOk →
    decryptWithPw hp cfg password (encryptWithPw hp cfg z password message) = (message, true)
      ∧ (encryptWithPw hp cfg z password message).z = z.toList
      ∧ (encryptWithPw hp cfg z password message).c.length = message.length
      ∧ ∀ g : SymmetricCryptogram, macFn cfg (sealKeys hp cfg (g.z ++ password)).2 g.c hp.ctxTag ≠ g.t →
          decryptWithPw hp cfg password g = ([], false)

/-- R251, R256, R259, R260: a generated key pair has its owner, its time and R251's invariant, and decrypting with its
private key what was encrypted with its point gives the message back, whatever the host's parameters, where the multiples
of G multiply as R202 says (`GeneratorLaw`). Draws that are 0 modulo r are drawn again, and the first other one is the
ephemeral scalar; a public key or a cryptogram's point off the curve fails with MALFORMED_POINT. Random choices and the time are arguments of the host's functions, which is the
model's choice (log 12), and so is that it holds of strings beyond R253's limits (log 20). -/
def Obligations.KeyDecryptionInverts : Prop :=
  ∀ (hp : HostParams) (cfg : Config), GeneratorLaw cfg → cfg.SizesOk →
    (∀ (now : Nat) (password : List Byte) (owner : String) (kp : KeyPair), 0 < cfg.r →
        genKeypair hp cfg now password owner = some kp →
        kp.Valid cfg ∧ kp.owner = owner ∧ kp.created = now
          ∧ ∃ j, j < hp.attempts
            ∧ kp.scalar = leValue (kdfFn cfg (hp.material j password) hp.ctxKey (8 * hp.keygenBytes)) % cfg.r)
    ∧ (∀ (zeros rest : List Nat) (k dk : Nat) (message : List Byte), (∀ z ∈ zeros, z % cfg.r = 0) → k % cfg.r ≠ 0 →
        ∃ g, encryptWithKey hp cfg (zeros ++ k :: rest) (ptMul cfg dk (generator cfg)) message = .ok g
          ∧ decryptWithKey hp cfg dk g = .ok (message, true)
          ∧ g.z = ptMul cfg k (generator cfg) ∧ onCurve cfg g.z = true ∧ g.c.length = message.length)
    ∧ (∀ (zeros rest : List Nat) (k : Nat) (pub : Point) (message : List Byte),
        (∀ z ∈ zeros, z % cfg.r = 0) → k % cfg.r ≠ 0 → onCurve cfg ⟨pub.x % cfg.p, pub.y % cfg.p⟩ = false →
        encryptWithKey hp cfg (zeros ++ k :: rest) pub message = .error (.kind .malformedPoint))
    ∧ (∀ (zeros : List Nat) (pub : Point) (message : List Byte), (∀ z ∈ zeros, z % cfg.r = 0) →
        encryptWithKey hp cfg zeros pub message = .error .drawAgain)
    ∧ ∀ (dk : Nat) (g : ECCryptogram), onCurve cfg ⟨g.z.x % cfg.p, g.z.y % cfg.p⟩ = false →
        decryptWithKey hp cfg dk g = .error (.kind .malformedPoint)

/-! ### Absorption, block by block -/

/-- R132, R135 (d): an absorbed state is reached from the zero state by `len(M)/rate_bytes + 1` permutations; before each,
the next block of the padded message is XORed into the first bytes of the byte view, and the bytes of the capacity are
kept. -/
def Obligations.AbsorbXorsEachPaddedBlock : Prop :=
  ∀ (msg : List Byte) (cap rateBytes : Nat) (ds : Byte), cap % 8 = 0 → cap ≤ 1592 → rateBytes = (1600 - cap) / 8 →
    ∃ before : Nat → Grid,
      (∀ x y, (before 0).lane x y = 0)
      ∧ (∀ i, i < msg.length / rateBytes + 1 →
          ∃ filled : Grid, before (i + 1) = keccakF filled
            ∧ (∀ j, j < rateBytes →
                ∃ b, (pad msg rateBytes ds)[i * rateBytes + j]? = some b ∧ filled.byte j = (before i).byte j ^^^ b)
            ∧ ∀ j, rateBytes ≤ j → j < 200 → filled.byte j = (before i).byte j)
      ∧ absorb msg cap ds = before (msg.length / rateBytes + 1)
end

