-- ==== Sys2Proof/Laws/State.lean ====
section
/-! SUPPORT. One lemma for each field of State under each named update, true by definition. -/

namespace Sys2Proof.Machine

/-! ### `setReg` -/

@[simp] theorem setReg_regs (s : State) (i : Reg) (v : Nat) : (s.setReg i v).regs = s.regs.set i (BitVec.ofNat 528 v) := rfl
@[simp] theorem setReg_st (s : State) (i : Reg) (v : Nat) : (s.setReg i v).st = s.st := rfl
@[simp] theorem setReg_ibuf (s : State) (i : Reg) (v : Nat) : (s.setReg i v).ibuf = s.ibuf := rfl
@[simp] theorem setReg_obuf (s : State) (i : Reg) (v : Nat) : (s.setReg i v).obuf = s.obuf := rfl
@[simp] theorem setReg_ilen (s : State) (i : Reg) (v : Nat) : (s.setReg i v).ilen = s.ilen := rfl
@[simp] theorem setReg_obits (s : State) (i : Reg) (v : Nat) : (s.setReg i v).obits = s.obits := rfl
@[simp] theorem setReg_olen (s : State) (i : Reg) (v : Nat) : (s.setReg i v).olen = s.olen := rfl
@[simp] theorem setReg_result (s : State) (i : Reg) (v : Nat) : (s.setReg i v).result = s.result := rfl
@[simp] theorem setReg_fault (s : State) (i : Reg) (v : Nat) : (s.setReg i v).fault = s.fault := rfl
@[simp] theorem setReg_faultInfo (s : State) (i : Reg) (v : Nat) : (s.setReg i v).faultInfo = s.faultInfo := rfl
@[simp] theorem setReg_cfg (s : State) (i : Reg) (v : Nat) : (s.setReg i v).cfg = s.cfg := rfl
@[simp] theorem setReg_txns (s : State) (i : Reg) (v : Nat) : (s.setReg i v).txns = s.txns := rfl
@[simp] theorem setReg_pc (s : State) (i : Reg) (v : Nat) : (s.setReg i v).pc = s.pc := rfl
@[simp] theorem setReg_returned (s : State) (i : Reg) (v : Nat) : (s.setReg i v).returned = s.returned := rfl

/-! ### `setPoint` -/

@[simp] theorem setPoint_regs (s : State) (j : PointReg) (a : Point) : (s.setPoint j a).regs = (s.regs.set (pointX j) (BitVec.ofNat 528 a.x)).set (pointY j) (BitVec.ofNat 528 a.y) := rfl
@[simp] theorem setPoint_st (s : State) (j : PointReg) (a : Point) : (s.setPoint j a).st = s.st := rfl
@[simp] theorem setPoint_ibuf (s : State) (j : PointReg) (a : Point) : (s.setPoint j a).ibuf = s.ibuf := rfl
@[simp] theorem setPoint_obuf (s : State) (j : PointReg) (a : Point) : (s.setPoint j a).obuf = s.obuf := rfl
@[simp] theorem setPoint_ilen (s : State) (j : PointReg) (a : Point) : (s.setPoint j a).ilen = s.ilen := rfl
@[simp] theorem setPoint_obits (s : State) (j : PointReg) (a : Point) : (s.setPoint j a).obits = s.obits := rfl
@[simp] theorem setPoint_olen (s : State) (j : PointReg) (a : Point) : (s.setPoint j a).olen = s.olen := rfl
@[simp] theorem setPoint_result (s : State) (j : PointReg) (a : Point) : (s.setPoint j a).result = s.result := rfl
@[simp] theorem setPoint_fault (s : State) (j : PointReg) (a : Point) : (s.setPoint j a).fault = s.fault := rfl
@[simp] theorem setPoint_faultInfo (s : State) (j : PointReg) (a : Point) : (s.setPoint j a).faultInfo = s.faultInfo := rfl
@[simp] theorem setPoint_cfg (s : State) (j : PointReg) (a : Point) : (s.setPoint j a).cfg = s.cfg := rfl
@[simp] theorem setPoint_txns (s : State) (j : PointReg) (a : Point) : (s.setPoint j a).txns = s.txns := rfl
@[simp] theorem setPoint_pc (s : State) (j : PointReg) (a : Point) : (s.setPoint j a).pc = s.pc := rfl
@[simp] theorem setPoint_returned (s : State) (j : PointReg) (a : Point) : (s.setPoint j a).returned = s.returned := rfl

/-! ### `writeOutput` -/

@[simp] theorem writeOutput_regs (s : State) (out : List Byte) : (s.writeOutput out).regs = s.regs := rfl
@[simp] theorem writeOutput_st (s : State) (out : List Byte) : (s.writeOutput out).st = s.st := rfl
@[simp] theorem writeOutput_ibuf (s : State) (out : List Byte) : (s.writeOutput out).ibuf = s.ibuf := rfl
@[simp] theorem writeOutput_obuf (s : State) (out : List Byte) : (s.writeOutput out).obuf = s.obuf.writeBytes 0 out := rfl
@[simp] theorem writeOutput_ilen (s : State) (out : List Byte) : (s.writeOutput out).ilen = s.ilen := rfl
@[simp] theorem writeOutput_obits (s : State) (out : List Byte) : (s.writeOutput out).obits = s.obits := rfl
@[simp] theorem writeOutput_olen (s : State) (out : List Byte) : (s.writeOutput out).olen = BitVec.ofNat 32 out.length := rfl
@[simp] theorem writeOutput_result (s : State) (out : List Byte) : (s.writeOutput out).result = s.result := rfl
@[simp] theorem writeOutput_fault (s : State) (out : List Byte) : (s.writeOutput out).fault = s.fault := rfl
@[simp] theorem writeOutput_faultInfo (s : State) (out : List Byte) : (s.writeOutput out).faultInfo = s.faultInfo := rfl
@[simp] theorem writeOutput_cfg (s : State) (out : List Byte) : (s.writeOutput out).cfg = s.cfg := rfl
@[simp] theorem writeOutput_txns (s : State) (out : List Byte) : (s.writeOutput out).txns = s.txns := rfl
@[simp] theorem writeOutput_pc (s : State) (out : List Byte) : (s.writeOutput out).pc = s.pc := rfl
@[simp] theorem writeOutput_returned (s : State) (out : List Byte) : (s.writeOutput out).returned = s.returned := rfl

/-! ### `clearSt` -/

@[simp] theorem clearSt_regs (s : State) : (s.clearSt).regs = s.regs := rfl
@[simp] theorem clearSt_st (s : State) : (s.clearSt).st = Grid.zero := rfl
@[simp] theorem clearSt_ibuf (s : State) : (s.clearSt).ibuf = s.ibuf := rfl
@[simp] theorem clearSt_obuf (s : State) : (s.clearSt).obuf = s.obuf := rfl
@[simp] theorem clearSt_ilen (s : State) : (s.clearSt).ilen = s.ilen := rfl
@[simp] theorem clearSt_obits (s : State) : (s.clearSt).obits = s.obits := rfl
@[simp] theorem clearSt_olen (s : State) : (s.clearSt).olen = s.olen := rfl
@[simp] theorem clearSt_result (s : State) : (s.clearSt).result = s.result := rfl
@[simp] theorem clearSt_fault (s : State) : (s.clearSt).fault = s.fault := rfl
@[simp] theorem clearSt_faultInfo (s : State) : (s.clearSt).faultInfo = s.faultInfo := rfl
@[simp] theorem clearSt_cfg (s : State) : (s.clearSt).cfg = s.cfg := rfl
@[simp] theorem clearSt_txns (s : State) : (s.clearSt).txns = s.txns := rfl
@[simp] theorem clearSt_pc (s : State) : (s.clearSt).pc = s.pc := rfl
@[simp] theorem clearSt_returned (s : State) : (s.clearSt).returned = s.returned := rfl

/-! ### `finish` -/

@[simp] theorem finish_regs (code : ResultCode) (s : State) : (finish code s).regs = s.regs := rfl
@[simp] theorem finish_st (code : ResultCode) (s : State) : (finish code s).st = s.st := rfl
@[simp] theorem finish_ibuf (code : ResultCode) (s : State) : (finish code s).ibuf = s.ibuf := rfl
@[simp] theorem finish_obuf (code : ResultCode) (s : State) : (finish code s).obuf = s.obuf := rfl
@[simp] theorem finish_ilen (code : ResultCode) (s : State) : (finish code s).ilen = s.ilen := rfl
@[simp] theorem finish_obits (code : ResultCode) (s : State) : (finish code s).obits = s.obits := rfl
@[simp] theorem finish_olen (code : ResultCode) (s : State) : (finish code s).olen = s.olen := rfl
@[simp] theorem finish_result (code : ResultCode) (s : State) : (finish code s).result = code.number := rfl
@[simp] theorem finish_fault (code : ResultCode) (s : State) : (finish code s).fault = s.fault := rfl
@[simp] theorem finish_faultInfo (code : ResultCode) (s : State) : (finish code s).faultInfo = s.faultInfo := rfl
@[simp] theorem finish_cfg (code : ResultCode) (s : State) : (finish code s).cfg = s.cfg := rfl
@[simp] theorem finish_txns (code : ResultCode) (s : State) : (finish code s).txns = s.txns := rfl
@[simp] theorem finish_pc (code : ResultCode) (s : State) : (finish code s).pc = s.pc := rfl
@[simp] theorem finish_returned (code : ResultCode) (s : State) : (finish code s).returned = s.returned := rfl

/-! ### `resetBlock` -/

@[simp] theorem resetBlock_regs (s : State) : (resetBlock s).regs = Vector.replicate 16 0 := rfl
@[simp] theorem resetBlock_st (s : State) : (resetBlock s).st = Grid.zero := rfl
@[simp] theorem resetBlock_ibuf (s : State) : (resetBlock s).ibuf = [] := rfl
@[simp] theorem resetBlock_obuf (s : State) : (resetBlock s).obuf = [] := rfl
@[simp] theorem resetBlock_ilen (s : State) : (resetBlock s).ilen = 0 := rfl
@[simp] theorem resetBlock_obits (s : State) : (resetBlock s).obits = 0 := rfl
@[simp] theorem resetBlock_olen (s : State) : (resetBlock s).olen = 0 := rfl
@[simp] theorem resetBlock_result (s : State) : (resetBlock s).result = 0 := rfl
@[simp] theorem resetBlock_fault (s : State) : (resetBlock s).fault = 0 := rfl
@[simp] theorem resetBlock_faultInfo (s : State) : (resetBlock s).faultInfo = 0 := rfl
@[simp] theorem resetBlock_cfg (s : State) : (resetBlock s).cfg = s.cfg := rfl
@[simp] theorem resetBlock_txns (s : State) : (resetBlock s).txns = s.txns := rfl
@[simp] theorem resetBlock_pc (s : State) : (resetBlock s).pc = s.pc := rfl
@[simp] theorem resetBlock_returned (s : State) : (resetBlock s).returned = s.returned := rfl

/-! ### `xofCommand` -/

@[simp] theorem xofCommand_regs (ds : Byte) (bits : Nat) (s : State) : (xofCommand ds bits s).regs = s.regs := rfl
@[simp] theorem xofCommand_st (ds : Byte) (bits : Nat) (s : State) : (xofCommand ds bits s).st = Grid.zero := rfl
@[simp] theorem xofCommand_ibuf (ds : Byte) (bits : Nat) (s : State) : (xofCommand ds bits s).ibuf = s.ibuf := rfl
@[simp] theorem xofCommand_obuf (ds : Byte) (bits : Nat) (s : State) : (xofCommand ds bits s).obuf = s.obuf.writeBytes 0 (sponge s.msg s.cfg.capXof ds bits) := rfl
@[simp] theorem xofCommand_ilen (ds : Byte) (bits : Nat) (s : State) : (xofCommand ds bits s).ilen = s.ilen := rfl
@[simp] theorem xofCommand_obits (ds : Byte) (bits : Nat) (s : State) : (xofCommand ds bits s).obits = s.obits := rfl
@[simp] theorem xofCommand_olen (ds : Byte) (bits : Nat) (s : State) : (xofCommand ds bits s).olen = BitVec.ofNat 32 (sponge s.msg s.cfg.capXof ds bits).length := rfl
@[simp] theorem xofCommand_result (ds : Byte) (bits : Nat) (s : State) : (xofCommand ds bits s).result = 0 := rfl
@[simp] theorem xofCommand_fault (ds : Byte) (bits : Nat) (s : State) : (xofCommand ds bits s).fault = s.fault := rfl
@[simp] theorem xofCommand_faultInfo (ds : Byte) (bits : Nat) (s : State) : (xofCommand ds bits s).faultInfo = s.faultInfo := rfl
@[simp] theorem xofCommand_cfg (ds : Byte) (bits : Nat) (s : State) : (xofCommand ds bits s).cfg = s.cfg := rfl
@[simp] theorem xofCommand_txns (ds : Byte) (bits : Nat) (s : State) : (xofCommand ds bits s).txns = s.txns := rfl
@[simp] theorem xofCommand_pc (ds : Byte) (bits : Nat) (s : State) : (xofCommand ds bits s).pc = s.pc := rfl
@[simp] theorem xofCommand_returned (ds : Byte) (bits : Nat) (s : State) : (xofCommand ds bits s).returned = s.returned := rfl

/-! ### `writeSignature` -/

@[simp] theorem writeSignature_regs (rh rs : Reg) (sig : Nat × Nat) (s : State) : (writeSignature rh rs sig s).regs = (s.regs.set rh (BitVec.ofNat 528 sig.1)).set rs (BitVec.ofNat 528 sig.2) := rfl
@[simp] theorem writeSignature_st (rh rs : Reg) (sig : Nat × Nat) (s : State) : (writeSignature rh rs sig s).st = Grid.zero := rfl
@[simp] theorem writeSignature_ibuf (rh rs : Reg) (sig : Nat × Nat) (s : State) : (writeSignature rh rs sig s).ibuf = s.ibuf := rfl
@[simp] theorem writeSignature_obuf (rh rs : Reg) (sig : Nat × Nat) (s : State) : (writeSignature rh rs sig s).obuf = s.obuf := rfl
@[simp] theorem writeSignature_ilen (rh rs : Reg) (sig : Nat × Nat) (s : State) : (writeSignature rh rs sig s).ilen = s.ilen := rfl
@[simp] theorem writeSignature_obits (rh rs : Reg) (sig : Nat × Nat) (s : State) : (writeSignature rh rs sig s).obits = s.obits := rfl
@[simp] theorem writeSignature_olen (rh rs : Reg) (sig : Nat × Nat) (s : State) : (writeSignature rh rs sig s).olen = s.olen := rfl
@[simp] theorem writeSignature_result (rh rs : Reg) (sig : Nat × Nat) (s : State) : (writeSignature rh rs sig s).result = 0 := rfl
@[simp] theorem writeSignature_fault (rh rs : Reg) (sig : Nat × Nat) (s : State) : (writeSignature rh rs sig s).fault = s.fault := rfl
@[simp] theorem writeSignature_faultInfo (rh rs : Reg) (sig : Nat × Nat) (s : State) : (writeSignature rh rs sig s).faultInfo = s.faultInfo := rfl
@[simp] theorem writeSignature_cfg (rh rs : Reg) (sig : Nat × Nat) (s : State) : (writeSignature rh rs sig s).cfg = s.cfg := rfl
@[simp] theorem writeSignature_txns (rh rs : Reg) (sig : Nat × Nat) (s : State) : (writeSignature rh rs sig s).txns = s.txns := rfl
@[simp] theorem writeSignature_pc (rh rs : Reg) (sig : Nat × Nat) (s : State) : (writeSignature rh rs sig s).pc = s.pc := rfl
@[simp] theorem writeSignature_returned (rh rs : Reg) (sig : Nat × Nat) (s : State) : (writeSignature rh rs sig s).returned = s.returned := rfl

/-! ### `advance` -/

@[simp] theorem advance_regs (s : State) : (s.advance).regs = s.regs := rfl
@[simp] theorem advance_st (s : State) : (s.advance).st = s.st := rfl
@[simp] theorem advance_ibuf (s : State) : (s.advance).ibuf = s.ibuf := rfl
@[simp] theorem advance_obuf (s : State) : (s.advance).obuf = s.obuf := rfl
@[simp] theorem advance_ilen (s : State) : (s.advance).ilen = s.ilen := rfl
@[simp] theorem advance_obits (s : State) : (s.advance).obits = s.obits := rfl
@[simp] theorem advance_olen (s : State) : (s.advance).olen = s.olen := rfl
@[simp] theorem advance_result (s : State) : (s.advance).result = s.result := rfl
@[simp] theorem advance_fault (s : State) : (s.advance).fault = s.fault := rfl
@[simp] theorem advance_faultInfo (s : State) : (s.advance).faultInfo = s.faultInfo := rfl
@[simp] theorem advance_cfg (s : State) : (s.advance).cfg = s.cfg := rfl
@[simp] theorem advance_txns (s : State) : (s.advance).txns = s.txns := rfl
@[simp] theorem advance_pc (s : State) : (s.advance).pc = s.pc + 1 := rfl
@[simp] theorem advance_returned (s : State) : (s.advance).returned = s.returned := rfl

/-! ### `begin` -/

@[simp] theorem begin_regs (s : State) : (s.begin).regs = s.regs := rfl
@[simp] theorem begin_st (s : State) : (s.begin).st = s.st := rfl
@[simp] theorem begin_ibuf (s : State) : (s.begin).ibuf = s.ibuf := rfl
@[simp] theorem begin_obuf (s : State) : (s.begin).obuf = s.obuf := rfl
@[simp] theorem begin_ilen (s : State) : (s.begin).ilen = s.ilen := rfl
@[simp] theorem begin_obits (s : State) : (s.begin).obits = s.obits := rfl
@[simp] theorem begin_olen (s : State) : (s.begin).olen = s.olen := rfl
@[simp] theorem begin_result (s : State) : (s.begin).result = s.result := rfl
@[simp] theorem begin_fault (s : State) : (s.begin).fault = s.fault := rfl
@[simp] theorem begin_faultInfo (s : State) : (s.begin).faultInfo = s.faultInfo := rfl
@[simp] theorem begin_cfg (s : State) : (s.begin).cfg = s.cfg := rfl
@[simp] theorem begin_txns (s : State) : (s.begin).txns = s.txns := rfl
@[simp] theorem begin_pc (s : State) : (s.begin).pc = s.pc := rfl
@[simp] theorem begin_returned (s : State) : (s.begin).returned = none := rfl

/-! ### `raiseFault` -/

@[simp] theorem raiseFault_regs (code : FaultCode) (info : Word) (s : State) : (raiseFault code info s).regs = s.regs := by
  unfold raiseFault; split <;> rfl
@[simp] theorem raiseFault_st (code : FaultCode) (info : Word) (s : State) : (raiseFault code info s).st = s.st := by
  unfold raiseFault; split <;> rfl
@[simp] theorem raiseFault_ibuf (code : FaultCode) (info : Word) (s : State) : (raiseFault code info s).ibuf = s.ibuf := by
  unfold raiseFault; split <;> rfl
@[simp] theorem raiseFault_obuf (code : FaultCode) (info : Word) (s : State) : (raiseFault code info s).obuf = s.obuf := by
  unfold raiseFault; split <;> rfl
@[simp] theorem raiseFault_ilen (code : FaultCode) (info : Word) (s : State) : (raiseFault code info s).ilen = s.ilen := by
  unfold raiseFault; split <;> rfl
@[simp] theorem raiseFault_obits (code : FaultCode) (info : Word) (s : State) : (raiseFault code info s).obits = s.obits := by
  unfold raiseFault; split <;> rfl
@[simp] theorem raiseFault_olen (code : FaultCode) (info : Word) (s : State) : (raiseFault code info s).olen = s.olen := by
  unfold raiseFault; split <;> rfl
@[simp] theorem raiseFault_result (code : FaultCode) (info : Word) (s : State) : (raiseFault code info s).result = s.result := by
  unfold raiseFault; split <;> rfl
@[simp] theorem raiseFault_cfg (code : FaultCode) (info : Word) (s : State) : (raiseFault code info s).cfg = s.cfg := by
  unfold raiseFault; split <;> rfl
@[simp] theorem raiseFault_txns (code : FaultCode) (info : Word) (s : State) : (raiseFault code info s).txns = s.txns := by
  unfold raiseFault; split <;> rfl
@[simp] theorem raiseFault_pc (code : FaultCode) (info : Word) (s : State) : (raiseFault code info s).pc = s.pc := by
  unfold raiseFault; split <;> rfl
@[simp] theorem raiseFault_returned (code : FaultCode) (info : Word) (s : State) : (raiseFault code info s).returned = s.returned := by
  unfold raiseFault; split <;> rfl

/-- What raising a fault does when none is recorded (R274). -/
theorem raiseFault_of_noFault (code : FaultCode) (info : Word) {s : State} (h : s.fault = 0) :
    raiseFault code info s = { s with fault := code.number, faultInfo := info } := if_pos h

/-- Raising a fault changes nothing when one is recorded (R274). -/
theorem raiseFault_of_fault (code : FaultCode) (info : Word) {s : State} (h : s.fault ≠ 0) :
    raiseFault code info s = s := if_neg h

end Sys2Proof.Machine
end

