-- ==== Sys2Proof/Laws/Ops.lean ====
section
/-! SUPPORT. What the shared operations over registers, buffers and the bus do. -/

namespace Sys2Proof.Machine

/-! ### Registers -/

theorem regs_get_set (v : Vector Big 16) (i k : Reg) (b : Big) :
    (v.set i b).get k = if k = i then b else v.get k := by
  change (v.set i b)[k.val] = if k = i then b else v[k.val]
  rw [Vector.getElem_set]
  simp only [Fin.ext_iff, eq_comm]

theorem reg_setReg (s : State) (i k : Reg) (v : Nat) :
    (s.setReg i v).reg k = if k = i then v % 2 ^ 528 else s.reg k := by
  unfold State.reg
  rw [setReg_regs, regs_get_set]
  split
  · exact BitVec.toNat_ofNat v 528
  · rfl

theorem pointX_ne_pointY (j : PointReg) : pointX j ≠ pointY j := by
  simp only [pointX, pointY, ne_eq, Fin.ext_iff]
  omega

theorem pointX_injective {j k : PointReg} (h : pointX j = pointX k) : j = k := by
  simp only [pointX, Fin.ext_iff] at h ⊢
  omega

/-- Every register of a state is below `2^528`. -/
theorem reg_lt (s : State) (i : Reg) : s.reg i < 2 ^ 528 := (s.regs.get i).isLt

/-! ### Buffers: reading after writing -/

theorem memory_read_insert (m : Memory) (j k : Nat) (v : Byte) :
    (Memory.insert m j v).read k = if k = j then v else m.read k := by
  induction m with
  | nil => simp [Memory.insert, Memory.read]
  | cons cell rest ih =>
    obtain ⟨n, b⟩ := cell
    simp only [Memory.insert]
    split
    · simp only [Memory.read]
    · split
      · rename_i hjn
        simp only [Memory.read, hjn]
        split <;> rfl
      · simp only [Memory.read, ih]
        split
        · rename_i h1 h2 h3
          rw [if_neg (by omega)]
        · rfl

/-- Every listed offset is above `n`. -/
def Memory.above (m : Memory) (n : Nat) : Prop := ∀ cell ∈ m, n < cell.1

theorem memory_read_above {m : Memory} {n k : Nat} (h : m.above n) (hk : k ≤ n) : m.read k = 0 := by
  induction m with
  | nil => rfl
  | cons cell rest ih =>
    obtain ⟨a, b⟩ := cell
    have ha : n < a := h (a, b) List.mem_cons_self
    simp only [Memory.read]
    rw [if_neg (by omega)]
    exact ih fun c hc => h c (List.mem_cons_of_mem _ hc)

/-- What the canonical form of a nonempty list says of its head and of its tail. -/
theorem memory_wf_cons {a : Nat} {b : Byte} {rest : Memory} {size : Nat} :
    Memory.wf ((a, b) :: rest) size = true ↔
      a < size ∧ b ≠ 0 ∧ Memory.above rest a ∧ Memory.wf rest size = true := by
  simp only [Memory.wf, Memory.above, List.pairwise_cons, List.all_cons, Bool.and_eq_true, decide_eq_true_eq, bne_iff_ne,
    Prod.forall]
  constructor
  · rintro ⟨⟨h1, h2⟩, ⟨h3, h4⟩, h5⟩
    exact ⟨h3, h4, h1, h2, h5⟩
  · rintro ⟨h3, h4, h1, h2, h5⟩
    exact ⟨⟨h1, h2⟩, ⟨h3, h4⟩, h5⟩

theorem memory_read_erase (m : Memory) (j k : Nat) : (m.erase j).read k = if k = j then 0 else m.read k := by
  induction m with
  | nil => simp [Memory.erase, Memory.read]
  | cons cell rest ih =>
    obtain ⟨a, b⟩ := cell
    simp only [Memory.erase]
    split
    · rename_i hja
      rw [ih, hja]
      simp only [Memory.read]
      split <;> rfl
    · simp only [Memory.read, ih]
      split
      · rw [if_neg (by omega)]
      · rfl

/-- Reading after writing one byte. -/
theorem memory_read_write (m : Memory) (j k : Nat) (v : Byte) :
    (m.write j v).read k = if k = j then v else m.read k := by
  unfold Memory.write
  split
  · rename_i hv
    rw [memory_read_erase, hv]
  · exact memory_read_insert m j k v

/-- Reading after writing a byte string: inside the string its byte, elsewhere the old one. -/
theorem memory_read_writeBytes (m : Memory) (j k : Nat) (bs : List Byte) :
    (m.writeBytes j bs).read k = if j ≤ k then (bs[k - j]?).getD (m.read k) else m.read k := by
  induction bs generalizing m j with
  | nil => simp [Memory.writeBytes]
  | cons b rest ih =>
    simp only [Memory.writeBytes, ih, memory_read_write]
    rcases Nat.lt_trichotomy k j with h | h | h
    · rw [if_neg (show ¬j + 1 ≤ k by omega), if_neg (show ¬k = j by omega), if_neg (show ¬j ≤ k by omega)]
    · subst h
      rw [if_neg (show ¬k + 1 ≤ k by omega)]
      simp
    · rw [if_pos (show j + 1 ≤ k by omega), if_neg (show ¬k = j by omega), if_pos (show j ≤ k by omega),
        show k - j = (k - (j + 1)) + 1 by omega, List.getElem?_cons_succ]

/-- The bytes read from a buffer, one by one. -/
theorem memory_readBytes_getElem? (m : Memory) (n k : Nat) :
    (m.readBytes n)[k]? = if k < n then some (m.read k) else none := by
  by_cases h : k < n <;> simp [Memory.readBytes, h]

/-! ### Buffers: the canonical form is kept -/

theorem memory_above_erase {m : Memory} {n : Nat} (h : m.above n) (j : Nat) : (m.erase j).above n := by
  induction m with
  | nil => exact h
  | cons cell rest ih =>
    obtain ⟨a, b⟩ := cell
    have hr : Memory.above rest n := fun c hc => h c (List.mem_cons_of_mem _ hc)
    simp only [Memory.erase]
    split
    · exact ih hr
    · intro c hc
      rcases List.mem_cons.1 hc with rfl | hc
      · exact h _ List.mem_cons_self
      · exact ih hr c hc

theorem memory_above_insert {m : Memory} {n j : Nat} (h : m.above n) (hj : n < j) (v : Byte) :
    (m.insert j v).above n := by
  induction m with
  | nil =>
    intro c hc
    rcases List.mem_cons.1 hc with rfl | hc
    · exact hj
    · cases hc
  | cons cell rest ih =>
    obtain ⟨a, b⟩ := cell
    have hr : Memory.above rest n := fun c hc => h c (List.mem_cons_of_mem _ hc)
    have ha : n < a := h _ List.mem_cons_self
    simp only [Memory.insert]
    split
    · intro c hc
      rcases List.mem_cons.1 hc with rfl | hc
      · exact hj
      · exact h c hc
    · split
      · intro c hc
        rcases List.mem_cons.1 hc with rfl | hc
        · exact hj
        · exact hr c hc
      · intro c hc
        rcases List.mem_cons.1 hc with rfl | hc
        · exact ha
        · exact ih hr c hc

theorem memory_wf_erase {m : Memory} {size : Nat} (h : m.wf size = true) (j : Nat) : (m.erase j).wf size = true := by
  induction m with
  | nil => exact h
  | cons cell rest ih =>
    obtain ⟨a, b⟩ := cell
    obtain ⟨ha, hb, hab, hw⟩ := memory_wf_cons.1 h
    simp only [Memory.erase]
    split
    · exact ih hw
    · exact memory_wf_cons.2 ⟨ha, hb, memory_above_erase hab j, ih hw⟩

theorem memory_wf_insert {m : Memory} {size j : Nat} {v : Byte} (h : m.wf size = true) (hj : j < size) (hv : v ≠ 0) :
    (m.insert j v).wf size = true := by
  induction m with
  | nil => exact memory_wf_cons.2 ⟨hj, hv, fun _ hc => (List.not_mem_nil hc).elim, h⟩
  | cons cell rest ih =>
    obtain ⟨a, b⟩ := cell
    obtain ⟨ha, hb, hab, hw⟩ := memory_wf_cons.1 h
    simp only [Memory.insert]
    split
    · rename_i hja
      refine memory_wf_cons.2 ⟨hj, hv, fun c hc => ?_, h⟩
      rcases List.mem_cons.1 hc with rfl | hc
      · exact hja
      · exact Nat.lt_trans hja (hab c hc)
    · split
      · rename_i hja
        exact memory_wf_cons.2 ⟨hj, hv, hja ▸ hab, hw⟩
      · exact memory_wf_cons.2 ⟨ha, hb, memory_above_insert hab (by omega) v, ih hw⟩

/-- Writing a byte inside the buffer keeps the canonical form. -/
theorem memory_wf_write {m : Memory} {size j : Nat} (h : m.wf size = true) (hj : j < size) (v : Byte) :
    (m.write j v).wf size = true := by
  unfold Memory.write
  split
  · exact memory_wf_erase h j
  · rename_i hv
    exact memory_wf_insert h hj hv

/-- Writing a byte string inside the buffer keeps the canonical form. -/
theorem memory_wf_writeBytes {m : Memory} {size j : Nat} {bs : List Byte} (h : m.wf size = true)
    (hj : j + bs.length ≤ size) : (m.writeBytes j bs).wf size = true := by
  induction bs generalizing m j with
  | nil => exact h
  | cons b rest ih =>
    simp only [List.length_cons] at hj
    exact ih (memory_wf_write h (by omega) b) (by omega)

/-- The buffers of the reset state have the canonical form. -/
theorem reset_buffers_wf :
    State.reset.ibuf.wf State.reset.cfg.ibufSize = true ∧ State.reset.obuf.wf State.reset.cfg.obufSize = true :=
  ⟨rfl, rfl⟩

/-- Two buffers in canonical form that read alike are equal data. -/
theorem memory_ext {m₁ m₂ : Memory} {size : Nat} (h₁ : m₁.wf size = true) (h₂ : m₂.wf size = true)
    (h : ∀ j, m₁.read j = m₂.read j) : m₁ = m₂ := by
  induction m₁ generalizing m₂ with
  | nil =>
    cases m₂ with
    | nil => rfl
    | cons cell rest =>
      obtain ⟨a, b⟩ := cell
      obtain ⟨-, hb, -, -⟩ := memory_wf_cons.1 h₂
      have := h a
      simp only [Memory.read, if_true] at this
      exact absurd this.symm hb
  | cons cell rest ih =>
    obtain ⟨a, b⟩ := cell
    obtain ⟨-, hb, hab, hw⟩ := memory_wf_cons.1 h₁
    cases m₂ with
    | nil =>
      have := h a
      simp only [Memory.read, if_true] at this
      exact absurd this hb
    | cons cell' rest' =>
      obtain ⟨a', b'⟩ := cell'
      obtain ⟨-, hb', hab', hw'⟩ := memory_wf_cons.1 h₂
      have haa : a = a' := by
        rcases Nat.lt_trichotomy a a' with hlt | heq | hgt
        · have := h a
          simp only [Memory.read, if_true] at this
          rw [if_neg (by omega), memory_read_above hab' (by omega)] at this
          exact absurd this hb
        · exact heq
        · have := h a'
          simp only [Memory.read, if_true] at this
          rw [if_neg (by omega), memory_read_above hab (by omega)] at this
          exact absurd this.symm hb'
      subst haa
      have hbb : b = b' := by
        have := h a
        simpa only [Memory.read, if_true] using this
      subst hbb
      rw [ih hw hw' fun j => ?_]
      by_cases hj : j = a
      · rw [hj, memory_read_above hab (Nat.le_refl a), memory_read_above hab' (Nat.le_refl a)]
      · have := h j
        simpa only [Memory.read, if_neg hj] using this

/-! ### Lanes -/

/-- The lane of a grid given by its lanes. -/
theorem lane_ofLanes (f : Nat → Nat → Lane) {x y : Nat} (hx : x < 5) (hy : y < 5) : (Grid.ofLanes f).lane x y = f x y := by
  rcases x with _ | _ | _ | _ | _ | x <;> first | omega | skip
  all_goals rcases y with _ | _ | _ | _ | _ | y <;> first | omega | rfl

/-- Lane indices count modulo 5 (R110). -/
theorem lane_mod (a : Grid) (x y : Nat) : a.lane (x % 5) (y % 5) = a.lane x y := by
  simp only [Grid.lane, Plane.at, Nat.mod_mod]

/-- Two grids with equal lanes are equal. -/
theorem grid_ext {a b : Grid} (h : ∀ x y, x < 5 → y < 5 → a.lane x y = b.lane x y) : a = b := by
  obtain ⟨⟨a00, a10, a20, a30, a40⟩, ⟨a01, a11, a21, a31, a41⟩, ⟨a02, a12, a22, a32, a42⟩, ⟨a03, a13, a23, a33, a43⟩,
    ⟨a04, a14, a24, a34, a44⟩⟩ := a
  obtain ⟨⟨b00, b10, b20, b30, b40⟩, ⟨b01, b11, b21, b31, b41⟩, ⟨b02, b12, b22, b32, b42⟩, ⟨b03, b13, b23, b33, b43⟩,
    ⟨b04, b14, b24, b34, b44⟩⟩ := b
  have row (y : Nat) (hy : y < 5) :=
    And.intro (h 0 y (by omega) hy) (And.intro (h 1 y (by omega) hy) (And.intro (h 2 y (by omega) hy)
      (And.intro (h 3 y (by omega) hy) (h 4 y (by omega) hy))))
  obtain ⟨rfl, rfl, rfl, rfl, rfl⟩ := row 0 (by omega)
  obtain ⟨rfl, rfl, rfl, rfl, rfl⟩ := row 1 (by omega)
  obtain ⟨rfl, rfl, rfl, rfl, rfl⟩ := row 2 (by omega)
  obtain ⟨rfl, rfl, rfl, rfl, rfl⟩ := row 3 (by omega)
  obtain ⟨rfl, rfl, rfl, rfl, rfl⟩ := row 4 (by omega)
  rfl

end Sys2Proof.Machine
end

