-- ==== Sys2Proof/Laws/PerInstr.lean ====
section
/-! SUPPORT. The family EncodesItsRow: the word of a well-formed command is accepted by the command's own row of R84. -/

namespace Sys2Proof.Laws

/-- The row of R84 whose command this is. -/
def rowOf : Instr → Row
  | .keccakF => ⟨.keccakF, 0x01000000, 0xFFFFFFFF⟩
  | .absorb _ _ => ⟨.absorb, 0x02000000, 0xFF00F800⟩
  | .squeeze _ => ⟨.squeeze, 0x03000000, 0xFFFFF800⟩
  | .hash => ⟨.hash, 0x10000000, 0xFFFFFFFF⟩
  | .kdf => ⟨.kdf, 0x11000000, 0xFFFFFFFF⟩
  | .mac => ⟨.mac, 0x12000000, 0xFFFFFFFF⟩
  | .fmul _ _ _ => ⟨.fmul, 0x20000000, 0xFF000FFF⟩
  | .finv _ _ => ⟨.finv, 0x21000000, 0xFF00FFFF⟩
  | .padd _ _ _ => ⟨.padd, 0x30000000, 0xFF111FFF⟩
  | .pdbl _ _ => ⟨.pdbl, 0x31000000, 0xFF11FFFF⟩
  | .pmul _ _ _ => ⟨.pmul, 0x32000000, 0xFF101FFF⟩
  | .sign _ _ _ => ⟨.sign, 0x40000000, 0xFF000FFF⟩
  | .signX _ _ _ _ => ⟨.signX, 0x40000001, 0xFF0000FF⟩
  | .verify _ _ _ => ⟨.verify, 0x41000000, 0xFF001FFF⟩

theorem rowOf_mem (i : Instr) : rowOf i ∈ opcodeTable := by
  cases i <;> simp only [rowOf, opcodeTable, List.mem_cons, true_or, or_true]

/-- A field below `2^width` placed at bit `lo` touches no bit of a mask that is 0 there. -/
theorem placed_and_mask {v width : Nat} (hv : v < 2 ^ width) (lo : Nat) (mask : Word)
    (hmask : (BitVec.ofNat 32 (2 ^ width - 1) <<< lo) &&& mask = 0) : placed v lo &&& mask = 0 := by
  apply BitVec.eq_of_getLsbD_eq
  intro k hk
  have hk0 := congrArg (fun w : Word => w.getLsbD k) hmask
  simp only [BitVec.getLsbD_and, BitVec.getLsbD_shiftLeft, BitVec.getLsbD_ofNat, Nat.testBit_two_pow_sub_one,
    placed, BitVec.ofNat_eq_ofNat] at hk0 ⊢
  by_cases hw : k - lo < width
  · cases hm : mask.getLsbD k
    · simp
    · simp_all
  · have : v.testBit (k - lo) = false :=
      Nat.testBit_lt_two_pow (Nat.lt_of_lt_of_le hv (Nat.pow_le_pow_right (by omega) (by omega)))
    simp [this]

theorem reg_and_mask (r : Reg) (lo : Nat) (mask : Word) (hmask : (0xF#32 <<< lo) &&& mask = 0) :
    placed r lo &&& mask = 0 := placed_and_mask (width := 4) r.isLt lo mask hmask

theorem point_and_mask (p : PointReg) (lo : Nat) (mask : Word) (hmask : (0xE#32 <<< lo) &&& mask = 0) :
    placed (pointValue p) lo &&& mask = 0 := by
  have heq : placed (pointValue p) lo = placed (p : Nat) (lo + 1) := by
    unfold placed pointValue
    rw [Nat.add_comm lo 1, BitVec.shiftLeft_add]
    congr 1
    apply BitVec.eq_of_toNat_eq
    simp only [BitVec.toNat_ofNat, BitVec.toNat_shiftLeft, Nat.shiftLeft_eq]
    omega
  rw [heq]
  refine placed_and_mask (width := 3) p.isLt (lo + 1) mask ?_
  rw [← hmask, Nat.add_comm lo 1, BitVec.shiftLeft_add]
  congr 1

namespace EncodesItsRow

/-- The command's own row accepts its word. -/
def Statement (i : Instr) : Prop := i.wellFormed = true → (rowOf i).accepts (encode i) = true

theorem keccakF : Statement .keccakF := fun _ => by decide
theorem hash : Statement .hash := fun _ => by decide
theorem kdf : Statement .kdf := fun _ => by decide
theorem mac : Statement .mac := fun _ => by decide

theorem absorb (cap : Nat) (ds : Byte) : Statement (.absorb cap ds) := fun h => by
  have hcap : cap < 2 ^ 11 := by simpa [Instr.wellFormed] using h
  simp only [rowOf, Row.accepts, encode, BitVec.and_or_distrib_right, beq_iff_eq,
    placed_and_mask (width := 8) ds.isLt 16 0xFF00F800 (by decide), placed_and_mask hcap 0 0xFF00F800 (by decide)]
  decide

theorem squeeze (rate : Nat) : Statement (.squeeze rate) := fun h => by
  have hrate : rate < 2 ^ 11 := by simpa [Instr.wellFormed] using h
  simp only [rowOf, Row.accepts, encode, BitVec.and_or_distrib_right, beq_iff_eq,
    placed_and_mask hrate 0 0xFFFFF800 (by decide)]
  decide

theorem fmul (rd ra rb : Reg) : Statement (.fmul rd ra rb) := fun _ => by
  simp only [rowOf, Row.accepts, encode, BitVec.and_or_distrib_right, beq_iff_eq, reg_and_mask rd 20 0xFF000FFF (by decide),
    reg_and_mask ra 16 0xFF000FFF (by decide), reg_and_mask rb 12 0xFF000FFF (by decide)]
  decide

theorem finv (rd ra : Reg) : Statement (.finv rd ra) := fun _ => by
  simp only [rowOf, Row.accepts, encode, BitVec.and_or_distrib_right, beq_iff_eq, reg_and_mask rd 20 0xFF00FFFF (by decide),
    reg_and_mask ra 16 0xFF00FFFF (by decide)]
  decide

theorem padd (pd pa pb : PointReg) : Statement (.padd pd pa pb) := fun _ => by
  simp only [rowOf, Row.accepts, encode, BitVec.and_or_distrib_right, beq_iff_eq,
    point_and_mask pd 20 0xFF111FFF (by decide), point_and_mask pa 16 0xFF111FFF (by decide),
    point_and_mask pb 12 0xFF111FFF (by decide)]
  decide

theorem pdbl (pd pa : PointReg) : Statement (.pdbl pd pa) := fun _ => by
  simp only [rowOf, Row.accepts, encode, BitVec.and_or_distrib_right, beq_iff_eq,
    point_and_mask pd 20 0xFF11FFFF (by decide), point_and_mask pa 16 0xFF11FFFF (by decide)]
  decide

theorem pmul (pd : PointReg) (rk : Reg) (pa : PointReg) : Statement (.pmul pd rk pa) := fun _ => by
  simp only [rowOf, Row.accepts, encode, BitVec.and_or_distrib_right, beq_iff_eq,
    point_and_mask pd 20 0xFF101FFF (by decide), reg_and_mask rk 16 0xFF101FFF (by decide),
    point_and_mask pa 12 0xFF101FFF (by decide)]
  decide

theorem sign (rh rs rd : Reg) : Statement (.sign rh rs rd) := fun _ => by
  simp only [rowOf, Row.accepts, encode, BitVec.and_or_distrib_right, beq_iff_eq, reg_and_mask rh 20 0xFF000FFF (by decide),
    reg_and_mask rs 16 0xFF000FFF (by decide), reg_and_mask rd 12 0xFF000FFF (by decide)]
  decide

theorem signX (rh rs rd rk : Reg) : Statement (.signX rh rs rd rk) := fun _ => by
  simp only [rowOf, Row.accepts, encode, BitVec.and_or_distrib_right, beq_iff_eq, reg_and_mask rh 20 0xFF0000FF (by decide),
    reg_and_mask rs 16 0xFF0000FF (by decide), reg_and_mask rd 12 0xFF0000FF (by decide),
    reg_and_mask rk 8 0xFF0000FF (by decide)]
  decide

theorem verify (rh rs : Reg) (pv : PointReg) : Statement (.verify rh rs pv) := fun _ => by
  simp only [rowOf, Row.accepts, encode, BitVec.and_or_distrib_right, beq_iff_eq, reg_and_mask rh 20 0xFF001FFF (by decide),
    reg_and_mask rs 16 0xFF001FFF (by decide), point_and_mask pv 12 0xFF001FFF (by decide)]
  decide

end EncodesItsRow

end Sys2Proof.Laws
end

