-- ==== Sys2Proof/Laws/Step.lean ====
section
/-! SUPPORT. What the meanings, a transaction and a step can answer. -/

namespace Sys2Proof.Machine

/-- A meaning answers the state of a raised fault, or a completed state. -/
theorem execAbsorb_cases (cap : Nat) (ds : Byte) (s : State) :
    (absorbBadParam cap ds = true ∧ execAbsorb cap ds s = .next (raiseFault .badParam (encode (.absorb cap ds)) s))
    ∨ (absorbBadParam cap ds = false ∧ s.messageTooLong = true
        ∧ execAbsorb cap ds s = .next (raiseFault .lenRange (encode (.absorb cap ds)) s))
    ∨ (absorbBadParam cap ds = false ∧ s.messageTooLong = false
        ∧ execAbsorb cap ds s = .next (finish .ok { s with st := absorb s.msg cap ds })) := by
  unfold execAbsorb
  cases absorbBadParam cap ds <;> cases s.messageTooLong <;> simp

theorem execSqueeze_cases (rate : Nat) (s : State) :
    (squeezeBadParam rate = true ∧ execSqueeze rate s = .next (raiseFault .badParam (encode (.squeeze rate)) s))
    ∨ (squeezeBadParam rate = false ∧ s.outputTooLong = true
        ∧ execSqueeze rate s = .next (raiseFault .lenRange (encode (.squeeze rate)) s))
    ∨ (squeezeBadParam rate = false ∧ s.outputTooLong = false
        ∧ execSqueeze rate s
          = .next (finish .ok { s.writeOutput (squeeze s.st s.obits.toNat rate).1 with
              st := (squeeze s.st s.obits.toNat rate).2 })) := by
  unfold execSqueeze
  cases squeezeBadParam rate <;> cases s.outputTooLong <;> simp

theorem execHash_cases (s : State) :
    (s.messageTooLong = true ∧ execHash s = .next (raiseFault .lenRange (encode .hash) s))
    ∨ (s.messageTooLong = false ∧ execHash s = .next (xofCommand s.cfg.dsHash s.cfg.hashBits s)) := by
  unfold execHash
  cases s.messageTooLong <;> simp

theorem execKdf_cases (s : State) :
    ((s.messageTooLong = true ∨ s.outputTooLong = true) ∧ execKdf s = .next (raiseFault .lenRange (encode .kdf) s))
    ∨ (s.messageTooLong = false ∧ s.outputTooLong = false
        ∧ execKdf s = .next (xofCommand s.cfg.dsKdf s.obits.toNat s)) := by
  unfold execKdf
  cases s.messageTooLong <;> cases s.outputTooLong <;> simp

theorem execMac_cases (s : State) :
    (s.messageTooLong = true ∧ execMac s = .next (raiseFault .lenRange (encode .mac) s))
    ∨ (s.messageTooLong = false ∧ execMac s = .next (xofCommand s.cfg.dsMac s.cfg.tagBits s)) := by
  unfold execMac
  cases s.messageTooLong <;> simp

theorem execFinv_cases (rd ra : Reg) (s : State) :
    (s.fieldOperand ra = 0 ∧ execFinv rd ra s = .next (finish .invalidScalar s))
    ∨ (s.fieldOperand ra ≠ 0
        ∧ execFinv rd ra s = .next (finish .ok (s.setReg rd (invp s.cfg (s.fieldOperand ra))))) := by
  unfold execFinv
  by_cases h : s.fieldOperand ra = 0 <;> simp [h]

/-- What `get_point` answers (R198). -/
theorem getPoint_cases (s : State) (j : PointReg) :
    (onCurve s.cfg (s.coordinates j) = true ∧ s.getPoint j = some (s.coordinates j))
    ∨ (onCurve s.cfg (s.coordinates j) = false ∧ s.getPoint j = none) := by
  unfold State.getPoint
  cases onCurve s.cfg (s.coordinates j) <;> simp

theorem execPadd_cases (pd pa pb : PointReg) (s : State) :
    ((s.getPoint pa = none ∨ s.getPoint pb = none) ∧ execPadd pd pa pb s = .next (finish .malformedPoint s))
    ∨ ∃ a b, s.getPoint pa = some a ∧ s.getPoint pb = some b
        ∧ execPadd pd pa pb s = .next (finish .ok (s.setPoint pd (ptAdd s.cfg a b))) := by
  unfold execPadd
  cases s.getPoint pa <;> cases s.getPoint pb <;> simp

theorem execPdbl_cases (pd pa : PointReg) (s : State) :
    (s.getPoint pa = none ∧ execPdbl pd pa s = .next (finish .malformedPoint s))
    ∨ ∃ a, s.getPoint pa = some a
        ∧ execPdbl pd pa s = .next (finish .ok (s.setPoint pd (ptDbl s.cfg a))) := by
  unfold execPdbl
  cases s.getPoint pa <;> simp

theorem execPmul_cases (pd : PointReg) (rk : Reg) (pa : PointReg) (s : State) :
    (s.getPoint pa = none ∧ execPmul pd rk pa s = .next (finish .malformedPoint s))
    ∨ ∃ a, s.getPoint pa = some a
        ∧ execPmul pd rk pa s = .next (finish .ok (s.setPoint pd (ptMul s.cfg (s.reg rk) a))) := by
  unfold execPmul
  cases s.getPoint pa <;> simp

theorem execSign_cases (rh rs rd : Reg) (s : State) :
    (s.messageTooLong = true ∧ execSign rh rs rd s = .next (raiseFault .lenRange (encode (.sign rh rs rd)) s))
    ∨ (s.messageTooLong = false ∧ keyOutOfRange s.cfg (s.checkedScalar rd) = true
        ∧ execSign rh rs rd s = .next (finish .invalidScalar s))
    ∨ (s.messageTooLong = false ∧ keyOutOfRange s.cfg (s.checkedScalar rd) = false
        ∧ deriveNonce s.cfg (s.checkedScalar rd) s.msg = none
        ∧ execSign rh rs rd s = .next (finish .invalidScalar s.clearSt))
    ∨ ∃ k, s.messageTooLong = false ∧ keyOutOfRange s.cfg (s.checkedScalar rd) = false
        ∧ deriveNonce s.cfg (s.checkedScalar rd) s.msg = some k
        ∧ execSign rh rs rd s = .next (writeSignature rh rs (signCore s.cfg (s.checkedScalar rd) k s.msg) s) := by
  unfold execSign
  cases s.messageTooLong <;> cases keyOutOfRange s.cfg (s.checkedScalar rd) <;>
    cases deriveNonce s.cfg (s.checkedScalar rd) s.msg <;> simp

theorem execSignX_cases (rh rs rd rk : Reg) (s : State) :
    (s.messageTooLong = true ∧ execSignX rh rs rd rk s = .next (raiseFault .lenRange (encode (.signX rh rs rd rk)) s))
    ∨ (s.messageTooLong = false ∧ (keyOutOfRange s.cfg (s.checkedScalar rd) = true ∨ s.multiplierScalar rk = 0)
        ∧ execSignX rh rs rd rk s = .next (finish .invalidScalar s))
    ∨ (s.messageTooLong = false ∧ keyOutOfRange s.cfg (s.checkedScalar rd) = false ∧ s.multiplierScalar rk ≠ 0
        ∧ execSignX rh rs rd rk s
          = .next (writeSignature rh rs (signCore s.cfg (s.checkedScalar rd) (s.multiplierScalar rk) s.msg) s)) := by
  unfold execSignX
  cases s.messageTooLong <;> cases keyOutOfRange s.cfg (s.checkedScalar rd) <;>
    by_cases h : s.multiplierScalar rk = 0 <;> simp [h]

theorem execVerify_cases (rh rs : Reg) (pv : PointReg) (s : State) :
    (s.messageTooLong = true ∧ execVerify rh rs pv s = .next (raiseFault .lenRange (encode (.verify rh rs pv)) s))
    ∨ (s.messageTooLong = false ∧ (s.cfg.r ≤ s.checkedScalar rh ∨ s.cfg.r ≤ s.checkedScalar rs)
        ∧ execVerify rh rs pv s = .next (finish .invalidScalar s))
    ∨ (s.messageTooLong = false ∧ s.checkedScalar rh < s.cfg.r ∧ s.checkedScalar rs < s.cfg.r
        ∧ s.getPoint pv = none ∧ execVerify rh rs pv s = .next (finish .malformedPoint s))
    ∨ ∃ key code, s.messageTooLong = false ∧ s.checkedScalar rh < s.cfg.r ∧ s.checkedScalar rs < s.cfg.r
        ∧ s.getPoint pv = some key
        ∧ code = (if challenge s.cfg (commitment s.cfg (s.checkedScalar rh) (s.checkedScalar rs) key) s.msg
              = s.checkedScalar rh then ResultCode.ok else ResultCode.signatureInvalid)
        ∧ execVerify rh rs pv s = .next (finish code s.clearSt) := by
  unfold execVerify
  cases s.messageTooLong
  · by_cases h : s.cfg.r ≤ s.checkedScalar rh ∨ s.cfg.r ≤ s.checkedScalar rs
    · simp [h]
    · obtain ⟨hh, hs⟩ := not_or.1 h
      cases hp : s.getPoint pv with
      | none => simp [hh, hs, Nat.lt_of_not_le]
      | some key =>
        by_cases hc : challenge s.cfg (commitment s.cfg (s.checkedScalar rh) (s.checkedScalar rs) key) s.msg
            = s.checkedScalar rh <;> simp [hh, hs, hc, Nat.lt_of_not_le]
  · simp

/-- Every command answers a next state. -/
theorem exec_next (i : Instr) (s : State) : ∃ t, exec i s = .next t := by
  cases i with
  | keccakF => exact ⟨_, rfl⟩
  | absorb cap ds => rcases execAbsorb_cases cap ds s with ⟨-, h⟩ | ⟨-, -, h⟩ | ⟨-, -, h⟩ <;> exact ⟨_, h⟩
  | squeeze rate => rcases execSqueeze_cases rate s with ⟨-, h⟩ | ⟨-, -, h⟩ | ⟨-, -, h⟩ <;> exact ⟨_, h⟩
  | hash => rcases execHash_cases s with ⟨-, h⟩ | ⟨-, h⟩ <;> exact ⟨_, h⟩
  | kdf => rcases execKdf_cases s with ⟨-, h⟩ | ⟨-, -, h⟩ <;> exact ⟨_, h⟩
  | mac => rcases execMac_cases s with ⟨-, h⟩ | ⟨-, h⟩ <;> exact ⟨_, h⟩
  | fmul rd ra rb => exact ⟨_, rfl⟩
  | finv rd ra => rcases execFinv_cases rd ra s with ⟨-, h⟩ | ⟨-, h⟩ <;> exact ⟨_, h⟩
  | padd pd pa pb => rcases execPadd_cases pd pa pb s with ⟨-, h⟩ | ⟨_, _, -, -, h⟩ <;> exact ⟨_, h⟩
  | pdbl pd pa => rcases execPdbl_cases pd pa s with ⟨-, h⟩ | ⟨_, -, h⟩ <;> exact ⟨_, h⟩
  | pmul pd rk pa => rcases execPmul_cases pd rk pa s with ⟨-, h⟩ | ⟨_, -, h⟩ <;> exact ⟨_, h⟩
  | sign rh rs rd =>
    rcases execSign_cases rh rs rd s with ⟨-, h⟩ | ⟨-, -, h⟩ | ⟨-, -, -, h⟩ | ⟨_, -, -, -, h⟩ <;> exact ⟨_, h⟩
  | signX rh rs rd rk =>
    rcases execSignX_cases rh rs rd rk s with ⟨-, h⟩ | ⟨-, -, h⟩ | ⟨-, -, -, h⟩ <;> exact ⟨_, h⟩
  | verify rh rs pv =>
    rcases execVerify_cases rh rs pv s with ⟨-, h⟩ | ⟨-, -, h⟩ | ⟨-, -, -, -, h⟩ | ⟨_, _, -, -, -, -, -, h⟩ <;>
      exact ⟨_, h⟩

/-- What `Issue(w)` can do (R54): nothing while a fault is recorded, the decoded command, or ILLEGAL_CMD. -/
theorem issueWord_cases (w : Word) (s : State) :
    (s.fault ≠ 0 ∧ issueWord w s = .next s)
    ∨ (s.fault = 0 ∧ ∃ i, decode w = .ok i ∧ issueWord w s = exec i s)
    ∨ (s.fault = 0 ∧ (∃ e, decode w = .error e) ∧ issueWord w s = .next (raiseFault .illegalCmd w s)) := by
  unfold issueWord
  by_cases hf : s.fault = 0
  · cases hd : decode w with
    | ok i => exact Or.inr (Or.inl ⟨hf, i, rfl, by simp [hf]⟩)
    | error e => exact Or.inr (Or.inr ⟨hf, ⟨e, rfl⟩, by simp [hf]⟩)
  · exact Or.inl ⟨hf, if_pos hf⟩

/-- What `Read8` does (R52). -/
theorem readByte_cases (a : Addr) (s : State) :
    (∃ b, s.peek a = some b ∧ readByte a s = { s with returned := some b })
    ∨ (s.peek a = none ∧ readByte a s = { raiseFault .busError (a.setWidth 32) s with returned := some 0 }) := by
  unfold readByte
  cases h : s.peek a with
  | none => exact Or.inr ⟨rfl, rfl⟩
  | some b => exact Or.inl ⟨b, rfl, rfl⟩

/-- What `Write8` does (R53). -/
theorem writeByte_cases (a : Addr) (v : Byte) (s : State) :
    (s.fault ≠ 0 ∧ writeByte a v s = s)
    ∨ (s.fault = 0 ∧ ∃ l, locate s.cfg a = some l ∧ l.writable = true ∧ writeByte a v s = s.putByte l v)
    ∨ (s.fault = 0 ∧ (locate s.cfg a = none ∨ ∃ l, locate s.cfg a = some l ∧ l.writable = false)
        ∧ writeByte a v s = raiseFault .busError (a.setWidth 32) s) := by
  unfold writeByte
  by_cases hf : s.fault = 0
  · cases hl : locate s.cfg a with
    | none => exact Or.inr (Or.inr ⟨hf, Or.inl rfl, by simp [hf]⟩)
    | some l =>
      cases hw : l.writable with
      | true => exact Or.inr (Or.inl ⟨hf, l, rfl, hw, by simp [hf, hw]⟩)
      | false => exact Or.inr (Or.inr ⟨hf, Or.inr ⟨l, rfl, hw⟩, by simp [hf, hw]⟩)
  · exact Or.inl ⟨hf, if_pos hf⟩

/-- What a step can do: the run is over, or one transaction is carried out (R24, R50). -/
theorem step_cases (s : State) :
    (s.nextTransaction = none ∧ step s = .fault .endOfRun)
    ∨ (s.nextTransaction = some .reset ∧ step s = .next (resetBlock s.begin).advance)
    ∨ (∃ a, s.nextTransaction = some (.read8 a) ∧ step s = .next (readByte a s.begin).advance)
    ∨ (∃ a v, s.nextTransaction = some (.write8 a v) ∧ step s = .next (writeByte a v s.begin).advance)
    ∨ ∃ w t, s.nextTransaction = some (.issue w) ∧ issueWord w s.begin = .next t ∧ step s = .next t.advance := by
  unfold step
  cases h : s.nextTransaction with
  | none => exact Or.inl ⟨rfl, rfl⟩
  | some x =>
    cases x with
    | reset => exact Or.inr (Or.inl ⟨rfl, rfl⟩)
    | read8 a => exact Or.inr (Or.inr (Or.inl ⟨a, rfl, rfl⟩))
    | write8 a v => exact Or.inr (Or.inr (Or.inr (Or.inl ⟨a, v, rfl, rfl⟩)))
    | issue w =>
      have hn : ∃ t, issueWord w s.begin = .next t := by
        rcases issueWord_cases w s.begin with ⟨-, h⟩ | ⟨-, i, -, h⟩ | ⟨-, -, h⟩
        · exact ⟨_, h⟩
        · rw [h]; exact exec_next i _
        · exact ⟨_, h⟩
      obtain ⟨t, ht⟩ := hn
      exact Or.inr (Or.inr (Or.inr (Or.inr ⟨w, t, rfl, ht, by simp [transact, ht, endTransaction]⟩)))

/-- Every transaction ends in a next state (R270). -/
theorem transact_next (x : Transaction) (s : State) : ∃ t, transact x s = .next t := by
  cases x with
  | reset => exact ⟨_, rfl⟩
  | read8 a => exact ⟨_, rfl⟩
  | write8 a v => exact ⟨_, rfl⟩
  | issue w =>
    rcases issueWord_cases w s.begin with ⟨-, h⟩ | ⟨-, i, -, h⟩ | ⟨-, -, h⟩
    · exact ⟨_, by simp only [transact, h]; rfl⟩
    · obtain ⟨t, ht⟩ := exec_next i s.begin
      exact ⟨_, by simp only [transact, h, ht]; rfl⟩
    · exact ⟨_, by simp only [transact, h]; rfl⟩

/-- The host's run over one more transaction. -/
theorem hostRun_cons {x : Transaction} {s t : State} (h : transact x s = .next t) (rest : List Transaction) :
    hostRun (x :: rest) s = ((hostRun rest t).1, t.returned.toList ++ (hostRun rest t).2) := by
  simp only [hostRun, h]

/-- The host's run over two lists, one after the other. -/
theorem hostRun_append (first second : List Transaction) (s : State) :
    hostRun (first ++ second) s
      = ((hostRun second (hostRun first s).1).1, (hostRun first s).2 ++ (hostRun second (hostRun first s).1).2) := by
  induction first generalizing s with
  | nil => rfl
  | cons x rest ih =>
    obtain ⟨t, ht⟩ := transact_next x s
    rw [List.cons_append, hostRun_cons ht, hostRun_cons ht, ih, List.append_assoc]

end Sys2Proof.Machine
end

