-- ==== Sys2Proof/Tests/Slice0.lean ====
section
/-! SUPPORT. Tests on fixed values, and for each statement with hypotheses a state and operands that meet them. Expected
values are those of `95_test_vectors.md` (V1 to V7) unless a comment says otherwise. -/

namespace Sys2Proof.Tests

open Sys2Proof Sys2Proof.Machine

-- One test after another: their kernel evaluations are long, and waiting ones would each hold a thread.
set_option Elab.async false

/-- The answer is a next state with the property. -/
def answers (good : State → Bool) : Answer → Bool
  | .next t => good t
  | _ => false

theorem next_of_answers {good : State → Bool} {a : Answer} (h : answers good a = true) :
    ∃ t, a = .next t ∧ good t = true := by
  cases a with
  | next t => exact ⟨t, rfl, h⟩
  | fault f => simp [answers] at h
  | refused r => simp [answers] at h

/-- Right after reset, with one transaction to run. -/
def loaded (t : Transaction) : State := { State.reset with txns := [t] }

/-- The reset state with a message. -/
def withMessage (m : List Byte) : State :=
  { State.reset with ibuf := Memory.writeBytes [] 0 m, ilen := BitVec.ofNat 32 m.length }

/-- The bytes of the text abc. -/
def abc : List Byte := [0x61, 0x62, 0x63]

/-- The generator of the default configuration. -/
def base : Point := generator Config.default

/-- 2G of R203. -/
def twoBase : Point :=
  ⟨0xAAD5774C1DCD80A583E50E49E420AEC630943D5C2AC379F344B66BC1F4414E4FA7CB18FC42E56C2CB342D155F292B1AE6D4A6626626C5D930774F780529EA638B7,
   0x1957145BC5E056CA8DCDBF809EC912FEEAD5068DC0A2F973EAF54F3BE602817C1C21AA9BFA59698D29BABFFA939C30C32956E0748B502D4934592909D89EF1A702B⟩

/-- 3G of R203. -/
def threeBase : Point :=
  ⟨0xC95AC3795D2225180DC8E60D5D19C8FB0D125623624BBD30CFD025944C95C369BB854603164AA388FFE97F6917D8F77A431ACF66779FAC79CC739CBE422F9CEDAB,
   0x35B6FFA63FEEF023B391BC2EFC0A0DFB474661B00021E2107F8C74ECDD7E9ABD88A5B74FFBAE2A22B3BD1076BE0AB5AD07805AD7C28DDDE7A2282F04A42181FF13⟩

/-- The state V2.3 gives after `ABSORB 512, 0x06` of the empty message. -/
def absorbedEmpty : Grid :=
  ⟨⟨0x66D71EBFF8C6FFA7, 0x62D661A05647C151, 0xFA493BE44DFF80F5, 0x4A43F8804B0AD882, 0xE2F36B34B7BE6652⟩,
   ⟨0xFF875921CACC9566, 0x80D97B5776B3BA89, 0x28DEBD55FC6A313B, 0x03AC3D19F1E48ECC, 0x78193AECC1E434E9⟩,
   ⟨0xC287A923AFE81E79, 0x21684AE301601F33, 0x282E7E469E09E75F, 0xD17D1ED2C282B6B8, 0xF050E0D2ADAF434E⟩,
   ⟨0x5375F6FB6AA989B0, 0xC2C6B96032FAF11E, 0x63684DD3F055A1B2, 0xD908398B988EC2B2, 0x913F10903E0BD326⟩,
   ⟨0x33FC34664D479817, 0x2B715C1A078FDE58, 0x140B7C9251369779, 0x857343A7AABDEB5E, 0x92136E0EFB7B70E5⟩⟩

/-! ### Well-formed terms -/

theorem test_cap_of_twelve_bits_is_ill_formed : (Instr.absorb 2048 0x06).wellFormed = false := by decide
theorem test_rate_of_twelve_bits_is_ill_formed : (Instr.squeeze 2048).wellFormed = false := by decide
theorem test_widest_fields_are_well_formed :
    (Instr.absorb 2047 0xFF).wellFormed = true ∧ (Instr.squeeze 2047).wellFormed = true := by decide

/-! ### Decoding: words written out from R81 and R84, their fields from the left of the row's encoding -/

theorem test_decode_keccakF : decode 0b0000_0001_0000_0000_0000_0000_0000_0000 = .ok .keccakF := by decide
theorem test_decode_absorb :
    decode 0b0000_0010_0001_1111_0000_0001_0000_1000 = .ok (.absorb 0b00100001000 0b00011111) := by decide
theorem test_decode_squeeze : decode 0b0000_0011_0000_0000_0000_0101_0100_0000 = .ok (.squeeze 0b10101000000) := by
  decide
theorem test_decode_hash : decode 0b0001_0000_0000_0000_0000_0000_0000_0000 = .ok .hash := by decide
theorem test_decode_kdf : decode 0b0001_0001_0000_0000_0000_0000_0000_0000 = .ok .kdf := by decide
theorem test_decode_mac : decode 0b0001_0010_0000_0000_0000_0000_0000_0000 = .ok .mac := by decide
theorem test_decode_fmul : decode 0b0010_0000_1111_0001_1000_0000_0000_0000 = .ok (.fmul 15 1 8) := by decide
theorem test_decode_finv : decode 0b0010_0001_1010_0101_0000_0000_0000_0000 = .ok (.finv 10 5) := by decide
theorem test_decode_padd : decode 0b0011_0000_1110_0010_1000_0000_0000_0000 = .ok (.padd 7 1 4) := by decide
theorem test_decode_pdbl : decode 0b0011_0001_1100_0110_0000_0000_0000_0000 = .ok (.pdbl 6 3) := by decide
theorem test_decode_pmul : decode 0b0011_0010_0010_1011_1010_0000_0000_0000 = .ok (.pmul 1 11 5) := by decide
theorem test_decode_sign : decode 0b0100_0000_0001_1110_0111_0000_0000_0000 = .ok (.sign 1 14 7) := by decide
theorem test_decode_signX : decode 0b0100_0000_0001_1110_0111_1001_0000_0001 = .ok (.signX 1 14 7 9) := by decide
theorem test_decode_verify : decode 0b0100_0001_1101_0010_1100_0000_0000_0000 = .ok (.verify 13 2 6) := by decide

/-- V7.1, the words whose opcode is no row's. -/
theorem test_unknown_opcodes_are_refused :
    [0x00000000, 0xFFFFFFFF, 0x04000000, 0x13000000, 0x22000000, 0x33000000, 0x42000000].all
      (fun w => decode w = .error .unknownOpcode) = true := by decide +kernel

/-- V7.1, the words with a nonzero fixed bit. -/
theorem test_nonzero_fixed_bits_are_refused :
    [0x01000001, 0x02060A00, 0x03010440, 0x20201001, 0x21321000, 0x30100000, 0x31210000, 0x31202000, 0x32204001,
      0x32205000, 0x40000100, 0x40000002, 0x41001000, 0x41000001].all
      (fun w => decode w = .error .nonzeroFixedBit) = true := by decide +kernel

/-- V7.1, the legal neighbours. -/
theorem test_legal_neighbours_decode :
    decodeTableWord 32 0x32214000 = some (.pmul 1 1 2) ∧ decodeTableWord 32 0x40000101 = some (.signX 0 0 0 1) := by
  decide

/-! ### One step from reset -/

/-- V7.2. -/
theorem test_step_bad_param :
    answers (fun t => t.fault = 2 && t.faultInfo = 0x03000000 && t.result = 0)
      (step (State.reset.withFetchWord 32 0x03000000)) = true := by decide +kernel

/-- V7.3: a bad `cap` and a bad length give 2, not 3. -/
theorem test_bad_param_before_length :
    answers (fun t => t.fault = 2)
      (step ({ State.reset with ilen := 4097 }.withFetchWord 32 0x02060201)) = true := by decide +kernel

/-! ### KECCAK_F, ABSORB, SQUEEZE -/

/-- V1.3. -/
theorem test_keccakF :
    answers (fun t => t.st.lane 0 0 = 0x122891F5DAD57CFA && t.st.lane 4 4 = 0x070881D4E30FAE16 && t.result = 0)
      (execKeccakF { State.reset with st := Grid.ofBytes ((List.range 200).map (BitVec.ofNat 8)) }) = true := by
  decide +kernel

/-- V2.3, from a state that is not zero (V2.13). -/
theorem test_absorb_empty_message :
    answers (fun t => t.st = absorbedEmpty && t.olen = 0) (execAbsorb 512 0x06 { State.reset with st := absorbedEmpty })
      = true := by decide +kernel

/-- V2.11: a message of exactly one block is followed by a block of padding. -/
theorem test_absorb_full_block :
    answers (fun t => t.st.lane 0 0 = 0x00E49A35FB6BDF0A) (execAbsorb 512 0x06 (withMessage (List.replicate 136 0xA3)))
      = true := by decide +kernel

/-- V2.8, 12 bits. -/
theorem test_squeeze_twelve_bits :
    answers (fun t => t.olen = 2 && t.obuf = [(0, 0xA7), (1, 0x0F)])
      (execSqueeze 1088 { State.reset with st := absorbedEmpty, obits := 12 }) = true := by decide +kernel

/-- V2.8, one bit more than a block: byte 136 is 0, bit 0 of 0xE8. -/
theorem test_squeeze_past_one_block :
    answers (fun t => t.olen = 137 && t.obuf.read 0 = 0xA7 && t.obuf.read 135 = 0xC2 && t.obuf.read 136 = 0x00)
      (execSqueeze 1088 { State.reset with st := absorbedEmpty, obits := 1089, obuf := [(136, 0xFF)] }) = true := by decide +kernel

/-! ### HASH, KDF, MAC -/

/-- V3.1, over a state that is not zero (V3.7). -/
theorem test_hash :
    answers (fun t => t.olen = 32 && t.obuf.readBytes 4 = [0x3A, 0x98, 0x5D, 0xA7] && t.obuf.read 31 = 0x32
        && t.st = Grid.zero && t.result = 0)
      (execHash { withMessage abc with st := absorbedEmpty, obits := 8 }) = true := by decide +kernel

/-- V3.6. -/
theorem test_kdf :
    answers (fun t => t.olen = 2 && t.obuf = [(0, 0x48), (1, 0x03)]) (execKdf { withMessage abc with obits := 12 })
      = true := by decide +kernel

/-- V3.3 with an older byte beyond the tag. -/
theorem test_mac :
    answers (fun t => t.olen = 32 && t.obuf.readBytes 2 = [0xF4, 0xE4] && t.obuf.read 31 = 0xF1 && t.obuf.read 32 = 0xD5)
      (execMac { withMessage abc with obuf := [(0, 0x48), (32, 0xD5)] }) = true := by decide +kernel

/-! ### FMUL, FINV -/

/-- V4.2. -/
theorem test_fmul_reduces_its_operands :
    answers (fun t => t.reg 2 = 254) (execFmul 2 0 1 ((State.reset.setReg 0 (2 ^ 528 - 1)).setReg 1 2)) = true := by
  decide +kernel

/-- V4.4, the destination a source. -/
theorem test_fmul_in_place :
    answers (fun t => t.reg 0 =
        0x10000000000000000000000000000000000000000000000000000000000000000000000000000000000000000000000000000000000000000000641FDB97530ECA2)
      (execFmul 0 0 1 ((State.reset.setReg 0 0x0123456789ABCDEF).setReg 1 (2 ^ 520 + 5))) = true := by decide +kernel

/-- V4.7, the destination the source. -/
theorem test_finv_of_three :
    answers (fun t => t.reg 0 = (2 * (2 ^ 521 - 1) + 1) / 3 && t.result = 0) (execFinv 0 0 (State.reset.setReg 0 3))
      = true := by decide +kernel

/-- V4.10. -/
theorem test_finv_of_p :
    answers (fun t => t.reg 3 = 77 && t.result = 2)
      (execFinv 3 0 ((State.reset.setReg 0 (2 ^ 521 - 1)).setReg 3 77)) = true := by decide +kernel

/-! ### PADD, PDBL, PMUL -/

/-- V5.9. -/
theorem test_padd :
    answers (fun t => t.coordinates 2 = threeBase && t.result = 0)
      (execPadd 2 0 1 ((State.reset.setPoint 0 twoBase).setPoint 1 base)) = true := by decide +kernel

/-- V5.10. -/
theorem test_padd_off_the_curve :
    answers (fun t => t.result = 1 && t.coordinates 5 = ⟨9, 9⟩)
      (execPadd 5 6 0 (((State.reset.setPoint 6 ⟨4, 5⟩).setPoint 5 ⟨9, 9⟩).setPoint 0 base)) = true := by decide +kernel

/-- V5.12: coordinates are reduced when read. -/
theorem test_pdbl_reduces_its_operand :
    answers (fun t => t.reg 10 = twoBase.x && t.reg 11 = twoBase.y)
      (execPdbl 5 6 (State.reset.setPoint 6 ⟨base.x + (2 ^ 521 - 1), 12 + (2 ^ 521 - 1)⟩)) = true := by decide +kernel

/-- V5.6. -/
theorem test_pmul_reduces_the_scalar :
    answers (fun t => t.coordinates 5 = threeBase)
      (execPmul 5 8 0 ((State.reset.setPoint 0 base).setReg 8 (Config.e521R + 3))) = true := by decide +kernel

/-- V5.14: the scalar is reduced modulo r, not modulo the point's order. -/
theorem test_pmul_outside_the_subgroup :
    answers (fun t => t.coordinates 5 = ⟨1, 0⟩)
      (execPmul 5 8 0 ((State.reset.setPoint 0 ⟨1, 0⟩).setReg 8 (Config.e521R + 1))) = true := by decide +kernel

/-! ### SIGN, SIGN.X, VERIFY -/

/-- Nonces of four bits, so that a signature is quick to check. -/
def shortNonces : Config := { Config.default with nonceBits := 4 }

/-- The expected h and s come from the program of `96_reference_model.md` with NONCE_BITS 4 (the nonce is 11). -/
theorem test_sign :
    answers (fun t =>
        t.reg 2 = 0x8B8BF55EEB6C26E7CD14F2FE41D6A76ABE2934DB140A3F11373DA8B7BC376268
        && t.reg 3 = 0x7ffffffffffffffffffffffffffffffffffffffffffffffffffffffffffffffffa5bfafb6caddfc370354ff0673593f9ef450abc0f365be3ef2cb5d89f4803216e
        && t.result = 0)
      (execSign 2 3 0 ({ withMessage abc with cfg := shortNonces }.setReg 0 5)) = true := by decide +kernel

/-- V6.4, a key that is r. -/
theorem test_sign_key_out_of_range :
    answers (fun t => t.reg 14 = 99 && t.result = 2 && t.st = absorbedEmpty)
      (execSign 14 15 8 ({ withMessage abc with st := absorbedEmpty }.setReg 14 99 |>.setReg 8 Config.e521R)) = true := by
  decide +kernel

/-- V6.3, with the nonce register holding r + 7. -/
theorem test_signX :
    answers (fun t =>
        t.reg 12 = 0x394B188C78AC440D06105CA9108F05BEEBA518ABD101B42D09CE8DA6113C0C1
        && t.reg 13 = 0x7FFFFFFFFFFFFFFFFFFFFFFFFFFFFFFFFFFFFFFFFFFFFFFFFFFFBED01AAED27FC992543D35A000C821E4380411DB0D98F721A28FAD40C1F0819A44BB8231618C43
        && t.st = Grid.zero)
      (execSignX 12 13 0 1 ((withMessage abc).setReg 0 0x1234567890ABCDEF |>.setReg 1 (Config.e521R + 7))) = true := by
  decide +kernel

/-- Tags of eight bits, so that a challenge is a small number. -/
def shortTags : Config := { Config.default with tagBits := 8 }

/-- The key is the identity and s is 0, so that the challenge is that of the identity: 3 by the program of
`96_reference_model.md` with TAG_BITS 8. -/
theorem test_verify_accepts :
    answers (fun t => t.result = 0 && t.reg 2 = 3 && t.st = Grid.zero)
      (execVerify 2 3 2 ({ State.reset with cfg := shortTags, result := 4, st := absorbedEmpty }.setReg 2 3
        |>.setPoint 2 ⟨0, 1⟩)) = true := by decide +kernel

/-- V6.4, h and s 0, with the key G. -/
theorem test_verify_rejects :
    answers (fun t => t.result = 4 && t.st = Grid.zero)
      (execVerify 9 9 3 ({ withMessage abc with st := absorbedEmpty }.setPoint 3 base)) = true := by decide +kernel

/-! ### The bus (V7.4, V7.5, V7.6) -/

theorem test_write_the_last_byte_of_a_register :
    answers (fun t => t.reg 0 = 0xAB * 2 ^ 520 && t.fault = 0) (step (loaded (.write8 0x0441 0xAB))) = true := by
  decide +kernel
theorem test_write_the_last_byte_of_the_lanes :
    answers (fun t => t.st.lane 4 4 = 0x8000000000000000 && t.fault = 0) (step (loaded (.write8 0x01C7 0x80))) = true := by
  decide +kernel
theorem test_write_the_last_byte_of_a_length :
    answers (fun t => t.ilen = 0x01000000 && t.fault = 0) (step (loaded (.write8 0x000F 0x01))) = true := by
  decide +kernel
theorem test_writes_that_raise_bus_error :
    [0x8000, 0x0000, 0x0014, 0x0C00, 0x0442, 0x01C8, 0x5000].all (fun a =>
      answers (fun t => t.fault = 4 && t.faultInfo = a.setWidth 32 && t.obuf = [] && t.ibuf = [])
        (step (loaded (.write8 a 1)))) = true := by decide +kernel
theorem test_reads_that_raise_bus_error :
    [0x0018, 0x9000, 0xFFFF, 0x0C42].all (fun a =>
      answers (fun t => t.fault = 4 && t.faultInfo = a.setWidth 32 && t.returned = some 0)
        (step (loaded (.read8 a)))) = true := by decide +kernel
theorem test_param_reads :
    [((0x0C41 : Addr), (0x01 : Byte)), (0x0C80, 0x31), (0x0C83, 0xFF), (0x0D07, 0x40), (0x0D40, 0x7F), (0x0D41, 0x00),
      (0x0DC1, 0x01), (0x0E00, 0x6C), (0x0E80, 0x0C)].all (fun e =>
      answers (fun t => t.returned = some e.2 && t.fault = 0) (step (loaded (.read8 e.1)))) = true := by decide +kernel

/-! ### Host protocols (R262) -/

/-- R262's private scalar of the password "password". -/
theorem test_keygen_scalar :
    keygenScalar .suggested Config.default [0x70, 0x61, 0x73, 0x73, 0x77, 0x6F, 0x72, 0x64]
      = some 0x3CEE308E497A81C19E472E41D0ED0289B3C7E059D52F1D16CA3BE056AF349E925D3362D2458773BEF8ABFD391AF2C53F725EA17969C7895B63D2C6CC9872C6627F := by
  decide +kernel

/-- R262's ciphertext of "hello" under the password "pw" and the nonce 00 01 ... 3F. -/
theorem test_password_ciphertext :
    (encryptWithPw .suggested Config.default (Vector.ofFn fun i => BitVec.ofNat 8 i.val) [0x70, 0x77]
        [0x68, 0x65, 0x6C, 0x6C, 0x6F]).c = [0x90, 0xE1, 0x20, 0x90, 0xDA] := by decide +kernel

/-- R259: draws of 0 and r are drawn again, and a key off the curve fails with its kind. -/
theorem test_redraw_and_malformed_key :
    ephemeralScalar Config.default [0, Config.e521R, Config.e521R + 7] = .ok 7
      ∧ encryptWithKey .suggested Config.default [0, 7] ⟨4, 5⟩ abc = .error (.kind .malformedPoint)
      ∧ encryptWithKey .suggested Config.default [0] ⟨4, 5⟩ abc = .error .drawAgain := by decide +kernel

/-- R194 by hand: the negative of 8 modulo 7 is 6. -/
theorem test_negative_of_an_unreduced_number : negp { Config.default with p := 7 } 8 = 6 := by decide

/-! ### Witnesses: what meets the hypotheses of each statement -/

/-- A recorded fault. -/
def faulted (t : Transaction) : State := { loaded t with fault := 2, faultInfo := 0x03000000 }

theorem witness_TableRowsAreDisjoint :
    (⟨.keccakF, 0x01000000, 0xFFFFFFFF⟩ : Row) ∈ opcodeTable
      ∧ (⟨.keccakF, 0x01000000, 0xFFFFFFFF⟩ : Row).accepts 0x01000000 = true := by decide

theorem witness_DecodeEncodeRoundTrip : (Instr.absorb 2047 0xFF).wellFormed = true := by decide

theorem witness_EncodeDecodeRoundTrip : decode 0x02FF07FF = .ok (.absorb 2047 0xFF) := by decide

theorem witness_EncodeMatchesAssemblerSums : 0 < 2 ^ 11 ∧ 2047 < 2 ^ 11 := by decide

theorem witness_RhoIotaFollowTheGenerationRules : 0 < 24 ∧ 23 < 24 ∧ 0 < 5 ∧ 4 < 5 := by decide

theorem witness_EveryTransactionCompletes :
    (loaded .reset).pc < (loaded .reset).txns.length ∧ State.reset.txns.length ≤ State.reset.pc := by decide

theorem witness_StepRunsDecodedCommand :
    (loaded (.issue 0x02FF07FF)).Issues 0x02FF07FF ∧ decode 0x02FF07FF = .ok (.absorb 2047 0xFF) := by decide

theorem witness_IllegalWordRaisesIllegalCmd :
    (loaded (.issue 0x01000001)).Issues 0x01000001 ∧ ∀ row ∈ opcodeTable, 0x01000001 &&& row.mask ≠ row.pattern := by
  decide

theorem witness_ResetClearsArchitecturalState : (faulted .reset).nextTransaction = some .reset := by decide

theorem witness_FaultedBlockIgnoresWork :
    (faulted (.issue 0x01000000)).fault ≠ 0
      ∧ (faulted (.issue 0x01000000)).nextTransaction = some (.issue 0x01000000)
      ∧ (faulted (.write8 0x4000 9)).fault ≠ 0
      ∧ (faulted (.write8 0x4000 9)).nextTransaction = some (.write8 0x4000 9)
      ∧ (faulted (.read8 0x0018)).fault ≠ 0
      ∧ (faulted (.read8 0x0018)).nextTransaction = some (.read8 0x0018) := by decide

theorem witness_RaiseFaultKeepsTheFirst : State.reset.fault = 0 ∧ (faulted .reset).fault ≠ 0 := by decide

/-- One transaction of each kind that faults. -/
theorem witness_FaultingTransactionChangesNothingElse :
    [Transaction.issue 0x00000000, .issue 0x03000000, .write8 0x0000 1, .read8 0x0018].all (fun x =>
      (loaded x).nextTransaction = some x && (loaded x).fault = 0
        && answers (fun t => t.fault ≠ 0) (step (loaded x))) = true := by decide +kernel

/-- A command for each column the clauses speak of, and the states they answer. -/
theorem witness_CommandsWriteOnlyTheirState :
    writesRegs .hash = false ∧ writesLanes (.finv 0 0) = false ∧ writesOutput .keccakF = false
      ∧ (∃ t, exec (.finv 0 0) State.reset = .next t) ∧ ∃ t, exec .keccakF State.reset = .next t :=
  ⟨by decide, by decide, by decide,
    (next_of_answers (show answers (fun t => t.result = 2) (exec (.finv 0 0) State.reset) = true by decide +kernel)).imp
      fun _ h => h.1,
    ⟨_, rfl⟩⟩

theorem witness_CommandsEndInAListedOutcome : State.reset.fault = 0 := by decide

theorem witness_StepKeepsTheInvariant :
    (loaded (.issue 0x00000000)).Inv ∧ ∃ t, step (loaded (.issue 0x00000000)) = .next t ∧ decide (t.fault = 1) = true :=
  ⟨by decide +kernel, next_of_answers (by decide +kernel)⟩

/-- Read8 of the last mapped byte before a hole, of the hole with no fault, and of the hole with one. -/
theorem witness_Read8ReturnsTheByte :
    ((loaded (.read8 0x0017)).nextTransaction = some (.read8 0x0017) ∧ (loaded (.read8 0x0017)).peek 0x0017 = some 0)
      ∧ ((loaded (.read8 0x0018)).nextTransaction = some (.read8 0x0018) ∧ (loaded (.read8 0x0018)).peek 0x0018 = none
        ∧ (loaded (.read8 0x0018)).fault = 0)
      ∧ ((faulted (.read8 0x0018)).nextTransaction = some (.read8 0x0018) ∧ (faulted (.read8 0x0018)).peek 0x0018 = none
        ∧ (faulted (.read8 0x0018)).fault ≠ 0) := by decide +kernel

/-- Write8 with a fault recorded, and at both edges of every range of the two clauses. -/
theorem witness_Write8ReplacesOneByte :
    ((faulted (.write8 0x4000 9)).nextTransaction = some (.write8 0x4000 9) ∧ (faulted (.write8 0x4000 9)).fault ≠ 0)
      ∧ [(0x000C : Addr), 0x0013, 0x0100, 0x01C7, 0x0400, 0x0BC1, 0x4000, 0x4FFF].all (fun a =>
          (loaded (.write8 a 9)).nextTransaction = some (.write8 a 9) && (loaded (.write8 a 9)).fault = 0
            && (0x000C ≤ a.toNat ∧ a.toNat < 0x0014 ∨ 0x0100 ≤ a.toNat ∧ a.toNat < 0x01C8
              ∨ 0x0400 ≤ a.toNat ∧ a.toNat < 0x0C00 ∧ a.toNat % 0x80 < 66
              ∨ 0x4000 ≤ a.toNat ∧ a.toNat < 0x8000 ∧ a.toNat < 0x4000 + (loaded (.write8 a 9)).cfg.ibufSize)) = true
      ∧ [(0x0000 : Addr), 0x000B, 0x0014, 0x00FF, 0x01C8, 0x03FF, 0x0442, 0x0BFF, 0x0C00, 0x0EC1, 0x3FFF, 0x5000, 0x8000,
          0x8FFF, 0xFFFF].all (fun a =>
          (loaded (.write8 a 9)).nextTransaction = some (.write8 a 9) && (loaded (.write8 a 9)).fault = 0
            && (a.toNat < 0x000C ∨ 0x0014 ≤ a.toNat ∧ a.toNat < 0x0100 ∨ 0x01C8 ≤ a.toNat ∧ a.toNat < 0x0400
              ∨ 0x0400 ≤ a.toNat ∧ a.toNat < 0x0C00 ∧ 66 ≤ a.toNat % 0x80
              ∨ 0x0C00 ≤ a.toNat ∧ a.toNat < 0x4000
              ∨ 0x4000 + (loaded (.write8 a 9)).cfg.ibufSize ≤ a.toNat ∨ 0x8000 ≤ a.toNat)) = true := by decide +kernel

/-- The sizes of the default configuration, and what its map gives at the edges of every range of the statement. -/
theorem witness_AddressMapReadsLittleEndian :
    State.reset.cfg.SizesOk
      ∧ [(0x0000 : Addr), 0x0017, 0x0100, 0x01C7, 0x0400, 0x0BC1, 0x0C00, 0x0EC1, 0x4000, 0x4FFF, 0x8000, 0x8FFF].all
          (fun a => (State.reset.peek a).isSome) = true
      ∧ [(0x0018 : Addr), 0x00FF, 0x01C8, 0x03FF, 0x0442, 0x047F, 0x0BC2, 0x0EC2, 0x0F00, 0x3FFF, 0x5000, 0x7FFF, 0x9000,
          0xBFFF, 0xC000, 0xFFFF].all (fun a => (State.reset.peek a).isNone) = true := by decide +kernel

theorem witness_HostWritesLoadARegister :
    State.reset.fault = 0 ∧ 2 ^ 528 - 1 < 2 ^ 528
      ∧ (0x0004 : Addr) = 0x0004 ∧ (faulted .reset).fault = (faulted .reset).fault := by decide +kernel

/-- Inputs and outputs as long as the buffers. -/
theorem witness_HostSequencesReturnKdfAndMac :
    State.reset.fault = 0 ∧ State.reset.cfg.SizesOk
      ∧ abc.length + (List.replicate 4093 (0 : Byte)).length ≤ State.reset.cfg.ibufSize
      ∧ 4096 ≤ State.reset.cfg.obufSize
      ∧ abc.length + abc.length + (List.replicate 4090 (0 : Byte)).length ≤ State.reset.cfg.ibufSize :=
  ⟨by decide, by decide +kernel, by rw [List.length_replicate]; decide +kernel, by decide,
    by rw [List.length_replicate]; decide +kernel⟩

theorem witness_ThetaPiChiLaneFormulas :
    ∀ u, u < 5 → columnParity absorbedEmpty u
      = absorbedEmpty.lane u 0 ^^^ absorbedEmpty.lane u 1 ^^^ absorbedEmpty.lane u 2 ^^^ absorbedEmpty.lane u 3
          ^^^ absorbedEmpty.lane u 4 := fun _ _ => rfl

theorem witness_ByteViewIsABijection : (List.replicate 200 (0xFF : Byte)).length = 200 := List.length_replicate

theorem witness_PermutationIsInjective : keccakF Grid.zero = keccakF Grid.zero := rfl

/-- The least and the largest rate; a message that ends a block. -/
theorem witness_PaddingFillsTheLastBlock :
    (1 ≤ 1 ∧ 1 ≤ 200) ∧ (1 ≤ 200 ∧ 200 ≤ 200)
      ∧ (pad abc 3 0x06 = [0x61, 0x62, 0x63, 0x06, 0x00, 0x80] ∧ pad abc 1 0x06 = [0x61, 0x62, 0x63, 0x86]) := by decide

/-- The least and the largest rate, and an output whose last byte is partial. -/
theorem witness_SqueezeOutputLength :
    (8 % 8 = 0 ∧ 8 ≤ 8 ∧ 8 ≤ 1600) ∧ (1600 % 8 = 0 ∧ 8 ≤ 1600 ∧ 1600 ≤ 1600)
      ∧ 12 % 8 ≠ 0 ∧ (squeeze absorbedEmpty 12 1600).1.getLast? = some 0x0F := by decide +kernel

theorem witness_SqueezeIsPrefixExtending :
    1088 % 8 = 0 ∧ 8 ≤ 1088 ∧ 1088 ≤ 1600 ∧ 8 ≤ 2000 ∧ 8 % 8 = 0 ∧ 2000 % 8 = 0 := by decide

/-- The last byte of the last whole block of an output of two blocks, and a third block of one bit. -/
theorem witness_SqueezeCopiesSuccessiveStates :
    1088 % 8 = 0 ∧ 8 ≤ 1088 ∧ 1088 ≤ 1600 ∧ (135 < 1088 / 8 ∧ 8 * (1 * (1088 / 8) + 135) + 8 ≤ 2176)
      ∧ (0 < 1088 / 8 ∧ 2 * (1088 / 8) + 0 = 2177 / 8 ∧ 2177 % 8 ≠ 0) := by decide

/-- Both ends of the parameters of ABSORB, with the longest message. -/
theorem witness_AbsorbCompletes :
    (0 % 8 = 0 ∧ 0 ≤ 1592 ∧ 0x01 ≤ (0x01 : Byte).toNat ∧ (0x01 : Byte).toNat ≤ 0x7F)
      ∧ (1592 % 8 = 0 ∧ 1592 ≤ 1592 ∧ 0x01 ≤ (0x7F : Byte).toNat ∧ (0x7F : Byte).toNat ≤ 0x7F)
      ∧ { State.reset with ilen := 4096 }.ilen.toNat ≤ { State.reset with ilen := 4096 }.cfg.ibufSize := by decide

/-- Each way a parameter can be out of its range, at the edge of the range (V7.2). -/
theorem witness_BadParametersRaiseBadParam :
    State.reset.fault = 0 ∧ (513 % 8 ≠ 0 ∧ 1592 < 1600 ∧ (0x00 : Byte).toNat < 0x01 ∧ 0x7F < (0x80 : Byte).toNat)
      ∧ (12 % 8 ≠ 0 ∧ 0 < 8 ∧ 1600 < 1608) := by decide

/-- Lengths one beyond the default buffers (V7.3). -/
theorem witness_LengthsBeyondABufferRaiseLenRange :
    let s := { State.reset with ilen := 4097 }
    let u := { State.reset with obits := 32769 }
    s.fault = 0 ∧ s.cfg.ibufSize < s.ilen.toNat
      ∧ [Instr.hash, .kdf, .mac, .sign 2 3 0, .signX 2 3 0 1, .verify 2 3 2].all checksMessageFirst = true
      ∧ (1592 % 8 = 0 ∧ 1592 ≤ 1592 ∧ 0x01 ≤ (0x7F : Byte).toNat ∧ (0x7F : Byte).toNat ≤ 0x7F)
      ∧ u.fault = 0 ∧ (8 % 8 = 0 ∧ 8 ≤ 8 ∧ 8 ≤ 1600) ∧ u.cfg.obufSize < (u.obits.toNat + 7) / 8
      ∧ u.ilen.toNat ≤ u.cfg.ibufSize := by decide

/-- The longest output at the least and the largest rate. -/
theorem witness_SqueezeCompletes :
    let s := { State.reset with obits := 32768 }
    s.cfg.SizesOk ∧ (8 % 8 = 0 ∧ 8 ≤ 8 ∧ 8 ≤ 1600) ∧ (1600 % 8 = 0 ∧ 8 ≤ 1600 ∧ 1600 ≤ 1600)
      ∧ (s.obits.toNat + 7) / 8 ≤ s.cfg.obufSize := by decide +kernel

/-- The longest message and output; each of the three commands, with the value the statement gives it. -/
theorem witness_HashKdfMacComplete :
    let s := { State.reset with ilen := 4096, obits := 32768 }
    s.cfg.SizesOk ∧ s.ilen.toNat ≤ s.cfg.ibufSize
      ∧ (Instr.hash = .hash ∧ hashFn s.cfg s.msg = hashFn s.cfg s.msg)
      ∧ (Instr.kdf = .kdf ∧ (s.obits.toNat + 7) / 8 ≤ s.cfg.obufSize
          ∧ kdfFn s.cfg s.msg [] s.obits.toNat = kdfFn s.cfg s.msg [] s.obits.toNat)
      ∧ (Instr.mac = .mac ∧ macFn s.cfg [] s.msg [] = macFn s.cfg [] s.msg []) :=
  ⟨by decide +kernel, by decide +kernel, ⟨rfl, rfl⟩, ⟨rfl, by decide +kernel, rfl⟩, ⟨rfl, rfl⟩⟩

/-- 0 and p - 1. -/
theorem witness_FieldAddSubNegFormulas : 0 < Config.default.p ∧ Config.default.p - 1 < Config.default.p := by
  decide +kernel

/-- 1 and p - 1, each its own inverse. -/
theorem witness_InverseExistsAndIsUnique :
    Config.default.p = Config.e521P ∧ 1 ≤ Config.default.p - 1 ∧ Config.default.p - 1 < Config.default.p
      ∧ mulp Config.default (Config.default.p - 1) (Config.default.p - 1) = 1 := by decide +kernel

theorem witness_FieldLaws :
    Config.default.p = Config.e521P ∧ Config.default.p - 1 < Config.default.p ∧ Config.default.p - 1 ≠ 0 := by
  decide +kernel

theorem witness_FmulCompletes : State.reset.cfg.p = Config.e521P := by decide +kernel

/-- An operand that is 1 and one that is p. -/
theorem witness_FinvCompletes :
    let s := (State.reset.setReg 1 1).setReg 2 Config.e521P
    s.cfg.p = Config.e521P ∧ s.reg 1 % s.cfg.p ≠ 0 ∧ s.reg 2 % s.cfg.p = 0 := by decide +kernel

/-- G, 2G and the point (1, 0), which is outside the subgroup of G. -/
theorem witness_points_of_the_default_curve :
    Config.default.FixedConstants ∧ base.Valid Config.default ∧ twoBase.Valid Config.default
      ∧ (⟨1, 0⟩ : Point).Valid Config.default ∧ Point.identity.Valid Config.default := by decide +kernel

theorem witness_PointAddSolvesTheFormula :
    Config.default.p = Config.e521P ∧ Config.default.d = Config.e521D ∧ base.Valid Config.default
      ∧ twoBase.Valid Config.default :=
  ⟨witness_points_of_the_default_curve.1.1, witness_points_of_the_default_curve.1.2.1, witness_points_of_the_default_curve.2.1, witness_points_of_the_default_curve.2.2.1⟩

theorem witness_PointAddStaysOnTheCurve :
    Config.default.p = Config.e521P ∧ Config.default.d = Config.e521D ∧ base.Valid Config.default
      ∧ twoBase.Valid Config.default := witness_PointAddSolvesTheFormula

/-- Both clauses on doubled scalars at 0 and at the largest scalar below r, r being odd. -/
theorem witness_PointMultiplesReduceTheScalar :
    Config.default.FixedConstants ∧ (⟨1, 0⟩ : Point).Valid Config.default
      ∧ (2 * 0 < Config.default.r ∧ 2 * ((Config.default.r - 1) / 2) < Config.default.r)
      ∧ (2 * 0 + 1 < Config.default.r ∧ 2 * ((Config.default.r - 3) / 2) + 1 < Config.default.r) :=
  ⟨witness_points_of_the_default_curve.1, witness_points_of_the_default_curve.2.2.2.1, by decide +kernel⟩

theorem witness_PointAddCommutesWithNeutral :
    Config.default.p = Config.e521P ∧ base.Valid Config.default ∧ twoBase.Valid Config.default :=
  ⟨witness_points_of_the_default_curve.1.1, witness_points_of_the_default_curve.2.1, witness_points_of_the_default_curve.2.2.1⟩

theorem witness_PointAndNegativeCancel :
    Config.default.p = Config.e521P ∧ Config.default.d = Config.e521D ∧ base.Valid Config.default :=
  ⟨witness_points_of_the_default_curve.1.1, witness_points_of_the_default_curve.1.2.1, witness_points_of_the_default_curve.2.1⟩

/-- G in P0 and 2G in P1. -/
def twoPoints : State := (State.reset.setPoint 0 base).setPoint 1 twoBase

theorem witness_PaddCompletes :
    twoPoints.cfg.FixedConstants ∧ onCurve twoPoints.cfg (twoPoints.coordinates 0) = true
      ∧ onCurve twoPoints.cfg (twoPoints.coordinates 1) = true := by decide +kernel

theorem witness_PdblCompletes :
    twoPoints.cfg.FixedConstants ∧ onCurve twoPoints.cfg (twoPoints.coordinates 1) = true := by decide +kernel

theorem witness_PmulCompletes :
    twoPoints.cfg.FixedConstants ∧ onCurve twoPoints.cfg (twoPoints.coordinates 0) = true := by decide +kernel

/-- (0, 0), the value of every point register after reset (V5.11). -/
theorem witness_MalformedPointsAreRejected : onCurve State.reset.cfg (State.reset.coordinates 0) = false := by
  decide +kernel

/-- The largest legal key, and a nonce register of r + 1. -/
theorem witness_SignXCompletes :
    let s := ({ withMessage abc with ilen := 4096 }.setReg 0 (Config.e521R - 1)).setReg 1 (Config.e521R + 1)
    s.cfg.r ≤ 2 ^ 528 ∧ s.ilen.toNat ≤ s.cfg.ibufSize ∧ s.reg 0 ≠ 0 ∧ s.reg 0 < s.cfg.r ∧ s.reg 1 % s.cfg.r ≠ 0 := by
  decide +kernel

/-- A nonce that is found; and, with no nonce bits, which R6 does not admit, none. Under an admissible configuration
256 attempts would all have to be 0 modulo r. -/
theorem witness_SignCompletes :
    (let s := (withMessage abc).setReg 0 5
     s.cfg.r ≤ 2 ^ 528 ∧ s.ilen.toNat ≤ s.cfg.ibufSize ∧ s.reg 0 ≠ 0 ∧ s.reg 0 < s.cfg.r
       ∧ (deriveNonce s.cfg (s.reg 0) s.msg).isSome = true)
      ∧ (let s := { withMessage abc with cfg := { Config.default with nonceBits := 0 } }.setReg 0 5
         s.cfg.r ≤ 2 ^ 528 ∧ s.ilen.toNat ≤ s.cfg.ibufSize ∧ s.reg 0 ≠ 0 ∧ s.reg 0 < s.cfg.r
           ∧ deriveNonce s.cfg (s.reg 0) s.msg = none) := by decide +kernel

/-- A key of 0 and one of r, a nonce of r, h and s of r, and scalars in range with a key off the curve. -/
theorem witness_SchnorrOperandChecks :
    let s := State.reset.setReg 1 Config.e521R
    s.ilen.toNat ≤ s.cfg.ibufSize ∧ s.reg 0 = 0 ∧ s.cfg.r ≤ s.reg 1 ∧ s.reg 1 % s.cfg.r = 0
      ∧ s.reg 2 < s.cfg.r ∧ onCurve s.cfg (s.coordinates 2) = false := by decide +kernel

/-- Scalars of r - 1 with the key G. -/
theorem witness_VerifyDecides :
    let s := (twoPoints.setReg 4 (Config.e521R - 1)).setReg 5 (Config.e521R - 1)
    s.ilen.toNat ≤ s.cfg.ibufSize ∧ s.reg 4 < s.cfg.r ∧ s.reg 5 < s.cfg.r
      ∧ onCurve s.cfg (s.coordinates 0) = true := by decide +kernel

/-! ### Witnesses for the statements that rest on `GeneratorLaw` -/

/-- The Edwards curve of 12 points over the field of 7 elements with d = 5, and a point of order 3: small enough to check
`GeneratorLaw` point by point. R6 does not admit it; for the admissible constants R202 gives the law. -/
def smallCurve : Config := { Config.default with p := 7, d := 5, r := 3, n := 12, gx := 2, gy := 4 }

theorem smallCurve_mod (a : Nat) : ptMul smallCurve (a % 3) (generator smallCurve) = ptMul smallCurve a (generator smallCurve) := by
  simp only [ptMul, smallCurve, Nat.mod_mod]

theorem smallCurve_table : ∀ a < 3, (ptMul smallCurve a (generator smallCurve)).Valid smallCurve
    ∧ ∀ b < 3, ptAdd smallCurve (ptMul smallCurve a (generator smallCurve)) (ptMul smallCurve b (generator smallCurve))
          = ptMul smallCurve ((a + b) % 3) (generator smallCurve)
        ∧ ptMul smallCurve a (ptMul smallCurve b (generator smallCurve))
          = ptMul smallCurve (a * b % 3) (generator smallCurve) := by decide +kernel

theorem witness_GeneratorLaw : GeneratorLaw smallCurve := by
  have lt (a : Nat) : a % 3 < 3 := Nat.mod_lt _ (by decide)
  refine ⟨fun a => ?_, fun a b => ?_, fun a b => ?_⟩
  · simpa only [smallCurve_mod] using (smallCurve_table (a % 3) (lt a)).1
  · have h := ((smallCurve_table (a % 3) (lt a)).2 (b % 3) (lt b)).1
    rwa [smallCurve_mod a, smallCurve_mod b, ← Nat.add_mod, smallCurve_mod] at h
  · have h := ((smallCurve_table (a % 3) (lt a)).2 (b % 3) (lt b)).2
    rw [smallCurve_mod b, ← Nat.mul_mod, smallCurve_mod (a * b)] at h
    rw [← h]
    simp only [ptMul, smallCurve, Nat.mod_mod]

/-- Key 1 in R0 with its point in P2, nonce 1 in R1. -/
def smallSigner : State :=
  ({ withMessage abc with cfg := smallCurve }.setReg 0 1 |>.setReg 1 1).setPoint 2 (generator smallCurve)

theorem witness_SignThenVerifyAccepts :
    GeneratorLaw smallSigner.cfg
      ∧ (smallSigner.cfg.r ≤ 2 ^ 528 ∧ smallSigner.ilen.toNat ≤ smallSigner.cfg.ibufSize
        ∧ smallSigner.reg 0 ≠ 0 ∧ smallSigner.reg 0 < smallSigner.cfg.r
        ∧ smallSigner.coordinates 2 = ptMul smallSigner.cfg (smallSigner.reg 0) (generator smallSigner.cfg)
        ∧ (2 : Reg) ≠ 3 ∧ (2 : Reg) ≠ pointX 2 ∧ (2 : Reg) ≠ pointY 2 ∧ (3 : Reg) ≠ pointX 2 ∧ (3 : Reg) ≠ pointY 2)
      ∧ (∃ t, exec (.signX 2 3 0 1) smallSigner = .next t ∧ decide (t.result = 0) = true)
      ∧ ∃ t, exec (.sign 2 3 0) smallSigner = .next t ∧ decide (t.result = 0) = true :=
  ⟨witness_GeneratorLaw, by decide +kernel, next_of_answers (by decide +kernel), next_of_answers (by decide +kernel)⟩

/-- The second clause: a tag of no bytes never matches. -/
theorem witness_PasswordDecryptionInverts :
    Config.default.SizesOk
      ∧ macFn Config.default (sealKeys .suggested Config.default ([] ++ abc)).2 abc HostParams.suggested.ctxTag
          ≠ (⟨[], abc, []⟩ : SymmetricCryptogram).t := by
  decide +kernel

theorem witness_KeyDecryptionInverts :
    GeneratorLaw smallCurve ∧ smallCurve.SizesOk ∧ 0 < smallCurve.r
      ∧ (genKeypair .suggested smallCurve 0 abc "owner").isSome = true
      ∧ ((∀ z ∈ [0, 3], z % smallCurve.r = 0) ∧ 5 % smallCurve.r ≠ 0)
      ∧ onCurve smallCurve ⟨7 % smallCurve.p, 0 % smallCurve.p⟩ = false :=
  ⟨witness_GeneratorLaw, by decide +kernel, by decide, by decide +kernel, by decide, by decide +kernel⟩

/-- The least and the largest capacity. -/
theorem witness_AbsorbXorsEachPaddedBlock :
    (0 % 8 = 0 ∧ 0 ≤ 1592 ∧ 200 = (1600 - 0) / 8) ∧ (1592 % 8 = 0 ∧ 1592 ≤ 1592 ∧ 1 = (1600 - 1592) / 8) := by decide

end Sys2Proof.Tests
end

section
/-! Arithmetic modulo the prime p read in the field `ZMod p`. -/

namespace Sys2Proof.FieldFacts

open Sys2Proof Sys2Proof.Machine

/-- Both numbers are evaluated by the kernel: elaborated without Mathlib, the model's `2 ^ 521` is another power than
`mersenne`'s, and the elaborator would compare them by unfolding. -/
theorem e521P_eq_mersenne : Config.e521P = mersenne 521 := by decide +kernel

/-- R170: `p` is a Mersenne prime, by the Lucas-Lehmer test. -/
theorem e521P_prime : Nat.Prime Config.e521P := by
  rw [e521P_eq_mersenne]
  exact lucas_lehmer_sufficiency 521 (by norm_num) (by norm_num)

/-! ### The values of `powMod` and `invp` -/

/-- The loop squares once for each bit and multiplies in the low bits of the exponent. -/
theorem powModLoop_modEq (m a e : Nat) :
    ∀ i acc, powModLoop m a e i acc ≡ acc ^ 2 ^ i * a ^ (e % 2 ^ i) [MOD m]
  | 0, acc => by simp [powModLoop, Nat.mod_one, Nat.ModEq.refl]
  | i + 1, acc => by
    have square : acc * acc % m ≡ acc ^ 2 [MOD m] := by rw [sq]; exact Nat.mod_modEq _ _
    have rest := powModLoop_modEq m a e i
    have exponent : e % 2 ^ (i + 1) = e % 2 ^ i + 2 ^ i * (e.testBit i).toNat := by
      rw [Nat.mod_pow_succ, Nat.toNat_testBit]
    rw [powModLoop, exponent]
    cases e.testBit i with
    | true =>
      have multiplied : acc * acc % m * a % m ≡ acc ^ 2 * a [MOD m] := (Nat.mod_modEq _ _).trans (square.mul_right a)
      calc powModLoop m a e i (acc * acc % m * a % m)
          ≡ (acc * acc % m * a % m) ^ 2 ^ i * a ^ (e % 2 ^ i) [MOD m] := rest _
        _ ≡ (acc ^ 2 * a) ^ 2 ^ i * a ^ (e % 2 ^ i) [MOD m] := (multiplied.pow _).mul_right _
        _ = acc ^ 2 ^ (i + 1) * a ^ (e % 2 ^ i + 2 ^ i * true.toNat) := by rw [Bool.toNat_true]; ring
    | false =>
      calc powModLoop m a e i (acc * acc % m)
          ≡ (acc * acc % m) ^ 2 ^ i * a ^ (e % 2 ^ i) [MOD m] := rest _
        _ ≡ (acc ^ 2) ^ 2 ^ i * a ^ (e % 2 ^ i) [MOD m] := (square.pow _).mul_right _
        _ = acc ^ 2 ^ (i + 1) * a ^ (e % 2 ^ i + 2 ^ i * false.toNat) := by rw [Bool.toNat_false]; ring

theorem powMod_modEq (a e m : Nat) : powMod a e m ≡ a ^ e [MOD m] := by
  have h := powModLoop_modEq m a e (e.log2 + 1) 1
  rwa [one_pow, one_mul, Nat.mod_eq_of_lt Nat.lt_log2_self] at h

section
variable (cfg : Config) [Fact cfg.p.Prime]

theorem natCast_addp (a b : Nat) : (addp cfg a b : ZMod cfg.p) = a + b := by simp [addp]

theorem natCast_mulp (a b : Nat) : (mulp cfg a b : ZMod cfg.p) = a * b := by simp [mulp]

theorem natCast_subp (a b : Nat) : (subp cfg a b : ZMod cfg.p) = a - b := by
  have positive : (cfg.p : Int) ≠ 0 := by exact_mod_cast (Fact.out : cfg.p.Prime).ne_zero
  have value : ((subp cfg a b : Nat) : Int) = ((a : Int) - b) % cfg.p :=
    Int.toNat_of_nonneg (Int.emod_nonneg _ positive)
  calc (subp cfg a b : ZMod cfg.p) = (((subp cfg a b : Nat) : Int) : ZMod cfg.p) := by push_cast; rfl
    _ = a - b := by rw [value, ZMod.intCast_mod]; push_cast; rfl

/-- R173 by Fermat's little theorem. -/
theorem natCast_invp {a : Nat} (nonzero : (a : ZMod cfg.p) ≠ 0) :
    (invp cfg a : ZMod cfg.p) = (a : ZMod cfg.p)⁻¹ := by
  have remainder : ¬ a % cfg.p = 0 := fun h => nonzero ((ZMod.natCast_eq_zero_iff _ _).2 (Nat.dvd_of_mod_eq_zero h))
  have power : (powMod a (cfg.p - 2) cfg.p : ZMod cfg.p) = (a : ZMod cfg.p) ^ (cfg.p - 2) := by
    exact_mod_cast (ZMod.natCast_eq_natCast_iff _ _ _).2 (powMod_modEq a (cfg.p - 2) cfg.p)
  rw [invp, if_neg remainder, power]
  apply eq_inv_of_mul_eq_one_left
  rw [← pow_succ, show cfg.p - 2 + 1 = cfg.p - 1 by have := (Fact.out : cfg.p.Prime).two_le; omega]
  exact ZMod.pow_card_sub_one_eq_one nonzero

end

end Sys2Proof.FieldFacts
end

section
/-! The order of the generator, computed without inversions: multiples in homogeneous coordinates stand for the points that
R195's `pt_add` gives as long as no denominator vanishes. -/

namespace Sys2Proof.HomogeneousPoints

open Sys2Proof Sys2Proof.Machine Sys2Proof.FieldFacts

/-- Numerators of both coordinates over a common denominator. -/
structure Homogeneous where
  x : Nat
  y : Nat
  z : Nat

/-- The point over the denominator 1. -/
def ofPoint (a : Point) : Homogeneous := ⟨a.x, a.y, 1⟩

/-- R195's sum without its inversions. With `w` the product of the denominators, `1 ± t` are `plus / w²` and `minus / w²`.
All three coordinates carry one factor `w` more than they need, so that a zero denominator of a summand is passed on. -/
def add (cfg : Config) (a b : Homogeneous) : Homogeneous :=
  let w := mulp cfg a.z b.z
  let t := mulp cfg cfg.d (mulp cfg (mulp cfg a.x b.x) (mulp cfg a.y b.y))
  let plus := addp cfg (mulp cfg w w) t
  let minus := subp cfg (mulp cfg w w) t
  let sumX := addp cfg (mulp cfg a.x b.y) (mulp cfg a.y b.x)
  let sumY := subp cfg (mulp cfg a.y b.y) (mulp cfg a.x b.x)
  ⟨mulp cfg (mulp cfg w w) (mulp cfg minus sumX), mulp cfg (mulp cfg w w) (mulp cfg plus sumY),
    mulp cfg w (mulp cfg plus minus)⟩

/-- `doubleAndAdd` in homogeneous coordinates. -/
def doubleAndAddHom (cfg : Config) (k : Nat) (base : Homogeneous) : Nat → Homogeneous → Homogeneous
  | 0, acc => acc
  | i + 1, acc =>
    let doubled := add cfg acc acc
    doubleAndAddHom cfg k base i (if k.testBit i then add cfg doubled base else doubled)

/-- The coordinates stand for the point, unless the denominator is 0. -/
def Represents (cfg : Config) (h : Homogeneous) (a : Point) : Prop :=
  (h.z : ZMod cfg.p) ≠ 0 → (a.x : ZMod cfg.p) * h.z = h.x ∧ (a.y : ZMod cfg.p) * h.z = h.y

theorem represents_ofPoint (cfg : Config) (a : Point) : Represents cfg (ofPoint a) a := by
  intro _
  simp [ofPoint]

section
variable {cfg : Config} [Fact cfg.p.Prime]

/-- R195 in the field, where neither denominator vanishes. -/
theorem natCast_ptAdd {a b : Point} {t : ZMod cfg.p} (ht : t = cfg.d * (a.x * b.x * (a.y * b.y)))
    (plus : 1 + t ≠ 0) (minus : 1 - t ≠ 0) :
    ((ptAdd cfg a b).x : ZMod cfg.p) = (a.x * b.y + a.y * b.x) / (1 + t)
      ∧ ((ptAdd cfg a b).y : ZMod cfg.p) = (a.y * b.y - a.x * b.x) / (1 - t) := by
  have term : (addTerm cfg a b : ZMod cfg.p) = t := by simp only [addTerm, natCast_mulp, ht]
  have plusCast : (addp cfg 1 (addTerm cfg a b) : ZMod cfg.p) = 1 + t := by rw [natCast_addp, term, Nat.cast_one]
  have minusCast : (subp cfg 1 (addTerm cfg a b) : ZMod cfg.p) = 1 - t := by rw [natCast_subp, term, Nat.cast_one]
  constructor
  · rw [ptAdd, natCast_mulp, natCast_invp cfg (by rwa [plusCast]), plusCast, natCast_addp, natCast_mulp, natCast_mulp,
      div_eq_mul_inv]
  · rw [ptAdd, natCast_mulp, natCast_invp cfg (by rwa [minusCast]), minusCast, natCast_subp, natCast_mulp, natCast_mulp,
      div_eq_mul_inv]

theorem represents_add {h k : Homogeneous} {a b : Point} (ha : Represents cfg h a) (hb : Represents cfg k b) :
    Represents cfg (add cfg h k) (ptAdd cfg a b) := by
  intro nonzero
  simp only [add, natCast_mulp, natCast_addp, natCast_subp, mul_ne_zero_iff] at nonzero ⊢
  obtain ⟨⟨hz, kz⟩, plus, minus⟩ := nonzero
  obtain ⟨hx, hy⟩ := ha hz
  obtain ⟨kx, ky⟩ := hb kz
  rw [← hx, ← hy, ← kx, ← ky] at plus minus ⊢
  generalize (h.z : ZMod cfg.p) = u at *
  generalize (k.z : ZMod cfg.p) = v at *
  obtain ⟨t, ht⟩ : ∃ t : ZMod cfg.p, t = cfg.d * (a.x * b.x * (a.y * b.y)) := ⟨_, rfl⟩
  have scaled : (cfg.d : ZMod cfg.p) * (a.x * u * (b.x * v) * (a.y * u * (b.y * v))) = u * v * (u * v) * t := by
    rw [ht]; ring
  have plusFactor : u * v * (u * v) + u * v * (u * v) * t = u * v * (u * v) * (1 + t) := by ring
  have minusFactor : u * v * (u * v) - u * v * (u * v) * t = u * v * (u * v) * (1 - t) := by ring
  rw [scaled, plusFactor] at plus
  rw [scaled, minusFactor] at minus
  rw [scaled, plusFactor, minusFactor]
  replace plus : 1 + t ≠ 0 := right_ne_zero_of_mul plus
  replace minus : 1 - t ≠ 0 := right_ne_zero_of_mul minus
  obtain ⟨sumX, sumY⟩ := natCast_ptAdd ht plus minus
  rw [sumX, sumY]
  constructor <;> field_simp

theorem represents_doubleAndAdd (k : Nat) {g : Homogeneous} {base : Point} (hg : Represents cfg g base) :
    ∀ (i : Nat) {h : Homogeneous} {acc : Point}, Represents cfg h acc →
      Represents cfg (doubleAndAddHom cfg k g i h) (doubleAndAdd cfg k base i acc)
  | 0, _, _, hacc => hacc
  | i + 1, h, acc, hacc => by
    have doubled := represents_add hacc hacc
    rw [doubleAndAddHom, doubleAndAdd]
    refine represents_doubleAndAdd k hg i ?_
    split
    · exact represents_add doubled hg
    · exact doubled
end

/-- `ptMulUnreduced` in homogeneous coordinates. -/
def multiple (cfg : Config) (k : Nat) (a : Point) : Homogeneous :=
  doubleAndAddHom cfg k (ofPoint a) (bitLength k) (ofPoint Point.identity)

/-- The coordinates `(0 : z : z)` with `z` not zero, those of the identity (R194). -/
abbrev Homogeneous.IsIdentity (cfg : Config) (h : Homogeneous) : Prop :=
  h.z % cfg.p ≠ 0 ∧ h.x % cfg.p = 0 ∧ h.y % cfg.p = h.z % cfg.p

/-! ### Results of the loop are reduced -/

theorem ptAdd_lt {cfg : Config} (positive : 0 < cfg.p) (a b : Point) :
    (ptAdd cfg a b).x < cfg.p ∧ (ptAdd cfg a b).y < cfg.p :=
  ⟨Nat.mod_lt _ positive, Nat.mod_lt _ positive⟩

theorem doubleAndAdd_lt {cfg : Config} (positive : 0 < cfg.p) (k : Nat) (base : Point) :
    ∀ (i : Nat) {acc : Point}, acc.x < cfg.p ∧ acc.y < cfg.p →
      (doubleAndAdd cfg k base i acc).x < cfg.p ∧ (doubleAndAdd cfg k base i acc).y < cfg.p
  | 0, _, hacc => hacc
  | i + 1, acc, _ => by
    rw [doubleAndAdd]
    refine doubleAndAdd_lt positive k base i ?_
    split
    · exact ptAdd_lt positive _ _
    · exact ptAdd_lt positive _ _

section
variable {cfg : Config} [Fact cfg.p.Prime]

theorem ptMulUnreduced_lt (k : Nat) (a : Point) :
    (ptMulUnreduced cfg k a).x < cfg.p ∧ (ptMulUnreduced cfg k a).y < cfg.p := by
  have prime : cfg.p.Prime := Fact.out
  exact doubleAndAdd_lt prime.pos k a _ ⟨prime.pos, prime.one_lt⟩

theorem represents_multiple (k : Nat) (a : Point) : Represents cfg (multiple cfg k a) (ptMulUnreduced cfg k a) :=
  represents_doubleAndAdd k (represents_ofPoint cfg a) _ (represents_ofPoint cfg Point.identity)

theorem eq_identity_of_represents {h : Homogeneous} {a : Point} (reduced : a.x < cfg.p ∧ a.y < cfg.p)
    (ha : Represents cfg h a) (identity : h.IsIdentity cfg) : a = Point.identity := by
  obtain ⟨hz, hx, hy⟩ := identity
  obtain ⟨ltX, ltY⟩ := reduced
  have nonzero : (h.z : ZMod cfg.p) ≠ 0 := fun zero =>
    hz (Nat.mod_eq_zero_of_dvd ((ZMod.natCast_eq_zero_iff _ _).1 zero))
  obtain ⟨xz, yz⟩ := ha nonzero
  have x0 : (a.x : ZMod cfg.p) = 0 := by
    rw [(ZMod.natCast_eq_zero_iff _ _).2 (Nat.dvd_of_mod_eq_zero hx)] at xz
    exact (mul_eq_zero.1 xz).resolve_right nonzero
  have y1 : (a.y : ZMod cfg.p) = (1 : Nat) := by
    rw [(ZMod.natCast_eq_natCast_iff' _ _ _).2 hy] at yz
    exact_mod_cast mul_right_cancel₀ nonzero (yz.trans (one_mul _).symm)
  have ax : a.x = 0 := Nat.eq_zero_of_dvd_of_lt ((ZMod.natCast_eq_zero_iff _ _).1 x0) ltX
  have ay : a.y = 1 :=
    Nat.ModEq.eq_of_lt_of_lt ((ZMod.natCast_eq_natCast_iff _ _ _).1 y1) ltY (Fact.out : cfg.p.Prime).one_lt
  cases a
  exact congrArg₂ Point.mk ax ay

end

/-! ### The default configuration -/

theorem default_fixedConstants : Config.default.FixedConstants := by decide +kernel

theorem default_p_prime : Config.default.p.Prime := by
  obtain ⟨p_eq, -, -, -⟩ := default_fixedConstants
  rw [p_eq]
  exact e521P_prime

/-- The computation of `r·G`: its denominator is not zero, so none on the way was. -/
theorem multiple_order_generator_isIdentity :
    (multiple Config.default Config.default.r (generator Config.default)).IsIdentity Config.default := by
  decide +kernel

/-- R192: `r·G` is the identity. -/
theorem ptMulUnreduced_order_generator :
    ptMulUnreduced Config.default Config.default.r (generator Config.default) = Point.identity := by
  have : Fact Config.default.p.Prime := ⟨default_p_prime⟩
  exact eq_identity_of_represents (ptMulUnreduced_lt _ _) (represents_multiple _ _) multiple_order_generator_isIdentity

theorem default_sizesOk : Config.default.SizesOk := by decide

/-- G is a point of the curve other than the identity. -/
theorem default_generator_onCurve :
    (generator Config.default).Valid Config.default ∧ generator Config.default ≠ Point.identity := by decide +kernel

theorem default_generatorOk : Config.default.GeneratorOk := by
  obtain ⟨⟨ltX, ltY, curve⟩, notIdentity⟩ := default_generator_onCurve
  exact ⟨ltX, ltY, curve, notIdentity, ptMulUnreduced_order_generator⟩

/-- Settles O51: sizes and constants by evaluation, the generator's order in homogeneous coordinates. -/
theorem defaultConfigurationIsAdmissible : Obligations.DefaultConfigurationIsAdmissible :=
  ⟨default_fixedConstants, default_sizesOk, default_generatorOk⟩

end Sys2Proof.HomogeneousPoints
end

section
/-! Bytes of numbers, the byte view of the grid and the address map (R8, R33, R55 to R59). -/

namespace Sys2Proof.ByteMap

open Sys2Proof Sys2Proof.Machine

/-! ### Bytes of numbers -/

/-- R33, R56: byte `j` of a word counts from the least significant end. -/
theorem byteOf_eq {w : Nat} (v : BitVec w) (j : Nat) : byteOf v j = BitVec.ofNat 8 (v.toNat / 256 ^ j) := by
  apply BitVec.eq_of_toNat_eq
  rw [byteOf, BitVec.extractLsb'_toNat, BitVec.toNat_ofNat, Nat.shiftRight_eq_div_pow, pow_mul]
  rfl

/-- The bytes of a number kept in `8k` bits are those of the number. -/
theorem byteOf_ofNat (k v : Nat) {j : Nat} (h : j < k) :
    byteOf (BitVec.ofNat (8 * k) v) j = BitVec.ofNat 8 (v / 256 ^ j) := by
  obtain ⟨n, rfl⟩ := Nat.exists_eq_add_of_lt h
  have split : 2 ^ (8 * (j + n + 1)) = 256 ^ j * (256 * 256 ^ n) := by
    rw [pow_mul, show 2 ^ 8 = 256 from rfl, ← pow_succ', ← pow_add, Nat.add_assoc]
  apply BitVec.eq_of_toNat_eq
  rw [byteOf_eq, BitVec.toNat_ofNat, BitVec.toNat_ofNat, BitVec.toNat_ofNat, split, Nat.mod_mul_right_div_self]
  exact Nat.mod_mul_right_mod _ _ _

/-- R8: `enc_k(v)` byte by byte. -/
theorem leBytes_getElem? (k v j : Nat) :
    (leBytes k v)[j]? = if j < k then some (BitVec.ofNat 8 (v / 256 ^ j)) else none := by
  induction k generalizing v j with
  | zero => rfl
  | succ k ih =>
    cases j with
    | zero => rw [leBytes, List.getElem?_cons_zero, if_pos (Nat.succ_pos k), pow_zero, Nat.div_one]
    | succ j =>
      simp only [leBytes, List.getElem?_cons_succ, ih, Nat.add_lt_add_iff_right, Nat.div_div_eq_div_mul, pow_succ']

/-- R8: `LE` undoes `enc_k`. -/
theorem leValue_leBytes (k v : Nat) : leValue (leBytes k v) = v % 256 ^ k := by
  induction k generalizing v with
  | zero => rw [pow_zero, Nat.mod_one]; rfl
  | succ k ih =>
    rw [leBytes, leValue, ih, BitVec.toNat_ofNat, pow_succ' 256 k, Nat.mod_mul]

/-- R8: `enc_k` undoes `LE` on strings of `k` bytes. -/
theorem leBytes_leValue (l : List Byte) : leBytes l.length (leValue l) = l := by
  induction l with
  | nil => rfl
  | cons b bs ih =>
    have low : BitVec.ofNat 8 (b.toNat + 256 * leValue bs) = b := by
      apply BitVec.eq_of_toNat_eq
      have := b.isLt
      rw [BitVec.toNat_ofNat]
      omega
    have high : (b.toNat + 256 * leValue bs) / 256 = leValue bs := by
      have := b.isLt
      omega
    rw [List.length_cons, leBytes, leValue, low, high, ih]

theorem leValue_lt (l : List Byte) : leValue l < 256 ^ l.length := by
  have h := leValue_leBytes l.length (leValue l)
  rw [leBytes_leValue] at h
  rw [h]
  exact Nat.mod_lt _ (by positivity)

/-! ### The byte view -/

theorem bytes_length (a : Grid) : a.bytes.length = 200 := by rw [Grid.bytes, List.length_map, List.length_range]

theorem bytes_getElem? (a : Grid) (i : Nat) : a.bytes[i]? = if i < 200 then some (a.byte i) else none := by
  by_cases h : i < 200 <;> simp [Grid.bytes, h]

/-- R33: byte `k` of lane (x, y) is byte `8(x + 5y) + k` of the view. -/
theorem byte_of_lane (a : Grid) {x k : Nat} (y : Nat) (hx : x < 5) (hk : k < 8) :
    a.byte (8 * (x + 5 * y) + k) = BitVec.ofNat 8 ((a.lane x y).toNat / 256 ^ k) := by
  have column : (8 * (x + 5 * y) + k) / 8 % 5 = x := by omega
  have row : (8 * (x + 5 * y) + k) / 8 / 5 = y := by omega
  have place : (8 * (x + 5 * y) + k) % 8 = k := by omega
  rw [Grid.byte, byteOf_eq, column, row, place]

/-- The eight bytes of a lane, cut out of the byte view. -/
theorem bytes_of_lane (a : Grid) {x y : Nat} (hx : x < 5) (hy : y < 5) :
    (a.bytes.drop (8 * (x + 5 * y))).take 8 = leBytes 8 (a.lane x y).toNat := by
  apply List.ext_getElem?
  intro k
  rw [List.getElem?_take, leBytes_getElem?, List.getElem?_drop, bytes_getElem?]
  split
  · rw [if_pos (by omega), byte_of_lane a y hx (by assumption)]
  · rfl

theorem ofBytes_lane (b : List Byte) {x y : Nat} (hx : x < 5) (hy : y < 5) :
    (Grid.ofBytes b).lane x y = BitVec.ofNat 64 (leValue ((b.drop (8 * (x + 5 * y))).take 8)) :=
  lane_ofLanes _ hx hy

theorem ofBytes_bytes (a : Grid) : Grid.ofBytes a.bytes = a := by
  apply grid_ext
  intro x y hx hy
  rw [ofBytes_lane _ hx hy, bytes_of_lane a hx hy, leValue_leBytes]
  have fits : (a.lane x y).toNat < 256 ^ 8 := (a.lane x y).isLt
  rw [Nat.mod_eq_of_lt fits, BitVec.ofNat_toNat, BitVec.setWidth_eq]

/-- Byte `i` of the grid that a string of 200 bytes gives is the string's byte. -/
theorem ofBytes_byte {b : List Byte} (h : b.length = 200) {i : Nat} (hi : i < 200) :
    some ((Grid.ofBytes b).byte i) = b[i]? := by
  obtain ⟨x, y, k, hx, hy, hk, rfl⟩ : ∃ x y k, x < 5 ∧ y < 5 ∧ k < 8 ∧ i = 8 * (x + 5 * y) + k :=
    ⟨i / 8 % 5, i / 8 / 5, i % 8, by omega, by omega, by omega, by omega⟩
  obtain ⟨piece, hpiece⟩ : ∃ l, l = (b.drop (8 * (x + 5 * y))).take 8 := ⟨_, rfl⟩
  have eight : piece.length = 8 := by
    rw [hpiece, List.length_take, List.length_drop]
    omega
  have fits : leValue piece < 2 ^ 64 := by
    have := leValue_lt piece
    rwa [eight] at this
  have byte : piece[k]? = some (BitVec.ofNat 8 (leValue piece / 256 ^ k)) := by
    conv_lhs => rw [← leBytes_leValue piece, eight, leBytes_getElem?, if_pos hk]
  rw [byte_of_lane _ y hx hk, ofBytes_lane b hx hy, ← hpiece, BitVec.toNat_ofNat, Nat.mod_eq_of_lt fits, ← byte, hpiece,
    List.getElem?_take, if_pos hk, List.getElem?_drop]

theorem bytes_ofBytes {b : List Byte} (h : b.length = 200) : (Grid.ofBytes b).bytes = b := by
  apply List.ext_getElem?
  intro i
  rw [bytes_getElem?]
  split
  · exact ofBytes_byte h (by assumption)
  · rw [List.getElem?_eq_none (by omega)]

/-- Settles O24: both compositions, lane by lane and byte by byte. -/
theorem byteViewIsABijection : Obligations.ByteViewIsABijection :=
  ⟨fun a => ⟨bytes_length a, ofBytes_bytes a⟩, fun _ => bytes_ofBytes⟩

/-! ### The address map -/

theorem locate_eq_input_iff {cfg : Config} {a : Addr} {j : Nat} :
    locate cfg a = some (.input j) ↔ a.toNat = 0x4000 + j ∧ j < 0x4000 ∧ j < cfg.ibufSize := by
  simp only [locate, ite_eq_iff, Option.some.injEq, Location.input.injEq, reduceCtorEq, and_false, or_false, false_or]
  omega

theorem locate_eq_output_iff {cfg : Config} {a : Addr} {j : Nat} :
    locate cfg a = some (.output j) ↔ a.toNat = 0x8000 + j ∧ j < 0x4000 ∧ j < cfg.obufSize := by
  simp only [locate, ite_eq_iff, Option.some.injEq, Location.output.injEq, reduceCtorEq, and_false, or_false, false_or]
  omega

theorem locate_eq_lanes_iff {cfg : Config} {a : Addr} {i : Nat} :
    locate cfg a = some (.lanes i) ↔ a.toNat = 0x0100 + i ∧ i < 200 := by
  simp only [locate, ite_eq_iff, Option.some.injEq, Location.lanes.injEq, reduceCtorEq, and_false, or_false, false_or]
  omega

/-- R55: the unmapped addresses. -/
theorem locate_eq_none_iff {cfg : Config} {a : Addr} :
    locate cfg a = none ↔
      0x0018 ≤ a.toNat ∧ a.toNat < 0x0100 ∨ 0x01C8 ≤ a.toNat ∧ a.toNat < 0x0400
        ∨ 0x0400 ≤ a.toNat ∧ a.toNat < 0x0F00 ∧ 66 ≤ a.toNat % 0x80
        ∨ 0x0F00 ≤ a.toNat ∧ a.toNat < 0x4000
        ∨ 0x4000 + cfg.ibufSize ≤ a.toNat ∧ a.toNat < 0x8000
        ∨ 0x8000 + cfg.obufSize ≤ a.toNat ∧ a.toNat < 0xC000
        ∨ 0xC000 ≤ a.toNat := by
  simp only [locate, ite_eq_iff, reduceCtorEq, and_false, false_or, and_true]
  omega

/-- The number of a bus address. -/
theorem toNat_addr {n : Nat} (h : n < 0x10000) : (BitVec.ofNat 16 n).toNat = n :=
  (BitVec.toNat_ofNat n 16).trans (Nat.mod_eq_of_lt h)

theorem locate_control (cfg : Config) {n j : Nat} (hn : n < 6) (hj : j < 4) :
    locate cfg (BitVec.ofNat 16 (4 * n + j)) = some (.control (ControlReg.ofIndex n) j) := by
  have register : (4 * n + j) / 4 = n := by omega
  have place : (4 * n + j) % 4 = j := by omega
  simp only [locate, toNat_addr (show 4 * n + j < 0x10000 by omega), register, place]
  exact if_pos (by omega)

theorem locate_reg (cfg : Config) (i : Reg) {j : Nat} (hj : j < 66) :
    locate cfg (BitVec.ofNat 16 (0x0400 + 0x80 * i.val + j)) = some (.reg i j) := by
  have hi := i.isLt
  have register : (0x0400 + 0x80 * i.val + j - 0x0400) / 0x80 = i.val := by omega
  have place : (0x0400 + 0x80 * i.val + j - 0x0400) % 0x80 = j := by omega
  simp only [locate, toNat_addr (show 0x0400 + 0x80 * i.val + j < 0x10000 by omega), register, place]
  rw [if_neg (by omega), if_neg (by omega), if_neg (by omega), if_neg (by omega), if_pos (by omega), if_pos hj,
    Fin.ofNat_val_eq_self]

theorem locate_param (cfg : Config) (k : Fin 6) {j : Nat} (hj : j < 66) :
    locate cfg (BitVec.ofNat 16 (0x0C00 + 0x80 * k.val + j)) = some (.param k j) := by
  have hk := k.isLt
  have constant : (0x0C00 + 0x80 * k.val + j - 0x0C00) / 0x80 = k.val := by omega
  have place : (0x0C00 + 0x80 * k.val + j - 0x0C00) % 0x80 = j := by omega
  simp only [locate, toNat_addr (show 0x0C00 + 0x80 * k.val + j < 0x10000 by omega), constant, place]
  rw [if_neg (by omega), if_neg (by omega), if_neg (by omega), if_neg (by omega), if_neg (by omega), if_pos (by omega),
    if_pos hj, Fin.ofNat_val_eq_self]

/-! ### What the addresses read as -/

theorem peek_of_locate {s : State} {a : Addr} {l : Location} (h : locate s.cfg a = some l) :
    s.peek a = some (s.byteAt l) := by
  rw [State.peek, h, Option.map_some]

theorem peek_control (s : State) {n j : Nat} (hn : n < 6) (hj : j < 4) :
    s.peek (BitVec.ofNat 16 (4 * n + j))
      = some (BitVec.ofNat 8 ((s.control (ControlReg.ofIndex n)).toNat / 256 ^ j)) := by
  rw [peek_of_locate (locate_control s.cfg hn hj), State.byteAt, byteOf_eq]

theorem peek_lane (s : State) {x y k : Nat} (hx : x < 5) (hy : y < 5) (hk : k < 8) :
    s.peek (BitVec.ofNat 16 (0x0100 + (8 * (x + 5 * y) + k)))
      = some (BitVec.ofNat 8 ((s.st.lane x y).toNat / 256 ^ k)) := by
  have mapped : locate s.cfg (BitVec.ofNat 16 (0x0100 + (8 * (x + 5 * y) + k))) = some (.lanes (8 * (x + 5 * y) + k)) :=
    locate_eq_lanes_iff.2 ⟨toNat_addr (by omega), by omega⟩
  rw [peek_of_locate mapped, State.byteAt, byte_of_lane s.st y hx hk]

theorem peek_reg (s : State) (i : Reg) {j : Nat} (hj : j < 66) :
    s.peek (BitVec.ofNat 16 (0x0400 + 0x80 * i.val + j)) = some (BitVec.ofNat 8 (s.reg i / 256 ^ j)) := by
  rw [peek_of_locate (locate_reg s.cfg i hj), State.byteAt, byteOf_eq, State.reg]

/-- R36: a constant reads as the low 528 bits of its number. -/
theorem peek_param (s : State) (k : Fin 6) {v j : Nat} (hv : paramValue s.cfg k = BitVec.ofNat 528 v) (hj : j < 66) :
    s.peek (BitVec.ofNat 16 (0x0C00 + 0x80 * k.val + j)) = some (BitVec.ofNat 8 (v / 256 ^ j)) := by
  rw [peek_of_locate (locate_param s.cfg k hj), State.byteAt, hv]
  exact congrArg some (byteOf_ofNat 66 v hj)

/-- Settles O19: by the part of the map an address lies in. -/
theorem addressMapReadsLittleEndian : Obligations.AddressMapReadsLittleEndian := by
  intro s sizes
  obtain ⟨-, -, -, -, -, -, -, -, -, -, -, -, -, ⟨-, ibufSize⟩, -, obufSize⟩ := sizes
  refine ⟨fun j hj => ?control, fun x y k hx hy hk => peek_lane s hx hy hk, fun i j hj => peek_reg s i hj,
    fun j hj => ?param, fun j hj => ?input, fun j hj => ?output, fun a unmapped => ?unmapped⟩
  case control =>
    exact ⟨peek_control s (n := 0) (by decide) hj, peek_control s (n := 1) (by decide) hj,
      peek_control s (n := 2) (by decide) hj, peek_control s (n := 3) (by decide) hj,
      peek_control s (n := 4) (by decide) hj, peek_control s (n := 5) (by decide) hj⟩
  case param =>
    exact ⟨peek_param s 0 rfl hj, peek_param s 1 rfl hj, peek_param s 2 rfl hj, peek_param s 3 rfl hj,
      peek_param s 4 rfl hj, peek_param s 5 rfl hj⟩
  case input =>
    exact peek_of_locate (locate_eq_input_iff.2 ⟨toNat_addr (by omega), by omega, hj⟩)
  case output =>
    exact peek_of_locate (locate_eq_output_iff.2 ⟨toNat_addr (by omega), by omega, hj⟩)
  case unmapped =>
    rw [State.peek, locate_eq_none_iff.2 unmapped, Option.map_none]

end Sys2Proof.ByteMap
end

section
/-! What a command, a transaction and a step leave unchanged (R20, R24, R54). -/

namespace Sys2Proof.Frame

open Sys2Proof Sys2Proof.Machine

/-! ### The length of a squeezed string -/

/-- R133: the output is cut to `ceil8(L)` bytes. -/
theorem truncateBits_length (out : List Byte) (bits : Nat) :
    (truncateBits out bits).length = min (ceil8 bits) out.length := by
  unfold truncateBits
  split
  · simp only [List.length_modify, List.length_take]
  · exact List.length_take

theorem squeeze_length_le (a : Grid) (bits rate : Nat) : (squeeze a bits rate).1.length ≤ ceil8 bits :=
  (truncateBits_length _ bits).trans_le (Nat.min_le_left _ _)

theorem sponge_length_le (msg : List Byte) (cap : Nat) (ds : Byte) (bits : Nat) :
    (sponge msg cap ds bits).length ≤ ceil8 bits :=
  squeeze_length_le _ bits _

/-! ### How a command can end -/

/-- `t` is `s` after the command `i` completed: RESULT holds a code that commands write, the rest is as in `s` but for
what R20 lists as written by `i`, and `OBUF` and `OLEN` are both kept or both those of one output that fits `OBUF`. -/
structure Completed (i : Instr) (s t : State) : Prop where
  result : t.result ∈ [0, 1, 2, 4]
  regs : writesRegs i = false → t.regs = s.regs
  lanes : writesLanes i = false → t.st = s.st
  output : (t.obuf = s.obuf ∧ t.olen = s.olen)
    ∨ writesOutput i = true ∧ ∃ out : List Byte, t.obuf = s.obuf.writeBytes 0 out ∧ t.olen = BitVec.ofNat 32 out.length
        ∧ (s.cfg.SizesOk → out.length ≤ s.cfg.obufSize)
  frame : t = { s with regs := t.regs, st := t.st, obuf := t.obuf, olen := t.olen, result := t.result }

/-- `t` is `s` after the command `i` was refused with a fault of its own (R272). -/
def Refused (i : Instr) (s t : State) : Prop :=
  ∃ code, (code = .badParam ∨ code = .lenRange) ∧ t = raiseFault code (encode i) s

/-- No command writes AUTH_FAILURE (R26). -/
theorem number_mem {code : ResultCode} (h : code ≠ .authFailure) : code.number ∈ ([0, 1, 2, 4] : List Word) := by
  cases code with
  | authFailure => exact absurd rfl h
  | ok | malformedPoint | invalidScalar | signatureInvalid => decide

theorem completed_finish (i : Instr) (s : State) {code : ResultCode} (h : code ≠ .authFailure) :
    Completed i s (finish code s) where
  result := number_mem h
  regs _ := rfl
  lanes _ := rfl
  output := .inl ⟨rfl, rfl⟩
  frame := rfl

theorem completed_lanes {i : Instr} (hi : writesLanes i = true) (s : State) (a : Grid) {code : ResultCode}
    (h : code ≠ .authFailure) : Completed i s (finish code { s with st := a }) where
  result := number_mem h
  regs _ := rfl
  lanes hn := absurd (hi.symm.trans hn) (by decide)
  output := .inl ⟨rfl, rfl⟩
  frame := rfl

theorem completed_regs {i : Instr} (hi : writesRegs i = true) (s : State) (v : Vector Big 16) :
    Completed i s (finish .ok { s with regs := v }) where
  result := number_mem (code := .ok) (by decide)
  regs hn := absurd (hi.symm.trans hn) (by decide)
  lanes _ := rfl
  output := .inl ⟨rfl, rfl⟩
  frame := rfl

theorem completed_output {i : Instr} (hi : writesOutput i = true) (hl : writesLanes i = true) (s : State)
    (out : List Byte) (a : Grid) (fits : s.cfg.SizesOk → out.length ≤ s.cfg.obufSize) :
    Completed i s (finish .ok { s.writeOutput out with st := a }) where
  result := number_mem (code := .ok) (by decide)
  regs _ := rfl
  lanes hn := absurd (hl.symm.trans hn) (by decide)
  output := .inr ⟨hi, out, rfl, rfl, fits⟩
  frame := rfl

theorem completed_signature {i : Instr} (hr : writesRegs i = true) (hl : writesLanes i = true) (rh rs : Reg)
    (sig : Nat × Nat) (s : State) : Completed i s (writeSignature rh rs sig s) where
  result := number_mem (code := .ok) (by decide)
  regs hn := absurd (hr.symm.trans hn) (by decide)
  lanes hn := absurd (hl.symm.trans hn) (by decide)
  output := .inl ⟨rfl, rfl⟩
  frame := rfl

theorem ceil8_le_of_not_outputTooLong {s : State} (h : s.outputTooLong = false) :
    ceil8 s.obits.toNat ≤ s.cfg.obufSize :=
  Nat.not_lt.1 (of_decide_eq_false h)

/-- R272, R273: the answer of a command is a fault of its own or a completed state. -/
theorem exec_refused_or_completed (i : Instr) (s : State) :
    ∃ t, exec i s = .next t ∧ (Refused i s t ∨ Completed i s t) := by
  cases i with
  | keccakF => exact ⟨_, rfl, .inr (completed_lanes rfl s _ (by decide))⟩
  | absorb cap ds =>
    rcases execAbsorb_cases cap ds s with ⟨-, h⟩ | ⟨-, -, h⟩ | ⟨-, -, h⟩
    · exact ⟨_, h, .inl ⟨_, .inl rfl, rfl⟩⟩
    · exact ⟨_, h, .inl ⟨_, .inr rfl, rfl⟩⟩
    · exact ⟨_, h, .inr (completed_lanes rfl s _ (by decide))⟩
  | squeeze rate =>
    rcases execSqueeze_cases rate s with ⟨-, h⟩ | ⟨-, -, h⟩ | ⟨-, fits, h⟩
    · exact ⟨_, h, .inl ⟨_, .inl rfl, rfl⟩⟩
    · exact ⟨_, h, .inl ⟨_, .inr rfl, rfl⟩⟩
    · exact ⟨_, h, .inr (completed_output rfl rfl s _ _ fun _ =>
        (squeeze_length_le _ _ _).trans (ceil8_le_of_not_outputTooLong fits))⟩
  | hash =>
    rcases execHash_cases s with ⟨-, h⟩ | ⟨-, h⟩
    · exact ⟨_, h, .inl ⟨_, .inr rfl, rfl⟩⟩
    · exact ⟨_, h, .inr (completed_output rfl rfl s _ _ fun sizes => by
        obtain ⟨-, -, -, -, -, -, -, -, -, -, -, hashFits, -⟩ := sizes
        exact (sponge_length_le _ _ _ _).trans hashFits)⟩
  | kdf =>
    rcases execKdf_cases s with ⟨-, h⟩ | ⟨-, fits, h⟩
    · exact ⟨_, h, .inl ⟨_, .inr rfl, rfl⟩⟩
    · exact ⟨_, h, .inr (completed_output rfl rfl s _ _ fun _ =>
        (sponge_length_le _ _ _ _).trans (ceil8_le_of_not_outputTooLong fits))⟩
  | mac =>
    rcases execMac_cases s with ⟨-, h⟩ | ⟨-, h⟩
    · exact ⟨_, h, .inl ⟨_, .inr rfl, rfl⟩⟩
    · exact ⟨_, h, .inr (completed_output rfl rfl s _ _ fun sizes => by
        obtain ⟨-, -, -, -, -, -, -, -, -, -, -, -, tagFits, -⟩ := sizes
        exact (sponge_length_le _ _ _ _).trans tagFits)⟩
  | fmul rd ra rb => exact ⟨_, rfl, .inr (completed_regs rfl s _)⟩
  | finv rd ra =>
    rcases execFinv_cases rd ra s with ⟨-, h⟩ | ⟨-, h⟩
    · exact ⟨_, h, .inr (completed_finish _ s (by decide))⟩
    · exact ⟨_, h, .inr (completed_regs rfl s _)⟩
  | padd pd pa pb =>
    rcases execPadd_cases pd pa pb s with ⟨-, h⟩ | ⟨_, _, -, -, h⟩
    · exact ⟨_, h, .inr (completed_finish _ s (by decide))⟩
    · exact ⟨_, h, .inr (completed_regs rfl s _)⟩
  | pdbl pd pa =>
    rcases execPdbl_cases pd pa s with ⟨-, h⟩ | ⟨_, -, h⟩
    · exact ⟨_, h, .inr (completed_finish _ s (by decide))⟩
    · exact ⟨_, h, .inr (completed_regs rfl s _)⟩
  | pmul pd rk pa =>
    rcases execPmul_cases pd rk pa s with ⟨-, h⟩ | ⟨_, -, h⟩
    · exact ⟨_, h, .inr (completed_finish _ s (by decide))⟩
    · exact ⟨_, h, .inr (completed_regs rfl s _)⟩
  | sign rh rs rd =>
    rcases execSign_cases rh rs rd s with ⟨-, h⟩ | ⟨-, -, h⟩ | ⟨-, -, -, h⟩ | ⟨_, -, -, -, h⟩
    · exact ⟨_, h, .inl ⟨_, .inr rfl, rfl⟩⟩
    · exact ⟨_, h, .inr (completed_finish _ s (by decide))⟩
    · exact ⟨_, h, .inr (completed_lanes rfl s _ (by decide))⟩
    · exact ⟨_, h, .inr (completed_signature rfl rfl _ _ _ s)⟩
  | signX rh rs rd rk =>
    rcases execSignX_cases rh rs rd rk s with ⟨-, h⟩ | ⟨-, -, h⟩ | ⟨-, -, -, h⟩
    · exact ⟨_, h, .inl ⟨_, .inr rfl, rfl⟩⟩
    · exact ⟨_, h, .inr (completed_finish _ s (by decide))⟩
    · exact ⟨_, h, .inr (completed_signature rfl rfl _ _ _ s)⟩
  | verify rh rs pv =>
    rcases execVerify_cases rh rs pv s with ⟨-, h⟩ | ⟨-, -, h⟩ | ⟨-, -, -, -, h⟩ | ⟨_, _, -, -, -, -, hcode, h⟩
    · exact ⟨_, h, .inl ⟨_, .inr rfl, rfl⟩⟩
    · exact ⟨_, h, .inr (completed_finish _ s (by decide))⟩
    · exact ⟨_, h, .inr (completed_finish _ s (by decide))⟩
    · exact ⟨_, h, .inr (completed_lanes rfl s _ (by rw [hcode]; split <;> decide))⟩

/-- How the command ended whose answer is known. -/
theorem exec_inversion {i : Instr} {s t : State} (h : exec i s = .next t) : Refused i s t ∨ Completed i s t := by
  obtain ⟨u, hu, ended⟩ := exec_refused_or_completed i s
  obtain rfl : u = t := Host.Outcome.next.inj (hu.symm.trans h)
  exact ended

/-- Settles O13: a refused command writes FAULT and FAULT_INFO only, a completed one what its frame lists. -/
theorem commandsWriteOnlyTheirState : Obligations.CommandsWriteOnlyTheirState := by
  intro i s t h
  rcases exec_inversion h with ⟨code, -, rfl⟩ | ⟨-, regs, lanes, output, frame⟩
  · simp only [raiseFault_regs, raiseFault_st, raiseFault_obuf, raiseFault_olen, raiseFault_ibuf, raiseFault_ilen,
      raiseFault_obits, raiseFault_cfg, raiseFault_txns, raiseFault_pc, raiseFault_returned, implies_true, and_self]
  · have keepsOutput (hn : writesOutput i = false) : t.obuf = s.obuf ∧ t.olen = s.olen :=
      output.resolve_right fun ⟨written, _⟩ => absurd (written.symm.trans hn) (by decide)
    refine ⟨regs, lanes, keepsOutput, ?_⟩
    rw [frame]
    exact ⟨rfl, rfl, rfl, fun _ => rfl, rfl, rfl, rfl, rfl⟩

/-! ### Transactions and steps -/

/-- The host's list, its index and the configuration are as before. -/
structure KeepsRun (s t : State) : Prop where
  pc : t.pc = s.pc
  txns : t.txns = s.txns
  cfg : t.cfg = s.cfg

theorem exec_keepsRun {i : Instr} {s t : State} (h : exec i s = .next t) : KeepsRun s t := by
  obtain ⟨-, -, -, -, -, -, -, cfg, txns, pc, -⟩ := commandsWriteOnlyTheirState i s t h
  exact ⟨pc, txns, cfg⟩

theorem raiseFault_keepsRun (code : FaultCode) (info : Word) (s : State) : KeepsRun s (raiseFault code info s) :=
  ⟨raiseFault_pc code info s, raiseFault_txns code info s, raiseFault_cfg code info s⟩

theorem issueWord_keepsRun {w : Word} {s t : State} (h : issueWord w s = .next t) : KeepsRun s t := by
  rcases issueWord_cases w s with ⟨-, hw⟩ | ⟨-, i, -, hw⟩ | ⟨-, -, hw⟩ <;> rw [hw] at h
  · obtain rfl := Host.Outcome.next.inj h
    exact ⟨rfl, rfl, rfl⟩
  · exact exec_keepsRun h
  · obtain rfl := Host.Outcome.next.inj h
    exact raiseFault_keepsRun _ _ s

theorem readByte_keepsRun (a : Addr) (s : State) : KeepsRun s (readByte a s) := by
  rcases readByte_cases a s with ⟨b, -, h⟩ | ⟨-, h⟩ <;> rw [h]
  · exact ⟨rfl, rfl, rfl⟩
  · obtain ⟨pc, txns, cfg⟩ := raiseFault_keepsRun .busError (a.setWidth 32) s
    exact ⟨pc, txns, cfg⟩

theorem putByte_keepsRun (s : State) (l : Location) (v : Byte) : KeepsRun s (s.putByte l v) := by
  cases l with
  | control c j => cases c <;> exact ⟨rfl, rfl, rfl⟩
  | lanes | reg | param | input | output => exact ⟨rfl, rfl, rfl⟩

theorem writeByte_keepsRun (a : Addr) (v : Byte) (s : State) : KeepsRun s (writeByte a v s) := by
  rcases writeByte_cases a v s with ⟨-, h⟩ | ⟨-, l, -, -, h⟩ | ⟨-, -, h⟩ <;> rw [h]
  · exact ⟨rfl, rfl, rfl⟩
  · exact putByte_keepsRun s l v
  · exact raiseFault_keepsRun _ _ s

/-- R24: a step that answers a next state is one transaction further in the same list. -/
theorem step_moves_on {s t : State} (h : step s = .next t) : t.pc = s.pc + 1 ∧ t.txns = s.txns ∧ t.cfg = s.cfg := by
  have advanced {u : State} (kept : KeepsRun s.begin u) :
      u.advance.pc = s.pc + 1 ∧ u.advance.txns = s.txns ∧ u.advance.cfg = s.cfg :=
    ⟨congrArg (· + 1) kept.pc, kept.txns, kept.cfg⟩
  rcases step_cases s with ⟨-, hs⟩ | ⟨-, hs⟩ | ⟨a, -, hs⟩ | ⟨a, v, -, hs⟩ | ⟨w, u, -, hu, hs⟩ <;> rw [hs] at h
  · cases h
  · obtain rfl := Host.Outcome.next.inj h
    exact ⟨rfl, rfl, rfl⟩
  · obtain rfl := Host.Outcome.next.inj h
    exact advanced (readByte_keepsRun a _)
  · obtain rfl := Host.Outcome.next.inj h
    exact advanced (writeByte_keepsRun a v _)
  · obtain rfl := Host.Outcome.next.inj h
    exact advanced (issueWord_keepsRun hu)

/-- While a transaction is left, the step is that transaction. -/
theorem step_eq_transact {s : State} {x : Transaction} (h : s.nextTransaction = some x) : step s = transact x s := by
  rw [step, h]

/-- Settles O6: the transaction at the index answers a next state, whose frame `step_moves_on` gives. -/
theorem everyTransactionCompletes : Obligations.EveryTransactionCompletes := by
  intro s
  constructor
  · intro left
    have next : s.nextTransaction = some s.txns[s.pc] := List.getElem?_eq_getElem left
    obtain ⟨t, ht⟩ := transact_next s.txns[s.pc] s
    have stepped : step s = .next t := (step_eq_transact next).trans ht
    exact ⟨t, stepped, step_moves_on stepped⟩
  · intro ended
    have next : s.nextTransaction = none := List.getElem?_eq_none ended
    rw [step, next]

/-- Settles O7: with no fault the gate of R275 is open, and a command does not move the index itself. -/
theorem stepRunsDecodedCommand : Obligations.StepRunsDecodedCommand := by
  intro s w i ⟨next, noFault⟩ decoded
  obtain ⟨t, ht⟩ := exec_next i s.begin
  have issued : issueWord w s.begin = .next t := by
    rw [issueWord, begin_fault, if_neg (not_not.2 noFault), decoded]
    exact ht
  have index : t.pc = s.pc := (exec_keepsRun ht).pc
  refine ⟨t, ht, ?_⟩
  rw [step_eq_transact next, transact, issued, endTransaction, State.advance, index]

end Sys2Proof.Frame
end

section
/-! The machine's invariant: it holds at reset, and every transaction keeps it. -/

namespace Sys2Proof.Invariant

open Sys2Proof Sys2Proof.Machine Sys2Proof.ByteMap Sys2Proof.Frame

/-! ### What FAULT_INFO records -/

/-- The rule of R27, R28 and R272 for a fault code and the word recorded with it. -/
structure RecordOk (fault info : Word) : Prop where
  code : fault ∈ [0, 1, 2, 3, 4]
  noFault : fault = 0 → info = 0
  illegal : fault = 1 → (decode info).toOption = none
  command : fault = 2 ∨ fault = 3 → (decode info).toOption.isSome = true
  address : fault = 4 → info.toNat < 2 ^ 16

theorem recordOk_none : RecordOk 0 0 := by
  constructor <;> decide

theorem recordOk_illegal {w : Word} {e : Illegal} (h : decode w = .error e) :
    RecordOk FaultCode.illegalCmd.number w where
  code := by decide
  noFault h0 := absurd h0 (by decide)
  illegal _ := by rw [h]; rfl
  command h23 := absurd h23 (by decide)
  address h4 := absurd h4 (by decide)

theorem recordOk_busError (a : Addr) : RecordOk FaultCode.busError.number (a.setWidth 32) where
  code := by decide
  noFault h0 := absurd h0 (by decide)
  illegal h1 := absurd h1 (by decide)
  command h23 := absurd h23 (by decide)
  address _ := by
    have := a.isLt
    rw [BitVec.toNat_setWidth]
    omega

theorem recordOk_command {i : Instr} {code : FaultCode} (hcode : code = .badParam ∨ code = .lenRange)
    (h : (decode (encode i)).toOption.isSome = true) : RecordOk code.number (encode i) := by
  rcases hcode with rfl | rfl <;>
    exact ⟨by decide, fun h0 => absurd h0 (by decide), fun h1 => absurd h1 (by decide), fun _ => h,
      fun h4 => absurd h4 (by decide)⟩

/-- The word of a well-formed command decodes, since the command's own row of R84 accepts it. -/
theorem decode_encode_isSome {i : Instr} (h : i.wellFormed = true) : (decode (encode i)).toOption.isSome = true := by
  have accepted : (Laws.rowOf i).accepts (encode i) = true := by
    cases i with
    | keccakF => exact Laws.EncodesItsRow.keccakF h
    | absorb cap ds => exact Laws.EncodesItsRow.absorb cap ds h
    | squeeze rate => exact Laws.EncodesItsRow.squeeze rate h
    | hash => exact Laws.EncodesItsRow.hash h
    | kdf => exact Laws.EncodesItsRow.kdf h
    | mac => exact Laws.EncodesItsRow.mac h
    | fmul rd ra rb => exact Laws.EncodesItsRow.fmul rd ra rb h
    | finv rd ra => exact Laws.EncodesItsRow.finv rd ra h
    | padd pd pa pb => exact Laws.EncodesItsRow.padd pd pa pb h
    | pdbl pd pa => exact Laws.EncodesItsRow.pdbl pd pa h
    | pmul pd rk pa => exact Laws.EncodesItsRow.pmul pd rk pa h
    | sign rh rs rd => exact Laws.EncodesItsRow.sign rh rs rd h
    | signX rh rs rd rk => exact Laws.EncodesItsRow.signX rh rs rd rk h
    | verify rh rs pv => exact Laws.EncodesItsRow.verify rh rs pv h
  unfold decode
  cases found : opcodeTable.find? (fun row => row.accepts (encode i)) with
  | none => exact absurd accepted (List.find?_eq_none.1 found _ (Laws.rowOf_mem i))
  | some row => rfl

theorem lengthField_lt (w : Word) : lengthField w < 2 ^ 11 := (w.extractLsb' 0 11).isLt

theorem operandsOf_wellFormed (op : Opcode) (w : Word) : (operandsOf op w).wellFormed = true := by
  cases op with
  | absorb | squeeze => exact decide_eq_true (lengthField_lt w)
  | keccakF | hash | kdf | mac | fmul | finv | padd | pdbl | pmul | sign | signX | verify => rfl

/-- A command that a word carries has fields that fit (R82). -/
theorem wellFormed_of_decode {w : Word} {i : Instr} (h : decode w = .ok i) : i.wellFormed = true := by
  unfold decode at h
  split at h
  · obtain rfl := Except.ok.inj h
    exact operandsOf_wellFormed _ w
  · cases h

/-! ### Each part of a transaction keeps the invariant -/

theorem inv_begin {s : State} (h : s.Inv) : s.begin.Inv := h

/-- The index may move on while a transaction is left. -/
theorem inv_advance {s : State} (h : s.Inv) (left : s.pc < s.txns.length) : s.advance.Inv := by
  obtain ⟨ibuf, obuf, sizes, result, code, noFault, illegal, command, address, olen, -⟩ := h
  exact ⟨ibuf, obuf, sizes, result, code, noFault, illegal, command, address, olen, left⟩

/-- R274: the first fault is kept, and a new one is recorded by its rule. -/
theorem inv_raiseFault {s : State} (h : s.Inv) {code : FaultCode} {info : Word} (rec : RecordOk code.number info) :
    (raiseFault code info s).Inv := by
  by_cases hf : s.fault = 0
  · rw [raiseFault_of_noFault code info hf]
    obtain ⟨ibuf, obuf, sizes, result, -, -, -, -, -, olen, pc⟩ := h
    exact ⟨ibuf, obuf, sizes, result, rec.code, rec.noFault, rec.illegal, rec.command, rec.address, olen, pc⟩
  · rwa [raiseFault_of_fault code info hf]

/-- A completed command leaves an output within `OBUF`, in canonical form, or keeps the old one. -/
theorem inv_completed {i : Instr} {s t : State} (h : s.Inv) (completed : Completed i s t) : t.Inv := by
  obtain ⟨ibuf, obuf, sizes, -, code, noFault, illegal, command, address, olen, pc⟩ := h
  obtain ⟨result, -, -, output, frame⟩ := completed
  have outputOk : t.obuf.wf s.cfg.obufSize = true ∧ t.olen.toNat ≤ s.cfg.obufSize := by
    rcases output with ⟨sameObuf, sameOlen⟩ | ⟨-, out, newObuf, newOlen, fits⟩
    · exact ⟨sameObuf ▸ obuf, sameOlen ▸ olen⟩
    · constructor
      · rw [newObuf]
        exact memory_wf_writeBytes obuf (by rw [Nat.zero_add]; exact fits sizes)
      · rw [newOlen, BitVec.toNat_ofNat]
        exact (Nat.mod_le _ _).trans (fits sizes)
  rw [frame]
  exact ⟨ibuf, outputOk.1, sizes, result, code, noFault, illegal, command, address, outputOk.2, pc⟩

theorem inv_exec {i : Instr} {s t : State} (h : s.Inv) (wellFormed : i.wellFormed = true)
    (answer : exec i s = .next t) : t.Inv := by
  rcases exec_inversion answer with ⟨code, hcode, rfl⟩ | completed
  · exact inv_raiseFault h (recordOk_command hcode (decode_encode_isSome wellFormed))
  · exact inv_completed h completed

theorem inv_issueWord {w : Word} {s t : State} (h : s.Inv) (answer : issueWord w s = .next t) : t.Inv := by
  rcases issueWord_cases w s with ⟨-, hw⟩ | ⟨-, i, decoded, hw⟩ | ⟨-, ⟨e, illegal⟩, hw⟩ <;> rw [hw] at answer
  · obtain rfl := Host.Outcome.next.inj answer
    exact h
  · exact inv_exec h (wellFormed_of_decode decoded) answer
  · obtain rfl := Host.Outcome.next.inj answer
    exact inv_raiseFault h (recordOk_illegal illegal)

theorem inv_readByte {s : State} (h : s.Inv) (a : Addr) : (readByte a s).Inv := by
  rcases readByte_cases a s with ⟨b, -, read⟩ | ⟨-, read⟩ <;> rw [read]
  · exact h
  · exact inv_raiseFault h (recordOk_busError a)

theorem inv_putByte {s : State} (h : s.Inv) {l : Location} (inside : ∀ j, l = .input j → j < s.cfg.ibufSize)
    (v : Byte) : (s.putByte l v).Inv := by
  cases l with
  | input j =>
    obtain ⟨ibuf, rest⟩ := h
    exact ⟨memory_wf_write ibuf (inside j rfl) v, rest⟩
  | control c j => cases c <;> exact h
  | lanes | reg | param | output => exact h

theorem inv_writeByte {s : State} (h : s.Inv) (a : Addr) (v : Byte) : (writeByte a v s).Inv := by
  rcases writeByte_cases a v s with ⟨-, hw⟩ | ⟨-, l, mapped, -, hw⟩ | ⟨-, -, hw⟩ <;> rw [hw]
  · exact h
  · refine inv_putByte h (fun j hj => ?_) v
    obtain ⟨-, -, inside⟩ := locate_eq_input_iff.1 (hj ▸ mapped)
    exact inside
  · exact inv_raiseFault h (recordOk_busError a)

theorem inv_resetBlock {s : State} (h : s.Inv) : (resetBlock s).Inv := by
  obtain ⟨-, -, sizes, -, -, -, -, -, -, -, pc⟩ := h
  obtain ⟨code, noFault, illegal, command, address⟩ := recordOk_none
  exact ⟨rfl, rfl, sizes, number_mem (code := .ok) (by decide), code, noFault, illegal, command, address,
    Nat.zero_le _, pc⟩

/-! ### The statements -/

/-- Settles O15: the buffers are empty and nothing is recorded. -/
theorem resetHasTheInvariant : Obligations.ResetHasTheInvariant := by
  obtain ⟨ibuf, obuf⟩ := reset_buffers_wf
  obtain ⟨code, noFault, illegal, command, address⟩ := recordOk_none
  exact ⟨ibuf, obuf, HomogeneousPoints.default_sizesOk, by decide, code, noFault, illegal, command, address,
    Nat.zero_le _, Nat.le_refl 0⟩

/-- Settles O16: by the transaction the step carries out; none of them moves the index before it ends. -/
theorem stepKeepsTheInvariant : Obligations.StepKeepsTheInvariant := by
  intro s t inv stepped
  have ended {x : Transaction} (next : s.nextTransaction = some x) {u : State} (hu : u.Inv)
      (kept : KeepsRun s.begin u) : u.advance.Inv := by
    obtain ⟨left, -⟩ := List.getElem?_eq_some_iff.1 next
    refine inv_advance hu ?_
    rw [kept.pc, kept.txns]
    exact left
  have begun : s.begin.Inv := inv_begin inv
  rcases step_cases s with ⟨-, hs⟩ | ⟨next, hs⟩ | ⟨a, next, hs⟩ | ⟨a, v, next, hs⟩ | ⟨w, u, next, hu, hs⟩ <;>
    rw [hs] at stepped
  · cases stepped
  · obtain rfl := Host.Outcome.next.inj stepped
    exact ended next (inv_resetBlock begun) ⟨rfl, rfl, rfl⟩
  · obtain rfl := Host.Outcome.next.inj stepped
    exact ended next (inv_readByte begun a) (readByte_keepsRun a _)
  · obtain rfl := Host.Outcome.next.inj stepped
    exact ended next (inv_writeByte begun a v) (writeByte_keepsRun a v _)
  · obtain rfl := Host.Outcome.next.inj stepped
    exact ended next (inv_issueWord begun hu) (issueWord_keepsRun hu)

/-- The all-zero grid, lane by lane. -/
theorem zero_lane (x y : Nat) : Grid.zero.lane x y = 0 := by
  rw [← lane_mod]
  exact lane_ofLanes (fun _ _ => 0) (Nat.mod_lt x (by decide)) (Nat.mod_lt y (by decide))

/-- Settles O9: the step is `resetBlock`, whose fields are those of R39. -/
theorem resetClearsArchitecturalState : Obligations.ResetClearsArchitecturalState := by
  intro s next
  have stepped : step s = .next (resetBlock s.begin).advance := by rw [step_eq_transact next, transact]
  have registers (i : Reg) : (resetBlock s.begin).advance.reg i = 0 := by
    rw [State.reg, advance_regs, resetBlock_regs, Vector.get_replicate]
    exact BitVec.toNat_zero
  exact ⟨_, stepped, registers, zero_lane, fun _ => rfl, fun _ => rfl, rfl, rfl, rfl, rfl, rfl, rfl, fun _ => rfl, rfl,
    rfl, rfl⟩

end Sys2Proof.Invariant
end

section
/-! SQUEEZE writes its whole output, whose length is that of R133. -/

namespace Sys2Proof.SqueezeCommand

open Sys2Proof Sys2Proof.Machine Sys2Proof.ByteMap Sys2Proof.Frame

/-- R133, log 13: every turn adds a byte or more, so as many turns as bits are missing leave none missing. -/
theorem le_squeezeLoop_length {bits rateBytes : Nat} (hrate : 1 ≤ rateBytes) (hmax : rateBytes ≤ 200) :
    ∀ (fuel : Nat) (out : List Byte) (a : Grid), bits ≤ 8 * (out.length + fuel) →
      bits ≤ 8 * (squeezeLoop bits rateBytes fuel out a).1.length
  | 0, _, _, enough => enough
  | fuel + 1, out, a, enough => by
    rw [squeezeLoop]
    split
    · apply le_squeezeLoop_length hrate hmax
      rw [List.length_append, List.length_take, bytes_length]
      omega
    next full => exact Nat.not_lt.1 full

/-- R135 (a): with a legal rate the output has `ceil8(L)` bytes. -/
theorem squeeze_length (a : Grid) (bits : Nat) {rate : Nat} (hmin : 8 ≤ rate) (hmax : rate ≤ 1600) :
    (squeeze a bits rate).1.length = ceil8 bits := by
  have enough : bits ≤ 8 * (squeezeLoop bits (rate / 8) bits [] a).1.length :=
    le_squeezeLoop_length (by omega) (by omega) bits [] a (by rw [List.length_nil]; omega)
  refine (truncateBits_length _ bits).trans (Nat.min_eq_left ?_)
  unfold ceil8
  omega

/-- R137: the parameters SQUEEZE accepts. -/
theorem squeezeBadParam_eq_false {rate : Nat} (whole : rate % 8 = 0) (hmin : 8 ≤ rate) (hmax : rate ≤ 1600) :
    squeezeBadParam rate = false := by
  simp only [squeezeBadParam, Bool.or_eq_false_iff, decide_eq_false_iff_not, not_not, not_lt]
  exact ⟨⟨whole, hmin⟩, hmax⟩

/-- R31, R35: the bytes of an output stand in `OBUF` from offset 0, and the later ones are kept. -/
theorem writeBytes_read (m : Memory) (out : List Byte) :
    (∀ j, j < out.length → out[j]? = some ((m.writeBytes 0 out).read j))
      ∧ ∀ j, out.length ≤ j → (m.writeBytes 0 out).read j = m.read j := by
  constructor <;> intro j hj <;> rw [memory_read_writeBytes, if_pos (Nat.zero_le j), Nat.sub_zero]
  · rw [List.getElem?_eq_getElem hj, Option.getD_some]
  · rw [List.getElem?_eq_none hj, Option.getD_none]

/-- Settles O35: the two checks pass, and `OLEN` can hold the length since `OBITS` has 32 bits. -/
theorem squeezeCompletes : Obligations.SqueezeCompletes := by
  intro rate s _ whole hmin hmax fits
  have length : (squeeze s.st s.obits.toNat rate).1.length = (s.obits.toNat + 7) / 8 := squeeze_length _ _ hmin hmax
  have olen : (BitVec.ofNat 32 (squeeze s.st s.obits.toNat rate).1.length).toNat
      = (squeeze s.st s.obits.toNat rate).1.length := by
    have := s.obits.isLt
    rw [length, BitVec.toNat_ofNat, Nat.mod_eq_of_lt (by omega)]
  rcases execSqueeze_cases rate s with ⟨bad, -⟩ | ⟨-, long, -⟩ | ⟨-, -, done⟩
  · rw [squeezeBadParam_eq_false whole hmin hmax] at bad
    cases bad
  · exact absurd fits (Nat.not_le.2 (of_decide_eq_true long))
  · obtain ⟨written, kept⟩ := writeBytes_read s.obuf (squeeze s.st s.obits.toNat rate).1
    refine ⟨_, done, olen.trans length, fun j hj => written j (olen ▸ hj), fun j hj => kept j (olen ▸ hj), rfl, rfl,
      rfl⟩

end Sys2Proof.SqueezeCommand
end

section
/-! R195 in a field: on the curve the denominators of the addition formula do not vanish, and the sum is on the curve. -/

namespace Sys2Proof.EdwardsLaw

variable {K : Type*} [Field K]

/-- The equation of R190. -/
def OnCurve (d x y : K) : Prop := x ^ 2 + y ^ 2 = 1 + d * (x ^ 2 * y ^ 2)

/-- Where `t = d·x1·x2·y1·y2` has square 1, the numerator `x1 + t·y1` squares to `d` times a square. -/
theorem numerator_sq {d x₁ y₁ x₂ y₂ t : K} (h₁ : OnCurve d x₁ y₁) (h₂ : OnCurve d x₂ y₂)
    (ht : t = d * (x₁ * x₂ * (y₁ * y₂))) (unit : t ^ 2 = 1) :
    (x₁ + t * y₁) ^ 2 = d * (x₁ * y₁ * (x₂ + y₂)) ^ 2 := by
  unfold OnCurve at h₁ h₂
  have square : d * (x₁ * y₁) ^ 2 * (x₂ ^ 2 + y₂ ^ 2) = x₁ ^ 2 + y₁ ^ 2 := by
    calc d * (x₁ * y₁) ^ 2 * (x₂ ^ 2 + y₂ ^ 2) = d * (x₁ * y₁) ^ 2 + t ^ 2 := by rw [h₂, ht]; ring
      _ = x₁ ^ 2 + y₁ ^ 2 := by rw [unit, h₁]; ring
  calc (x₁ + t * y₁) ^ 2 = x₁ ^ 2 + t ^ 2 * y₁ ^ 2 + 2 * (x₁ * y₁) * t := by ring
    _ = d * (x₁ * y₁) ^ 2 * (x₂ ^ 2 + y₂ ^ 2) + 2 * (x₁ * y₁) * (d * (x₁ * x₂ * (y₁ * y₂))) := by
      rw [unit, one_mul, square, ← ht]
    _ = d * (x₁ * y₁ * (x₂ + y₂)) ^ 2 := by ring

/-- A number that is no square is not the ratio of two, so that the second factor vanishes. -/
theorem eq_zero_of_sq_eq_nonsquare_mul {d a b : K} (hd : ¬ IsSquare d) (h : a ^ 2 = d * b ^ 2) : b = 0 := by
  by_contra hb
  exact hd ⟨a / b, by field_simp; exact h.symm⟩

/-- Completeness: `d·x1·x2·y1·y2` has not the square 1 where `d` is no square. -/
theorem term_sq_ne_one {d x₁ y₁ x₂ y₂ t : K} (two : (2 : K) ≠ 0) (hd : ¬ IsSquare d) (h₁ : OnCurve d x₁ y₁)
    (h₂ : OnCurve d x₂ y₂) (ht : t = d * (x₁ * x₂ * (y₁ * y₂))) : t ^ 2 ≠ 1 := by
  intro unit
  have nonzero : x₁ * y₁ * x₂ ≠ 0 := by
    intro zero
    have vanishes : t = 0 := by
      rw [ht]
      linear_combination d * y₂ * zero
    rw [vanishes] at unit
    exact zero_ne_one ((zero_pow two_ne_zero).symm.trans unit)
  have sum : x₁ * y₁ * (x₂ + y₂) = 0 := eq_zero_of_sq_eq_nonsquare_mul hd (numerator_sq h₁ h₂ ht unit)
  have reflected : OnCurve d x₂ (-y₂) := by
    unfold OnCurve at h₂ ⊢
    rwa [neg_sq]
  have difference : x₁ * y₁ * (x₂ + -y₂) = 0 :=
    eq_zero_of_sq_eq_nonsquare_mul hd (numerator_sq (t := -t) h₁ reflected (by rw [ht]; ring) (by rw [neg_sq, unit]))
  have double : 2 * (x₁ * y₁ * x₂) = 0 := by linear_combination sum + difference
  exact nonzero ((mul_eq_zero.1 double).resolve_left two)

theorem denominators_ne_zero {t : K} (h : t ^ 2 ≠ 1) : 1 + t ≠ 0 ∧ 1 - t ≠ 0 := by
  constructor <;> intro zero <;> apply h
  · linear_combination (t - 1) * zero
  · linear_combination (-t - 1) * zero

/-- Closure before division: with `sumX` and `sumY` the numerators of R195, `sumX/(1+t)` and `sumY/(1-t)` solve the
equation. In `S = x² + y²` and `P = x·y` of both points it says `S1·S2·(1+t²) = (1-t²)² + d·P1²·S2² + d·P2²·S1²`, and on the curve
`S = 1 + d·P²`. -/
theorem numerators_on_curve {d x₁ y₁ x₂ y₂ t sumX sumY : K} (h₁ : OnCurve d x₁ y₁) (h₂ : OnCurve d x₂ y₂)
    (ht : t = d * (x₁ * x₂ * (y₁ * y₂))) (hX : sumX = x₁ * y₂ + y₁ * x₂) (hY : sumY = y₁ * y₂ - x₁ * x₂) :
    (sumX * (1 - t)) ^ 2 + (sumY * (1 + t)) ^ 2 = ((1 + t) * (1 - t)) ^ 2 + d * (sumX * sumY) ^ 2 := by
  unfold OnCurve at h₁ h₂
  subst ht hX hY
  linear_combination
    ((x₂ ^ 2 + y₂ ^ 2) * (1 + d * x₁ ^ 2 * y₁ ^ 2 * (d * x₂ ^ 2 * y₂ ^ 2))
        - d * x₂ ^ 2 * y₂ ^ 2 * (x₁ ^ 2 + y₁ ^ 2 + 1 + d * x₁ ^ 2 * y₁ ^ 2)) * h₁
      + ((1 + d * x₁ ^ 2 * y₁ ^ 2) * (1 + d * x₁ ^ 2 * y₁ ^ 2 * (d * x₂ ^ 2 * y₂ ^ 2))
        - d * x₁ ^ 2 * y₁ ^ 2 * (x₂ ^ 2 + y₂ ^ 2 + 1 + d * x₂ ^ 2 * y₂ ^ 2)) * h₂

/-- R195: the sum of two points of the curve is on the curve. -/
theorem sum_onCurve {d x₁ y₁ x₂ y₂ t : K} (h₁ : OnCurve d x₁ y₁) (h₂ : OnCurve d x₂ y₂)
    (ht : t = d * (x₁ * x₂ * (y₁ * y₂))) (plus : 1 + t ≠ 0) (minus : 1 - t ≠ 0) :
    OnCurve d ((x₁ * y₂ + y₁ * x₂) / (1 + t)) ((y₁ * y₂ - x₁ * x₂) / (1 - t)) := by
  have cleared := numerators_on_curve h₁ h₂ ht rfl rfl
  unfold OnCurve
  field_simp
  linear_combination cleared

end Sys2Proof.EdwardsLaw
end

section
/-! The commands FMUL and PADD write reduced values (R176, R199). -/

namespace Sys2Proof.FieldCommands

open Sys2Proof Sys2Proof.Machine Sys2Proof.FieldFacts Sys2Proof.HomogeneousPoints Sys2Proof.EdwardsLaw

/-- A field element fits a register (R21). -/
theorem e521P_lt : Config.e521P < 2 ^ 528 := by decide +kernel

theorem reg_setReg_same {s : State} {v : Nat} (h : v < Config.e521P) (i : Reg) : (s.setReg i v).reg i = v := by
  rw [reg_setReg, if_pos rfl]
  exact Nat.mod_eq_of_lt (h.trans e521P_lt)

theorem reg_setReg_other {s : State} {i k : Reg} (h : k ≠ i) (v : Nat) : (s.setReg i v).reg k = s.reg k := by
  rw [reg_setReg, if_neg h]

/-- Settles O40: the product is reduced, so that the register holds the whole of it. -/
theorem fmulCompletes : Obligations.FmulCompletes := by
  intro rd ra rb s hp
  have product : mulp s.cfg (s.fieldOperand ra) (s.fieldOperand rb) = s.reg ra * s.reg rb % s.cfg.p :=
    (Nat.mul_mod _ _ _).symm
  have reduced : mulp s.cfg (s.fieldOperand ra) (s.fieldOperand rb) < Config.e521P := by
    rw [mulp, hp]
    exact Nat.mod_lt _ e521P_prime.pos
  exact ⟨_, rfl, (reg_setReg_same reduced rd).trans product, fun i hi => reg_setReg_other hi _, rfl⟩

/-! ### Points written to registers -/

/-- R22, R199: `P[j]` after a point of field elements is written to it. -/
theorem setPoint_point {s : State} {a : Point} (hx : a.x < Config.e521P) (hy : a.y < Config.e521P) (j : PointReg) :
    (s.setPoint j a).reg (pointX j) = a.x ∧ (s.setPoint j a).reg (pointY j) = a.y :=
  ⟨(reg_setReg_other (pointX_ne_pointY j) _).trans (reg_setReg_same hx _), reg_setReg_same hy _⟩

theorem setPoint_other {s : State} {i : Reg} {j : PointReg} (hx : i ≠ pointX j) (hy : i ≠ pointY j) (a : Point) :
    (s.setPoint j a).reg i = s.reg i :=
  (reg_setReg_other hy _).trans (reg_setReg_other hx _)

/-! ### The sum of two points of the curve -/

theorem two_ne_zero_of_odd {p : Nat} [Fact p.Prime] (odd : p ≠ 2) : (2 : ZMod p) ≠ 0 :=
  Ring.two_ne_zero (by rwa [ZMod.ringChar_zmod_n])

/-- Euler's criterion on the value that `powMod` computes. -/
theorem not_isSquare_of_powMod {p d : Nat} [Fact p.Prime] (odd : p ≠ 2) (power : powMod d (p / 2) p = p - 1) :
    ¬ IsSquare (d : ZMod p) := by
  have prime : p.Prime := Fact.out
  have minusOne : (d : ZMod p) ^ (p / 2) = -1 := by
    have congruent := (ZMod.natCast_eq_natCast_iff _ _ _).2 (powMod_modEq d (p / 2) p)
    rw [power, Nat.cast_sub prime.one_le, ZMod.natCast_self, Nat.cast_one, Nat.cast_pow, zero_sub] at congruent
    exact congruent.symm
  have nonzero : (d : ZMod p) ≠ 0 := fun zero => by
    rw [zero, zero_pow (Nat.div_pos prime.two_le two_pos).ne'] at minusOne
    exact zero_ne_one (neg_injective (neg_zero.trans minusOne))
  have : Fact (2 < p) := ⟨lt_of_le_of_ne prime.two_le odd.symm⟩
  intro square
  exact ZMod.neg_one_ne_one (minusOne.symm.trans ((ZMod.euler_criterion p nonzero).1 square))

theorem e521P_ne_two : Config.e521P ≠ 2 := by decide +kernel

/-- R191: the power that shows `d` to be no square modulo `p`. -/
theorem powMod_e521D : powMod Config.e521D (Config.e521P / 2) Config.e521P = Config.e521P - 1 := by decide +kernel

/-- R193 read in the field. -/
theorem onCurve_iff (cfg : Config) [Fact cfg.p.Prime] (a : Point) :
    onCurve cfg a = true ↔ OnCurve (cfg.d : ZMod cfg.p) a.x a.y := by
  have reduced (u v : Nat) : addp cfg u v = addp cfg u v % cfg.p := (Nat.mod_mod _ _).symm
  rw [onCurve, beq_iff_eq, reduced, reduced 1, ← ZMod.natCast_eq_natCast_iff']
  simp only [natCast_addp, natCast_mulp, OnCurve, Nat.cast_one, sq]

/-- R195: neither denominator vanishes on the curve of R191, and the sum is a point of the curve. -/
theorem ptAdd_onCurve {cfg : Config} (hp : cfg.p = Config.e521P) (hd : cfg.d = Config.e521D) {a b : Point}
    (ha : onCurve cfg a = true) (hb : onCurve cfg b = true) : onCurve cfg (ptAdd cfg a b) = true := by
  have : Fact cfg.p.Prime := ⟨hp ▸ e521P_prime⟩
  have odd : cfg.p ≠ 2 := hp ▸ e521P_ne_two
  have nonsquare : ¬ IsSquare (cfg.d : ZMod cfg.p) :=
    not_isSquare_of_powMod odd (by rw [hp, hd]; exact powMod_e521D)
  rw [onCurve_iff] at ha hb ⊢
  obtain ⟨plus, minus⟩ := denominators_ne_zero (term_sq_ne_one (two_ne_zero_of_odd odd) nonsquare ha hb rfl)
  obtain ⟨sumX, sumY⟩ := natCast_ptAdd rfl plus minus
  rw [sumX, sumY]
  exact sum_onCurve ha hb rfl plus minus

/-- Settles O45: both operands pass the check of R198, and the coordinates of the sum are reduced. -/
theorem paddCompletes : Obligations.PaddCompletes := by
  rintro pd pa pb s ⟨hp, hd, -, -⟩ ha hb
  obtain ⟨sum, hsum⟩ : ∃ c, c = ptAdd s.cfg (s.coordinates pa) (s.coordinates pb) := ⟨_, rfl⟩
  have done : exec (.padd pd pa pb) s = .next (finish .ok (s.setPoint pd sum)) := by
    rw [hsum]
    simp only [exec, execPadd, State.getPoint, if_pos ha, if_pos hb]
  obtain ⟨ltX, ltY⟩ : sum.x < s.cfg.p ∧ sum.y < s.cfg.p :=
    hsum ▸ ptAdd_lt (hp ▸ e521P_prime.pos) _ _
  obtain ⟨regX, regY⟩ := setPoint_point (s := s) (hp ▸ ltX) (hp ▸ ltY) pd
  have written : (finish .ok (s.setPoint pd sum)).coordinates pd = sum :=
    congrArg₂ Point.mk ((congrArg (· % s.cfg.p) regX).trans (Nat.mod_eq_of_lt ltX))
      ((congrArg (· % s.cfg.p) regY).trans (Nat.mod_eq_of_lt ltY))
  refine ⟨_, done, (congrArg₂ Point.mk regX regY).trans hsum, ?_, fun i hx hy => setPoint_other hx hy sum, rfl⟩
  rw [written, hsum]
  exact ptAdd_onCurve hp hd ha hb

end Sys2Proof.FieldCommands
end

section
/-! What `Read8`, `Write8` and the host's statements WRR, RDR and RD32 do (R52, R53, R89). -/

namespace Sys2Proof.BusAccess

open Sys2Proof Sys2Proof.Machine Sys2Proof.ByteMap Sys2Proof.Frame

/-! ### Bytes of words -/

theorem byteOf_getLsbD {w : Nat} (v : BitVec w) (j i : Nat) :
    (byteOf v j).getLsbD i = (decide (i < 8) && v.getLsbD (8 * j + i)) :=
  BitVec.getLsbD_extractLsb' _ _ v i

/-- R53: replacing a byte of a word, bit by bit. -/
theorem withByte_getLsbD {w : Nat} (v : BitVec w) (j : Nat) (b : Byte) {i : Nat} (hi : i < w) :
    (withByte v j b).getLsbD i = if i / 8 = j then b.getLsbD (i % 8) else v.getLsbD i := by
  have mask (m : Nat) : (0xFF#8).getLsbD m = decide (m < 8) := BitVec.getLsbD_allOnes (v := 8)
  simp only [withByte, BitVec.getLsbD_or, BitVec.getLsbD_and, BitVec.getLsbD_not, BitVec.getLsbD_shiftLeft,
    BitVec.getLsbD_setWidth, mask, hi, decide_true, Bool.true_and]
  rcases Nat.lt_trichotomy (i / 8) j with below | rfl | above
  · rw [if_neg below.ne, decide_eq_true (show i < 8 * j by omega)]
    simp
  · rw [if_pos rfl, decide_eq_false (show ¬i < 8 * (i / 8) by omega), show i - 8 * (i / 8) = i % 8 by omega,
      decide_eq_true (show i % 8 < w by omega), decide_eq_true (show i % 8 < 8 by omega)]
    simp
  · rw [if_neg above.ne', decide_eq_false (show ¬i - 8 * j < 8 by omega),
      BitVec.getLsbD_of_ge b (i - 8 * j) (by omega)]
    simp

/-- R53: the byte written reads back, and every other byte is kept. -/
theorem byteOf_withByte {w : Nat} (v : BitVec w) {j : Nat} (inside : 8 * (j + 1) ≤ w) (b : Byte) (k : Nat) :
    byteOf (withByte v j b) k = if k = j then b else byteOf v k := by
  apply BitVec.eq_of_getLsbD_eq
  intro i hi
  have byte : (8 * k + i) / 8 = k := by omega
  have bit : (8 * k + i) % 8 = i := by omega
  rw [byteOf_getLsbD, decide_eq_true hi, Bool.true_and]
  by_cases within : 8 * k + i < w
  · rw [withByte_getLsbD v j b within, byte, bit]
    split
    · rfl
    · rw [byteOf_getLsbD, decide_eq_true hi, Bool.true_and]
  · rw [if_neg (by omega), byteOf_getLsbD, BitVec.getLsbD_of_ge _ _ (Nat.not_lt.1 within),
      BitVec.getLsbD_of_ge _ _ (Nat.not_lt.1 within), Bool.and_false]

/-- The bytes of a family of words, one byte of one word replaced. -/
theorem byteOf_update {ι : Type} [DecidableEq ι] {w : Nat} (word : ι → BitVec w) (x y : ι) {j : Nat}
    (inside : 8 * (j + 1) ≤ w) (b : Byte) (k : Nat) :
    byteOf (if y = x then withByte (word x) j b else word y) k = if y = x ∧ k = j then b else byteOf (word y) k := by
  by_cases same : y = x
  · rw [if_pos same, byteOf_withByte _ inside, same]
    exact if_congr (and_iff_right rfl).symm rfl rfl
  · rw [if_neg same, if_neg fun both => same both.1]

/-- A word is determined by its bytes. -/
theorem eq_of_byteOf_eq {n : Nat} {u v : BitVec (8 * n)} (h : ∀ k, k < n → byteOf u k = byteOf v k) : u = v := by
  apply BitVec.eq_of_getLsbD_eq
  intro i hi
  have bit := congrArg (·.getLsbD (i % 8)) (h (i / 8) (by omega))
  have place : i % 8 < 8 := Nat.mod_lt i (by decide)
  simpa only [byteOf_getLsbD, Nat.div_add_mod, decide_eq_true place, Bool.true_and] using bit

theorem leBytes_length (k v : Nat) : (leBytes k v).length = k := by
  induction k generalizing v with
  | zero => rfl
  | succ k ih => rw [leBytes, List.length_cons, ih]

/-- R33, R53: replacing a byte of the byte view. -/
theorem byte_setByte (a : Grid) (i : Nat) (b : Byte) {k : Nat} (hk : k < 200) :
    (a.setByte i b).byte k = if k = i then b else a.byte k := by
  have linear : k / 8 % 5 + 5 * (k / 8 / 5) = k / 8 := Nat.mod_add_div _ _
  rw [Grid.byte, Grid.setByte, lane_ofLanes _ (by omega) (by omega), linear]
  by_cases lane : k / 8 = i / 8
  · rw [if_pos lane, byteOf_withByte _ (by omega)]
    exact if_congr (by omega) rfl rfl
  · rw [if_neg lane, if_neg (fun same => lane (congrArg (· / 8) same)), Grid.byte]

/-! ### Where the locations stand -/

/-- The number of a control register in R55's order. -/
def controlIndex : ControlReg → Nat
  | .result => 0
  | .fault => 1
  | .faultInfo => 2
  | .ilen => 3
  | .obits => 4
  | .olen => 5

/-- R55 read backwards: the location is a byte of its piece, and stands at the address with number `n`. -/
def Placed (cfg : Config) (n : Nat) : Location → Prop
  | .control c j => n = 4 * controlIndex c + j ∧ j < 4
  | .lanes i => n = 0x0100 + i ∧ i < 200
  | .reg i j => n = 0x0400 + 0x80 * i.val + j ∧ j < 66
  | .param k j => n = 0x0C00 + 0x80 * k.val + j ∧ j < 66
  | .input j => n = 0x4000 + j ∧ j < 0x4000 ∧ j < cfg.ibufSize
  | .output j => n = 0x8000 + j ∧ j < 0x4000 ∧ j < cfg.obufSize

theorem controlIndex_ofIndex {n : Nat} (h : n < 6) : controlIndex (ControlReg.ofIndex n) = n := by
  interval_cases n <;> rfl

theorem placed_of_locate {cfg : Config} {a : Addr} {l : Location} (h : locate cfg a = some l) :
    Placed cfg a.toNat l := by
  simp only [locate] at h
  split_ifs at h <;> obtain rfl := Option.some.inj h
  · have register := controlIndex_ofIndex (show a.toNat / 4 < 6 by omega)
    simp only [Placed, register]
    omega
  all_goals
    simp only [Placed, Fin.val_ofNat]
    omega

theorem placed_injective {cfg : Config} {m n : Nat} {l : Location} (hm : Placed cfg m l) (hn : Placed cfg n l) :
    m = n := by
  cases l with
  | control | lanes | reg | param | input | output => exact hm.1.trans hn.1.symm

/-- No two addresses of the map share a byte. -/
theorem locate_injective {cfg : Config} {a b : Addr} {l : Location} (ha : locate cfg a = some l)
    (hb : locate cfg b = some l) : a = b :=
  BitVec.eq_of_toNat_eq (placed_injective (placed_of_locate ha) (placed_of_locate hb))

/-- The addresses to which R55 gives the access RW. -/
def WriteRange (cfg : Config) (n : Nat) : Prop :=
  0x000C ≤ n ∧ n < 0x0014 ∨ 0x0100 ≤ n ∧ n < 0x01C8 ∨ 0x0400 ≤ n ∧ n < 0x0C00 ∧ n % 0x80 < 66
    ∨ 0x4000 ≤ n ∧ n < 0x8000 ∧ n < 0x4000 + cfg.ibufSize

theorem control_writable_iff (c : ControlReg) (j : Nat) :
    (Location.control c j).writable = true ↔ controlIndex c = 3 ∨ controlIndex c = 4 := by
  cases c with
  | ilen | obits | result | fault | faultInfo | olen => simp [Location.writable, controlIndex]

theorem writable_iff_writeRange {cfg : Config} {n : Nat} {l : Location} (h : Placed cfg n l) :
    l.writable = true ↔ WriteRange cfg n := by
  unfold WriteRange
  cases l with
  | control c j =>
    simp only [Placed] at h
    have last : controlIndex c < 6 := by cases c <;> decide
    rw [control_writable_iff]
    omega
  | lanes | reg | param | input | output =>
    simp only [Placed] at h
    simp only [Location.writable, reduceCtorEq, true_iff, false_iff]
    omega

theorem locate_of_writeRange {cfg : Config} {a : Addr} (h : WriteRange cfg a.toNat) :
    ∃ l, locate cfg a = some l ∧ l.writable = true := by
  cases found : locate cfg a with
  | none =>
    have unmapped := locate_eq_none_iff.1 found
    unfold WriteRange at h
    omega
  | some l => exact ⟨l, rfl, (writable_iff_writeRange (placed_of_locate found)).2 h⟩

/-! ### Replacing the byte of a location -/

theorem control_putByte (s : State) {c : ControlReg} {j : Nat} (writable : (Location.control c j).writable = true)
    (v : Byte) (d : ControlReg) :
    (s.putByte (.control c j) v).control d = if d = c then withByte (s.control c) j v else s.control d := by
  cases c with
  | ilen | obits => cases d <;> rfl
  | result | fault | faultInfo | olen => cases writable

/-- R53: the byte of the location is replaced, and no other one. -/
theorem byteAt_putByte {s : State} {m n : Nat} {l k : Location} (hl : Placed s.cfg m l) (hk : Placed s.cfg n k)
    (writable : l.writable = true) (v : Byte) : (s.putByte l v).byteAt k = if k = l then v else s.byteAt k := by
  cases l with
  | control c j =>
    obtain ⟨-, inside⟩ := hl
    cases k with
    | control d i =>
      simp only [State.byteAt, control_putByte s writable, Location.control.injEq]
      exact byteOf_update s.control c d (by omega) v i
    | lanes | reg | param | input | output =>
      cases c with
      | ilen | obits => exact (if_neg nofun).symm
      | result | fault | faultInfo | olen => cases writable
  | lanes i =>
    cases k with
    | lanes i' =>
      simp only [Location.lanes.injEq]
      exact byte_setByte s.st i v hk.2
    | control | reg | param | input | output => exact (if_neg nofun).symm
  | reg i j =>
    obtain ⟨-, inside⟩ := hl
    cases k with
    | reg i' j' =>
      simp only [State.byteAt, State.putByte, regs_get_set, Location.reg.injEq]
      exact byteOf_update s.regs.get i i' (by omega) v j'
    | control | lanes | param | input | output => exact (if_neg nofun).symm
  | input j =>
    cases k with
    | input j' =>
      simp only [Location.input.injEq]
      exact memory_read_write s.ibuf j j' v
    | control | lanes | reg | param | output => exact (if_neg nofun).symm
  | param | output => cases writable

/-- R53, by address. -/
theorem peek_putByte {s : State} {a : Addr} {l : Location} (mapped : locate s.cfg a = some l)
    (writable : l.writable = true) (v : Byte) (b : Addr) :
    (s.putByte l v).peek b = if b = a then some v else s.peek b := by
  have cfg : (s.putByte l v).cfg = s.cfg := (putByte_keepsRun s l v).cfg
  cases found : locate s.cfg b with
  | none =>
    have apart : b ≠ a := fun same => by rw [same, mapped] at found; cases found
    rw [if_neg apart, State.peek, State.peek, cfg, found, Option.map_none, Option.map_none]
  | some k =>
    have sameByte : k = l ↔ b = a :=
      ⟨fun h => locate_injective (h ▸ found) mapped, fun h => Option.some.inj (found.symm.trans (h ▸ mapped))⟩
    rw [peek_of_locate (cfg.symm ▸ found), peek_of_locate found,
      byteAt_putByte (placed_of_locate mapped) (placed_of_locate found) writable]
    simp only [sameByte, apply_ite some]

/-! ### One transaction -/

/-- R52: a read of a mapped address. -/
theorem transact_read8_mapped {s : State} {a : Addr} {b : Byte} (h : s.peek a = some b) :
    transact (.read8 a) s = .next { s with pc := s.pc + 1, returned := some b } := by
  rcases readByte_cases a s.begin with ⟨c, hc, read⟩ | ⟨hn, -⟩
  · obtain rfl := Option.some.inj (h.symm.trans hc)
    rw [transact, read]
    rfl
  · cases h.symm.trans hn

/-- R52: a read of an unmapped address raises BUS_ERROR, which R274 lets pass if a fault is recorded. -/
theorem transact_read8_unmapped {s : State} {a : Addr} (h : s.peek a = none) :
    transact (.read8 a) s
      = .next { raiseFault .busError (a.setWidth 32) s.begin with pc := s.pc + 1, returned := some 0x00 } := by
  rcases readByte_cases a s.begin with ⟨c, hc, -⟩ | ⟨-, read⟩
  · cases h.symm.trans hc
  · rw [transact, read, State.advance, raiseFault_pc, begin_pc]

/-- R275: a write while a fault is recorded. -/
theorem transact_write8_faulted {s : State} (h : s.fault ≠ 0) (a : Addr) (v : Byte) :
    transact (.write8 a v) s = .next s.begin.advance := by
  rcases writeByte_cases a v s.begin with ⟨-, write⟩ | ⟨noFault, -⟩ | ⟨noFault, -⟩
  · rw [transact, write]
  · exact absurd noFault h
  · exact absurd noFault h

/-- R53: a write to an address of access RW. -/
theorem transact_write8_writable {s : State} (noFault : s.fault = 0) {a : Addr} {l : Location}
    (mapped : locate s.cfg a = some l) (writable : l.writable = true) (v : Byte) :
    transact (.write8 a v) s = .next (s.begin.putByte l v).advance := by
  rcases writeByte_cases a v s.begin with ⟨fault, -⟩ | ⟨-, k, hk, -, write⟩ | ⟨-, refused, -⟩
  · exact absurd noFault fault
  · obtain rfl := Option.some.inj (hk.symm.trans mapped)
    rw [transact, write]
  · rcases refused with unmapped | ⟨k, hk, readOnly⟩
    · cases mapped.symm.trans unmapped
    · obtain rfl := Option.some.inj (hk.symm.trans mapped)
      cases writable.symm.trans readOnly

/-- R53: a write to any other address. -/
theorem transact_write8_refused {s : State} (noFault : s.fault = 0) {a : Addr}
    (outside : ¬ WriteRange s.cfg a.toNat) (v : Byte) :
    transact (.write8 a v) s = .next (raiseFault .busError (a.setWidth 32) s.begin).advance := by
  rcases writeByte_cases a v s.begin with ⟨fault, -⟩ | ⟨-, l, mapped, writable, -⟩ | ⟨-, -, write⟩
  · exact absurd noFault fault
  · exact absurd ((writable_iff_writeRange (placed_of_locate mapped)).1 writable) outside
  · rw [transact, write]

/-- Settles O17: by whether the address is mapped, and if it is not, whether a fault is recorded. -/
theorem read8ReturnsTheByte : Obligations.Read8ReturnsTheByte := by
  intro s a next
  rw [step_eq_transact next]
  refine ⟨fun b mapped => transact_read8_mapped mapped, fun unmapped noFault => ?_, fun unmapped fault => ?_⟩
  · rw [transact_read8_unmapped unmapped, raiseFault_of_noFault (s := s.begin) _ _ noFault]
    rfl
  · rw [transact_read8_unmapped unmapped, raiseFault_of_fault (s := s.begin) _ _ fault]
    rfl

/-- Settles O18: by the gate of R275, then by the access of the address. -/
theorem write8ReplacesOneByte : Obligations.Write8ReplacesOneByte := by
  intro s a v next
  rw [step_eq_transact next]
  refine ⟨fun fault => ?faulted, fun noFault inside => ?written, fun noFault outside => ?refused⟩
  case faulted =>
    exact ⟨_, transact_write8_faulted fault a v, rfl⟩
  case written =>
    obtain ⟨l, mapped, writable⟩ := locate_of_writeRange inside
    have peek := peek_putByte (s := s.begin) mapped writable v
    obtain ⟨pc, txns, cfg⟩ := putByte_keepsRun s.begin l v
    exact ⟨_, transact_write8_writable noFault mapped writable v, (peek a).trans (if_pos rfl),
      fun b apart => (peek b).trans (if_neg apart), cfg, txns, congrArg (· + 1) pc⟩
  case refused =>
    have notWritable : ¬ WriteRange s.cfg a.toNat := by
      unfold WriteRange
      omega
    refine ⟨_, transact_write8_refused noFault notWritable v, ?_⟩
    rw [raiseFault_of_noFault (s := s.begin) _ _ noFault]
    rfl

/-! ### The host's reads -/

/-- R89: the reads of a run of mapped addresses return their bytes and change nothing. -/
theorem hostRun_readBytes {s : State} {a : Addr} {bs : List Byte}
    (h : ∀ j, j < bs.length → s.peek (a + BitVec.ofNat 16 j) = bs[j]?) :
    ∃ r, hostRun (hostReadBytes a bs.length) s = ({ s with pc := s.pc + bs.length, returned := r }, bs) := by
  induction bs generalizing a s with
  | nil => exact ⟨s.returned, rfl⟩
  | cons b bs ih =>
    have first : s.peek a = some b := by
      have := h 0 (Nat.succ_pos _)
      rwa [BitVec.add_zero] at this
    have later (j : Nat) (hj : j < bs.length) :
        State.peek { s with pc := s.pc + 1, returned := some b } (a + 1 + BitVec.ofNat 16 j) = bs[j]? := by
      have := h (j + 1) (Nat.succ_lt_succ hj)
      rwa [Nat.add_comm, BitVec.ofNat_add, ← BitVec.add_assoc, Nat.add_comm, List.getElem?_cons_succ] at this
    obtain ⟨r, rest⟩ := ih later
    refine ⟨r, ?_⟩
    rw [List.length_cons, hostReadBytes, hostRun_cons (transact_read8_mapped first), rest, Nat.add_right_comm]
    rfl

/-- R59, R89: a word of `n` bytes read as one number. -/
theorem hostRun_readBytes_word {s : State} {a : Addr} {n : Nat} (v : BitVec (8 * n))
    (h : ∀ j, j < n → s.peek (a + BitVec.ofNat 16 j) = some (BitVec.ofNat 8 (v.toNat / 256 ^ j))) :
    ∃ r bytes, hostRun (hostReadBytes a n) s = ({ s with pc := s.pc + n, returned := r }, bytes)
      ∧ leValue bytes = v.toNat := by
  have length : (leBytes n v.toNat).length = n := leBytes_length n _
  have small : v.toNat < 256 ^ n := (pow_mul 2 8 n) ▸ v.isLt
  obtain ⟨r, run⟩ := hostRun_readBytes (s := s) (a := a) (bs := leBytes n v.toNat) fun j hj => by
    rw [length] at hj
    rw [h j hj, leBytes_getElem?, if_pos hj]
  rw [length] at run
  exact ⟨r, _, run, (leValue_leBytes n _).trans (Nat.mod_eq_of_lt small)⟩

/-- R57, R89: `RD32` of a control register. -/
theorem hostRead32_control (s : State) {n : Nat} (hn : n < 6) :
    ∃ r, hostRead32 (BitVec.ofNat 16 (4 * n)) s
      = ({ s with pc := s.pc + 4, returned := r }, (s.control (ControlReg.ofIndex n)).toNat) := by
  obtain ⟨r, bytes, run, value⟩ := hostRun_readBytes_word (s := s) (a := BitVec.ofNat 16 (4 * n)) (n := 4)
    (s.control (ControlReg.ofIndex n)) fun j hj => by rw [← BitVec.ofNat_add, peek_control s hn hj]
  exact ⟨r, by rw [hostRead32, run, ← value]⟩

/-- R56, R89: `RDR`. -/
theorem hostReadReg_eq (s : State) (i : Reg) :
    ∃ r, hostReadReg i s = ({ s with pc := s.pc + 66, returned := r }, s.reg i) := by
  obtain ⟨r, bytes, run, value⟩ := hostRun_readBytes_word (s := s) (a := regAddress i) (n := 66) (s.regs.get i)
    fun j hj => by rw [regAddress, ← BitVec.ofNat_add, peek_reg s i hj, State.reg]
  exact ⟨r, by rw [hostReadReg, run, State.reg, ← value]⟩

/-! ### The host's writes to a register -/

/-- The word with a byte string written from byte `j` upward. -/
def withBytes {w : Nat} : BitVec w → Nat → List Byte → BitVec w
  | v, _, [] => v
  | v, j, b :: bs => withBytes (withByte v j b) (j + 1) bs

theorem byteOf_withBytes {w : Nat} (v : BitVec w) {j : Nat} {bs : List Byte} (inside : 8 * (j + bs.length) ≤ w)
    (k : Nat) : byteOf (withBytes v j bs) k = if j ≤ k then (bs[k - j]?).getD (byteOf v k) else byteOf v k := by
  induction bs generalizing v j with
  | nil => simp [withBytes]
  | cons b bs ih =>
    rw [List.length_cons] at inside
    rw [withBytes, ih _ (by omega), byteOf_withByte v (by omega)]
    rcases Nat.lt_trichotomy k j with below | rfl | above
    · rw [if_neg (by omega), if_neg (by omega), if_neg (by omega)]
    · rw [if_neg (by omega), if_pos rfl, if_pos (le_refl k), Nat.sub_self]
      rfl
    · rw [if_pos (by omega), if_neg (by omega), if_pos (by omega), show k - j = k - (j + 1) + 1 by omega,
        List.getElem?_cons_succ]

/-- R8, R56: the 66 bytes of `enc(v)` make up the whole register. -/
theorem withBytes_enc (old : Big) (v : Nat) : withBytes old 0 (enc v) = BitVec.ofNat 528 v := by
  have length : (enc v).length = 66 := leBytes_length 66 v
  refine eq_of_byteOf_eq (n := 66) fun k hk => ?_
  rw [byteOf_withBytes old (by rw [length]), if_pos (Nat.zero_le k), Nat.sub_zero, enc, leBytes_getElem?, if_pos hk,
    Option.getD_some]
  exact (byteOf_ofNat 66 v hk).symm

/-- R56, R89: writes to successive bytes of a register. -/
theorem hostRun_writeBytes_reg {s : State} (noFault : s.fault = 0) (i : Reg) {j : Nat} {bs : List Byte}
    (inside : j + bs.length ≤ 66) :
    ∃ r, (hostRun (hostWriteBytes (BitVec.ofNat 16 (0x0400 + 0x80 * i.val + j)) bs) s).1
      = { s with regs := s.regs.set i (withBytes (s.regs.get i) j bs), pc := s.pc + bs.length, returned := r } := by
  induction bs generalizing s j with
  | nil =>
    have same : s.regs.set i (s.regs.get i) = s.regs := Vector.set_getElem_self _
    exact ⟨s.returned, by rw [withBytes, same]; rfl⟩
  | cons b bs ih =>
    rw [List.length_cons] at inside
    have write := transact_write8_writable noFault (locate_reg s.cfg i (show j < 66 by omega)) rfl b
    obtain ⟨r, rest⟩ := ih (s := (s.begin.putByte (.reg i j) b).advance) (j := j + 1) noFault (by omega)
    refine ⟨r, ?_⟩
    rw [hostWriteBytes, hostRun_cons write, show (1 : Addr) = BitVec.ofNat 16 1 from rfl, ← BitVec.ofNat_add]
    refine rest.trans ?_
    simp only [withBytes, State.putByte, advance_regs, begin_regs, advance_pc, begin_pc, regs_get_set, if_pos,
      Vector.set_set, List.length_cons, Nat.add_right_comm _ 1]
    rfl

/-- R56, R89: `WRR` is the assignment `R[i] <- v` of R10. -/
theorem hostRun_writeReg {s : State} (noFault : s.fault = 0) (i : Reg) (v : Nat) :
    ∃ r, (hostRun (hostWriteReg i v) s).1 = { s.setReg i v with pc := s.pc + 66, returned := r } := by
  have length : (enc v).length = 66 := leBytes_length 66 v
  obtain ⟨r, run⟩ := hostRun_writeBytes_reg noFault i (j := 0) (bs := enc v) (by rw [length])
  rw [withBytes_enc, length] at run
  exact ⟨r, run⟩

/-- Settles O20: by `setReg` for the writes, and byte by byte for the reads. -/
theorem hostWritesLoadARegister : Obligations.HostWritesLoadARegister := by
  refine ⟨fun i v s noFault small => ?write, fun i s => ?read, fun s a v register => ?control⟩
  case write =>
    obtain ⟨r, run⟩ := hostRun_writeReg noFault i v
    refine ⟨_, run, ?_, fun k apart => ?_, rfl⟩
    · exact (reg_setReg s i i v).trans ((if_pos rfl).trans (Nat.mod_eq_of_lt small))
    · exact (reg_setReg s i k v).trans (if_neg apart)
  case read =>
    obtain ⟨r, run⟩ := hostReadReg_eq s i
    exact ⟨_, run, rfl⟩
  case control =>
    have read {n : Nat} (hn : n < 6) : ∃ t, hostRead32 (BitVec.ofNat 16 (4 * n)) s
        = (t, (s.control (ControlReg.ofIndex n)).toNat) ∧ t = { s with pc := s.pc + 4, returned := t.returned } := by
      obtain ⟨r, run⟩ := hostRead32_control s hn
      exact ⟨_, run, rfl⟩
    rcases register with ⟨rfl, rfl⟩ | ⟨rfl, rfl⟩ | ⟨rfl, rfl⟩ | ⟨rfl, rfl⟩ | ⟨rfl, rfl⟩ |
      ⟨rfl, rfl⟩
    · exact read (n := 0) (by decide)
    · exact read (n := 1) (by decide)
    · exact read (n := 2) (by decide)
    · exact read (n := 3) (by decide)
    · exact read (n := 4) (by decide)
    · exact read (n := 5) (by decide)

end Sys2Proof.BusAccess
end

section
/-! The table of R84 as a code: the fields of a word, the row that accepts it, and the two round trips (R81 to R88). -/

namespace Sys2Proof.Encoding

open Sys2Proof Sys2Proof.Machine Sys2Proof.Laws Sys2Proof.Frame Sys2Proof.Invariant

/-! ### Fields as digits of the word's number -/

theorem toNat_placed {v width lo : Nat} (small : v < 2 ^ width) (inside : lo + width ≤ 32) :
    (placed v lo).toNat = v * 2 ^ lo := by
  have bound : v * 2 ^ lo < 2 ^ 32 :=
    calc v * 2 ^ lo < 2 ^ width * 2 ^ lo := Nat.mul_lt_mul_of_pos_right small (Nat.two_pow_pos lo)
      _ = 2 ^ (lo + width) := by rw [← Nat.pow_add, Nat.add_comm]
      _ ≤ 2 ^ 32 := Nat.pow_le_pow_right (by decide) inside
  have fits : v < 2 ^ 32 := (Nat.le_mul_of_pos_right v (Nat.two_pow_pos lo)).trans_lt bound
  rw [placed, BitVec.toNat_shiftLeft, BitVec.toNat_ofNat, Nat.mod_eq_of_lt fits, Nat.shiftLeft_eq,
    Nat.mod_eq_of_lt bound]

/-- A field placed where the word has only zeros meets none of its bits. -/
theorem and_placed_eq_zero {acc : Word} {v width lo : Nat} (small : v < 2 ^ width)
    (free : acc.toNat / 2 ^ lo % 2 ^ width = 0) : acc &&& placed v lo = 0#32 := by
  apply BitVec.eq_of_getLsbD_eq
  intro k hk
  rw [placed, BitVec.getLsbD_and, BitVec.getLsbD_shiftLeft, BitVec.getLsbD_ofNat, BitVec.getLsbD_zero]
  by_cases below : k < lo
  · simp [below]
  by_cases within : k - lo < width
  · have bit : (acc.toNat / 2 ^ lo % 2 ^ width).testBit (k - lo) = false := by rw [free, Nat.zero_testBit]
    rw [Nat.testBit_mod_two_pow, Nat.testBit_div_two_pow, Nat.sub_add_cancel (Nat.not_lt.1 below),
      decide_eq_true within, Bool.true_and, BitVec.testBit_toNat] at bit
    rw [bit, Bool.false_and]
  · have bit : v.testBit (k - lo) = false :=
      Nat.testBit_lt_two_pow (small.trans_le (Nat.pow_le_pow_right (by decide) (Nat.not_lt.1 within)))
    simp [bit]

/-- Such a field adds its value, shifted. -/
theorem toNat_or_placed {acc : Word} {n v width lo : Nat} (value : acc.toNat = n) (small : v < 2 ^ width)
    (inside : lo + width ≤ 32) (free : n / 2 ^ lo % 2 ^ width = 0) : (acc ||| placed v lo).toNat = n + v * 2 ^ lo := by
  have disjoint : acc &&& placed v lo = 0#32 := and_placed_eq_zero small (value ▸ free)
  rw [← BitVec.add_eq_or_of_and_eq_zero _ _ disjoint, BitVec.toNat_add_of_and_eq_zero disjoint, value,
    toNat_placed small inside]

theorem toNat_or_reg {acc : Word} {n : Nat} (value : acc.toNat = n) (r : Reg) {lo : Nat}
    (inside : lo + 4 ≤ 32 := by decide) (free : n / 2 ^ lo % 2 ^ 4 = 0 := by omega) :
    (acc ||| placed r.val lo).toNat = n + r.val * 2 ^ lo :=
  toNat_or_placed value r.isLt inside free

/-- R82: a `pt` field carries the even number `2j`. -/
theorem toNat_or_point {acc : Word} {n : Nat} (value : acc.toNat = n) (p : PointReg) {lo : Nat}
    (inside : lo + 4 ≤ 32 := by decide) (free : n / 2 ^ lo % 2 ^ 4 = 0 := by omega) :
    (acc ||| placed (pointValue p) lo).toNat = n + 2 * p.val * 2 ^ lo :=
  toNat_or_placed value (show 2 * p.val < 2 ^ 4 by omega) inside free

/-- R82: `cap` and `rate` stand at bit 0. -/
theorem toNat_or_length {acc : Word} {n v : Nat} (value : acc.toNat = n) (small : v < 2 ^ 11)
    (free : n % 2 ^ 11 = 0 := by omega) : (acc ||| placed v 0).toNat = n + v := by
  have sum := toNat_or_placed (lo := 0) value small (by decide) (by rwa [Nat.pow_zero, Nat.div_one])
  rwa [Nat.pow_zero, Nat.mul_one] at sum

theorem toNat_or_suffix {acc : Word} {n : Nat} (value : acc.toNat = n) (ds : Byte)
    (free : n / 2 ^ 16 % 2 ^ 8 = 0 := by omega) : (acc ||| placed ds.toNat 16).toNat = n + ds.toNat * 2 ^ 16 :=
  toNat_or_placed value ds.isLt (by decide) free

theorem regField_eq_iff {w : Word} {lo : Nat} {r : Reg} : regField w lo = r ↔ w.toNat / 2 ^ lo % 2 ^ 4 = r.val := by
  rw [Fin.ext_iff, ← Nat.shiftRight_eq_div_pow, ← BitVec.extractLsb'_toNat, regField]

theorem pointField_eq_iff {w : Word} {lo : Nat} {p : PointReg} :
    pointField w lo = p ↔ w.toNat / 2 ^ (lo + 1) % 2 ^ 3 = p.val := by
  rw [Fin.ext_iff, ← Nat.shiftRight_eq_div_pow, ← BitVec.extractLsb'_toNat, pointField]

theorem lengthField_eq_iff {w : Word} {v : Nat} : lengthField w = v ↔ w.toNat % 2 ^ 11 = v := by
  rw [lengthField, BitVec.extractLsb'_toNat, Nat.shiftRight_zero]

theorem suffixField_eq_iff {w : Word} {ds : Byte} : suffixField w = ds ↔ w.toNat / 2 ^ 16 % 2 ^ 8 = ds.toNat := by
  rw [← BitVec.toNat_inj, suffixField, BitVec.extractLsb'_toNat, Nat.shiftRight_eq_div_pow]

/-! ### The sums of R88 -/

/-- The sum that R88 gives for the word of each statement. -/
def assemblerSum : Instr → Nat
  | .keccakF => 0x01000000
  | .absorb cap ds => 0x02000000 + ds.toNat * 2 ^ 16 + cap
  | .squeeze rate => 0x03000000 + rate
  | .hash => 0x10000000
  | .kdf => 0x11000000
  | .mac => 0x12000000
  | .fmul d a b => 0x20000000 + d.val * 2 ^ 20 + a.val * 2 ^ 16 + b.val * 2 ^ 12
  | .finv d a => 0x21000000 + d.val * 2 ^ 20 + a.val * 2 ^ 16
  | .padd d a b => 0x30000000 + 2 * d.val * 2 ^ 20 + 2 * a.val * 2 ^ 16 + 2 * b.val * 2 ^ 12
  | .pdbl d a => 0x31000000 + 2 * d.val * 2 ^ 20 + 2 * a.val * 2 ^ 16
  | .pmul d k a => 0x32000000 + 2 * d.val * 2 ^ 20 + k.val * 2 ^ 16 + 2 * a.val * 2 ^ 12
  | .sign h s d => 0x40000000 + h.val * 2 ^ 20 + s.val * 2 ^ 16 + d.val * 2 ^ 12
  | .signX h s d k => 0x40000001 + h.val * 2 ^ 20 + s.val * 2 ^ 16 + d.val * 2 ^ 12 + k.val * 2 ^ 8
  | .verify h s v => 0x41000000 + h.val * 2 ^ 20 + s.val * 2 ^ 16 + 2 * v.val * 2 ^ 12

/-- R88: no two fields of a format overlap, so each placed field adds to the number. -/
theorem toNat_encode {i : Instr} (wellFormed : i.wellFormed = true) : (encode i).toNat = assemblerSum i := by
  cases i with
  | keccakF | hash | kdf | mac => rfl
  | absorb cap ds => exact toNat_or_length (toNat_or_suffix (by rfl) ds) (of_decide_eq_true wellFormed)
  | squeeze rate => exact toNat_or_length (by rfl) (of_decide_eq_true wellFormed)
  | fmul d a b => exact toNat_or_reg (toNat_or_reg (toNat_or_reg (by rfl) d) a) b
  | finv d a => exact toNat_or_reg (toNat_or_reg (by rfl) d) a
  | padd d a b => exact toNat_or_point (toNat_or_point (toNat_or_point (by rfl) d) a) b
  | pdbl d a => exact toNat_or_point (toNat_or_point (by rfl) d) a
  | pmul d k a => exact toNat_or_point (toNat_or_reg (toNat_or_point (by rfl) d) k) a
  | sign h s d => exact toNat_or_reg (toNat_or_reg (toNat_or_reg (by rfl) h) s) d
  | signX h s d k => exact toNat_or_reg (toNat_or_reg (toNat_or_reg (toNat_or_reg (by rfl) h) s) d) k
  | verify h s v => exact toNat_or_point (toNat_or_reg (toNat_or_reg (by rfl) h) s) v

/-- Settles O5: R88's list is `assemblerSum`, constructor by constructor. -/
theorem encodeMatchesAssemblerSums : Obligations.EncodeMatchesAssemblerSums :=
  ⟨rfl, rfl, rfl, rfl, fun _ _ fits => toNat_encode (decide_eq_true fits),
    fun _ fits => toNat_encode (decide_eq_true fits),
    fun _ _ _ => toNat_encode rfl, fun _ _ => toNat_encode rfl, fun _ _ _ => toNat_encode rfl,
    fun _ _ => toNat_encode rfl, fun _ _ _ => toNat_encode rfl, fun _ _ _ => toNat_encode rfl,
    fun _ _ _ _ => toNat_encode rfl, fun _ _ _ => toNat_encode rfl⟩

/-! ### The row of a word -/

theorem accepts_iff {row : Row} {w : Word} : row.accepts w = true ↔ w &&& row.mask = row.pattern := beq_iff_eq

/-- Two rows whose patterns agree on the bits that both masks fix are one row. -/
theorem row_eq_of_patterns_agree : ∀ row₁ ∈ opcodeTable, ∀ row₂ ∈ opcodeTable,
    row₁.pattern &&& row₂.mask = row₂.pattern &&& row₁.mask → row₁ = row₂ := by decide

/-- Settles O2: the patterns of two rows that accept `w` agree on the bits that both masks fix. -/
theorem tableRowsAreDisjoint : Obligations.TableRowsAreDisjoint := by
  intro w row₁ mem₁ row₂ mem₂ accepts₁ accepts₂
  refine row_eq_of_patterns_agree row₁ mem₁ row₂ mem₂ ?_
  calc row₁.pattern &&& row₂.mask = w &&& row₁.mask &&& row₂.mask := by rw [accepts_iff.1 accepts₁]
    _ = w &&& row₂.mask &&& row₁.mask := by rw [BitVec.and_assoc, BitVec.and_comm row₁.mask, ← BitVec.and_assoc]
    _ = row₂.pattern &&& row₁.mask := by rw [accepts_iff.1 accepts₂]

/-- A word of a row decodes to that row's command, whatever the order of the table. -/
theorem decode_of_accepts {row : Row} {w : Word} (mem : row ∈ opcodeTable) (accepts : row.accepts w = true) :
    decode w = .ok (operandsOf row.op w) := by
  unfold decode
  cases found : opcodeTable.find? (fun row => row.accepts w) with
  | none => exact absurd accepts (List.find?_eq_none.1 found row mem)
  | some first =>
    have firstAccepts : first.accepts w = true := List.find?_some (p := fun row : Row => row.accepts w) found
    rw [tableRowsAreDisjoint w first (List.mem_of_find?_eq_some found) row mem firstAccepts accepts]

theorem exists_row_of_decode {w : Word} {i : Instr} (decoded : decode w = .ok i) :
    ∃ row ∈ opcodeTable, row.accepts w = true ∧ operandsOf row.op w = i := by
  unfold decode at decoded
  cases found : opcodeTable.find? (fun row => row.accepts w) with
  | none =>
    rw [found] at decoded
    cases decoded
  | some row =>
    rw [found] at decoded
    exact ⟨row, List.mem_of_find?_eq_some found, List.find?_some (p := fun row : Row => row.accepts w) found,
      Except.ok.inj decoded⟩

/-! ### Decoding an encoded command -/

/-- R81: the fields of the command's own row, read from its word, are its operands: each is a digit group of the sum. -/
theorem operandsOf_encode {i : Instr} (wellFormed : i.wellFormed = true) : operandsOf (rowOf i).op (encode i) = i := by
  have sum := toNat_encode wellFormed
  cases i with
  | keccakF | hash | kdf | mac => rfl
  | absorb cap ds =>
    have fits : cap < 2 ^ 11 := of_decide_eq_true wellFormed
    simp only [rowOf, operandsOf, assemblerSum, Instr.absorb.injEq, lengthField_eq_iff, suffixField_eq_iff] at sum ⊢
    omega
  | squeeze rate =>
    have fits : rate < 2 ^ 11 := of_decide_eq_true wellFormed
    simp only [rowOf, operandsOf, assemblerSum, Instr.squeeze.injEq, lengthField_eq_iff] at sum ⊢
    omega
  | fmul rd ra rb =>
    simp only [rowOf, operandsOf, assemblerSum, Instr.fmul.injEq, regField_eq_iff] at sum ⊢
    omega
  | finv rd ra =>
    simp only [rowOf, operandsOf, assemblerSum, Instr.finv.injEq, regField_eq_iff] at sum ⊢
    omega
  | padd pd pa pb =>
    simp only [rowOf, operandsOf, assemblerSum, Instr.padd.injEq, pointField_eq_iff] at sum ⊢
    omega
  | pdbl pd pa =>
    simp only [rowOf, operandsOf, assemblerSum, Instr.pdbl.injEq, pointField_eq_iff] at sum ⊢
    omega
  | pmul pd rk pa =>
    simp only [rowOf, operandsOf, assemblerSum, Instr.pmul.injEq, pointField_eq_iff, regField_eq_iff] at sum ⊢
    omega
  | sign rh rs rd =>
    simp only [rowOf, operandsOf, assemblerSum, Instr.sign.injEq, regField_eq_iff] at sum ⊢
    omega
  | signX rh rs rd rk =>
    simp only [rowOf, operandsOf, assemblerSum, Instr.signX.injEq, regField_eq_iff] at sum ⊢
    omega
  | verify rh rs pv =>
    simp only [rowOf, operandsOf, assemblerSum, Instr.verify.injEq, regField_eq_iff, pointField_eq_iff] at sum ⊢
    omega

/-- The family `EncodesItsRow` as one statement. -/
theorem rowOf_accepts_encode (i : Instr) : EncodesItsRow.Statement i :=
  match i with
  | .keccakF => EncodesItsRow.keccakF
  | .absorb cap ds => EncodesItsRow.absorb cap ds
  | .squeeze rate => EncodesItsRow.squeeze rate
  | .hash => EncodesItsRow.hash
  | .kdf => EncodesItsRow.kdf
  | .mac => EncodesItsRow.mac
  | .fmul rd ra rb => EncodesItsRow.fmul rd ra rb
  | .finv rd ra => EncodesItsRow.finv rd ra
  | .padd pd pa pb => EncodesItsRow.padd pd pa pb
  | .pdbl pd pa => EncodesItsRow.pdbl pd pa
  | .pmul pd rk pa => EncodesItsRow.pmul pd rk pa
  | .sign rh rs rd => EncodesItsRow.sign rh rs rd
  | .signX rh rs rd rk => EncodesItsRow.signX rh rs rd rk
  | .verify rh rs pv => EncodesItsRow.verify rh rs pv

/-- Settles O3: the word belongs to the command's own row and to no other, and its fields are the operands. -/
theorem decodeEncodeRoundTrip : Obligations.DecodeEncodeRoundTrip := by
  intro i wellFormed
  rw [decode_of_accepts (rowOf_mem i) (rowOf_accepts_encode i wellFormed), operandsOf_encode wellFormed]

/-! ### Encoding a decoded word -/

/-- A field read from a word and put back at its place is that part of the word. -/
theorem placed_extractLsb' (w : Word) (lo width : Nat) :
    placed (w.extractLsb' lo width).toNat lo = w &&& (BitVec.ofNat 32 (2 ^ width - 1) <<< lo) := by
  apply BitVec.eq_of_getLsbD_eq
  intro k hk
  rw [placed, BitVec.getLsbD_shiftLeft, BitVec.getLsbD_ofNat, BitVec.testBit_toNat, BitVec.getLsbD_extractLsb',
    BitVec.getLsbD_and, BitVec.getLsbD_shiftLeft, BitVec.getLsbD_ofNat, Nat.testBit_two_pow_sub_one, decide_eq_true hk]
  by_cases below : k < lo
  · simp [below]
  · rw [Nat.add_sub_cancel' (Nat.not_lt.1 below), decide_eq_true (show k - lo < 32 by omega), Bool.true_and]
    simp only [Bool.true_and, Bool.and_assoc, Bool.and_comm (w.getLsbD k)]

theorem placed_regField (w : Word) (lo : Nat) : placed (regField w lo).val lo = w &&& (0xF#32 <<< lo) :=
  placed_extractLsb' w lo 4

theorem placed_lengthField (w : Word) : placed (lengthField w) 0 = w &&& 0x7FF#32 := placed_extractLsb' w 0 11

theorem placed_suffixField (w : Word) : placed (suffixField w).toNat 16 = w &&& (0xFF#32 <<< 16) :=
  placed_extractLsb' w 16 8

/-- R82: the value `2j` of a `pt` field is the index `j` one bit higher. -/
theorem placed_pointValue (p : PointReg) (lo : Nat) : placed (pointValue p) lo = placed p.val (lo + 1) := by
  have double : BitVec.ofNat 32 (pointValue p) = BitVec.ofNat 32 p.val <<< 1 := by
    apply BitVec.eq_of_toNat_eq
    rw [BitVec.toNat_shiftLeft, BitVec.toNat_ofNat, BitVec.toNat_ofNat, Nat.shiftLeft_eq, pointValue]
    omega
  rw [placed, placed, double, ← BitVec.shiftLeft_add, Nat.add_comm]

theorem placed_pointField (w : Word) (lo : Nat) : placed (pointValue (pointField w lo)) lo = w &&& (0xE#32 <<< lo) := by
  rw [placed_pointValue, show 0xE#32 = 0x7#32 <<< 1 from rfl, ← BitVec.shiftLeft_add, Nat.add_comm 1]
  exact placed_extractLsb' w (lo + 1) 3

/-- The bits of a row's fields, bit 0 of a `pt` field not among them (R81, R82). -/
def fieldBits : Opcode → Word
  | .keccakF | .hash | .kdf | .mac => 0
  | .absorb => 0xFF#32 <<< 16 ||| 0x7FF
  | .squeeze => 0x7FF
  | .fmul | .sign => 0xF#32 <<< 20 ||| 0xF#32 <<< 16 ||| 0xF#32 <<< 12
  | .finv => 0xF#32 <<< 20 ||| 0xF#32 <<< 16
  | .padd => 0xE#32 <<< 20 ||| 0xE#32 <<< 16 ||| 0xE#32 <<< 12
  | .pdbl => 0xE#32 <<< 20 ||| 0xE#32 <<< 16
  | .pmul => 0xE#32 <<< 20 ||| 0xF#32 <<< 16 ||| 0xE#32 <<< 12
  | .signX => 0xF#32 <<< 20 ||| 0xF#32 <<< 16 ||| 0xF#32 <<< 12 ||| 0xF#32 <<< 8
  | .verify => 0xF#32 <<< 20 ||| 0xF#32 <<< 16 ||| 0xE#32 <<< 12

/-- R84: a mask fixes exactly the bits outside the fields. -/
theorem fieldBits_eq_not_mask : ∀ row ∈ opcodeTable, fieldBits row.op = ~~~ row.mask := by decide

/-- R84: a pattern is the row's word with zero fields. -/
theorem encode_operandsOf_zero : ∀ row ∈ opcodeTable, encode (operandsOf row.op 0) = row.pattern := by decide

/-- The word of a row's command is the row's fixed word with the fields put back: in every row each field is read and
placed at the same bits. -/
theorem encode_operandsOf (op : Opcode) (w : Word) :
    encode (operandsOf op w) = encode (operandsOf op 0) ||| (w &&& fieldBits op) := by
  cases op <;>
    simp only [operandsOf, encode, fieldBits, placed_regField, placed_pointField, placed_lengthField,
      placed_suffixField, BitVec.ofNat_eq_ofNat, BitVec.and_or_distrib_left, BitVec.zero_and,
      BitVec.and_zero, BitVec.or_zero, BitVec.or_assoc]

theorem encode_operandsOf_of_accepts {row : Row} {w : Word} (mem : row ∈ opcodeTable)
    (accepts : row.accepts w = true) : encode (operandsOf row.op w) = w :=
  calc encode (operandsOf row.op w) = row.pattern ||| (w &&& ~~~ row.mask) := by
        rw [encode_operandsOf, encode_operandsOf_zero row mem, fieldBits_eq_not_mask row mem]
    _ = (w &&& row.mask) ||| (w &&& ~~~ row.mask) := by rw [accepts_iff.1 accepts]
    _ = w := by rw [← BitVec.and_or_distrib_left, BitVec.or_not_self, BitVec.and_allOnes]

/-- Settles O4: the mask keeps the row's pattern and the fields keep the rest of the word. -/
theorem encodeDecodeRoundTrip : Obligations.EncodeDecodeRoundTrip := by
  intro w i decoded
  obtain ⟨row, mem, accepts, rfl⟩ := exists_row_of_decode decoded
  exact ⟨encode_operandsOf_of_accepts mem accepts, wellFormed_of_decode decoded⟩

/-! ### Words of no row, and the examples -/

theorem decode_eq_error_of_no_row {w : Word} (noRow : ∀ row ∈ opcodeTable, w &&& row.mask ≠ row.pattern) :
    ∃ e, decode w = .error e := by
  cases decoded : decode w with
  | error e => exact ⟨e, rfl⟩
  | ok i =>
    obtain ⟨row, mem, accepts, -⟩ := exists_row_of_decode decoded
    exact absurd (accepts_iff.1 accepts) (noRow row mem)

/-- Settles O8: the gate of R275 is open, decoding fails, and the first fault is recorded. -/
theorem illegalWordRaisesIllegalCmd : Obligations.IllegalWordRaisesIllegalCmd := by
  intro s w ⟨next, noFault⟩ noRow
  obtain ⟨e, illegal⟩ := decode_eq_error_of_no_row noRow
  have issued : issueWord w s.begin = .next (raiseFault .illegalCmd w s.begin) := by
    rw [issueWord, begin_fault, if_neg (not_not.2 noFault), illegal]
  rw [step_eq_transact next, transact, issued, raiseFault_of_noFault (s := s.begin) _ _ noFault]
  rfl

/-- Settles O1: each example word is the word of the command beside it. -/
theorem exampleWordsDecode : Obligations.ExampleWordsDecode :=
  ⟨decodeEncodeRoundTrip (.absorb 512 0x06) rfl, decodeEncodeRoundTrip (.squeeze 1088) rfl,
    decodeEncodeRoundTrip (.fmul 2 0 1) rfl, decodeEncodeRoundTrip (.finv 3 2) rfl,
    decodeEncodeRoundTrip (.padd 2 0 1) rfl, decodeEncodeRoundTrip (.pdbl 1 0) rfl,
    decodeEncodeRoundTrip (.pmul 1 0 2) rfl, decodeEncodeRoundTrip (.sign 2 3 0) rfl,
    decodeEncodeRoundTrip (.signX 2 3 0 1) rfl, decodeEncodeRoundTrip (.verify 2 3 2) rfl⟩

end Sys2Proof.Encoding
end

section
/-! The permutation Keccak-f[1600]: its five steps lane by lane, why each is injective, and KECCAK_F (R110 to R121). -/

namespace Sys2Proof.Permutation

open Sys2Proof Sys2Proof.Machine Function

/-! ### Exclusive or and rotation of lanes -/

/-- XOR with one value twice changes nothing. -/
theorem xor_xor_cancel (u v : Lane) : u ^^^ (u ^^^ v) = v := by
  rw [← BitVec.xor_assoc, BitVec.xor_self, BitVec.zero_xor]

theorem xor_left_comm (u v w : Lane) : u ^^^ (v ^^^ w) = v ^^^ (u ^^^ w) := by
  rw [← BitVec.xor_assoc, BitVec.xor_comm u v, BitVec.xor_assoc]

/-- XOR with one value five times is XOR with it once. -/
theorem xor_of_five (d u₀ u₁ u₂ u₃ u₄ : Lane) :
    u₀ ^^^ d ^^^ (u₁ ^^^ d) ^^^ (u₂ ^^^ d) ^^^ (u₃ ^^^ d) ^^^ (u₄ ^^^ d)
      = u₀ ^^^ u₁ ^^^ u₂ ^^^ u₃ ^^^ u₄ ^^^ d := by
  simp only [BitVec.xor_assoc, BitVec.xor_comm, xor_left_comm, xor_xor_cancel]

/-- R9: bit `i` of a lane rotated by `n` stood `n` places below, counted modulo 64. -/
theorem getLsbD_rotateLeft_lane (v : Lane) (n : Nat) {i : Nat} (hi : i < 64) :
    (v.rotateLeft n).getLsbD i = v.getLsbD ((i + (64 - n % 64)) % 64) := by
  rw [BitVec.getLsbD_rotateLeft]
  by_cases wraps : i < n % 64
  · rw [decide_eq_true wraps, cond_true, show (i + (64 - n % 64)) % 64 = 64 - n % 64 + i by omega]
  · rw [decide_eq_false wraps, cond_false, decide_eq_true hi, Bool.true_and,
      show (i + (64 - n % 64)) % 64 = i - n % 64 by omega]

theorem rotateLeft_xor (u v : Lane) (n : Nat) :
    (u ^^^ v).rotateLeft n = u.rotateLeft n ^^^ v.rotateLeft n := by
  apply BitVec.eq_of_getLsbD_eq
  intro i hi
  simp only [BitVec.getLsbD_xor, getLsbD_rotateLeft_lane _ n hi]

theorem rotateLeft_rotateLeft (v : Lane) (m n : Nat) : (v.rotateLeft m).rotateLeft n = v.rotateLeft (m + n) := by
  apply BitVec.eq_of_getLsbD_eq
  intro i hi
  rw [getLsbD_rotateLeft_lane _ n hi, getLsbD_rotateLeft_lane _ m (Nat.mod_lt _ (by decide)),
    getLsbD_rotateLeft_lane _ _ hi]
  congr 1
  omega

theorem rotateLeft_of_dvd (v : Lane) {n : Nat} (whole : 64 ∣ n) : v.rotateLeft n = v := by
  apply BitVec.eq_of_getLsbD_eq
  intro i hi
  rw [getLsbD_rotateLeft_lane v n hi, Nat.mod_eq_zero_of_dvd whole, Nat.sub_zero, Nat.add_mod_right,
    Nat.mod_eq_of_lt hi]

theorem rotateLeft_injective (n : Nat) : Injective fun v : Lane => v.rotateLeft n := by
  intro u v (rotated : u.rotateLeft n = v.rotateLeft n)
  have back (w : Lane) : (w.rotateLeft n).rotateLeft (64 - n % 64) = w := by
    rw [rotateLeft_rotateLeft]
    exact rotateLeft_of_dvd w (by omega)
  rw [← back u, rotated, back v]

/-! ### The five steps lane by lane -/

theorem lane_congr (a : Grid) {x x' y y' : Nat} (hx : x % 5 = x' % 5) (hy : y % 5 = y' % 5) :
    a.lane x y = a.lane x' y' := by rw [← lane_mod, hx, hy, lane_mod]

/-- R110: a grid given by lanes whose indices count modulo 5 has these lanes at all indices. -/
theorem lane_ofLanes_of_mod {f : Nat → Nat → Lane} (periodic : ∀ x y, f (x % 5) (y % 5) = f x y) (x y : Nat) :
    (Grid.ofLanes f).lane x y = f x y := by
  rw [← lane_mod, lane_ofLanes f (Nat.mod_lt x (by decide)) (Nat.mod_lt y (by decide)), periodic]

/-- Column numbers count modulo 5 (R110). -/
theorem columnParity_periodic (a : Grid) : Periodic (columnParity a) 5 := by
  intro x
  simp only [columnParity, lane_congr a (Nat.add_mod_right x 5) rfl]

theorem eq_of_periodic_of_mod {c : Nat → Lane} (periodic : Periodic c 5) {m n : Nat} (h : m % 5 = n % 5) :
    c m = c n := by rw [← periodic.map_mod_nat m, h, periodic.map_mod_nat]

theorem theta_lane (a : Grid) (x y : Nat) :
    (theta a).lane x y = a.lane x y ^^^ (columnParity a (x + 4) ^^^ (columnParity a (x + 1)).rotateLeft 1) := by
  refine lane_ofLanes_of_mod (fun x y => ?_) x y
  have parity := columnParity_periodic a
  rw [lane_mod, eq_of_periodic_of_mod parity (Nat.mod_add_mod x 5 4),
    eq_of_periodic_of_mod parity (Nat.mod_add_mod x 5 1)]

theorem rho_lane (a : Grid) {x y : Nat} (hx : x < 5) (hy : y < 5) :
    (rho a).lane x y = (a.lane x y).rotateLeft (rhoOffset x y) := lane_ofLanes _ hx hy

theorem piStep_lane (a : Grid) (x y : Nat) : (piStep a).lane x y = a.lane (x + 3 * y) x :=
  lane_ofLanes_of_mod (f := fun x y => a.lane (x + 3 * y) x) (fun x _ => lane_congr a (by omega) (Nat.mod_mod x 5)) x y

theorem chi_lane (a : Grid) (x y : Nat) :
    (chi a).lane x y = a.lane x y ^^^ (~~~(a.lane (x + 1) y) &&& a.lane (x + 2) y) := by
  refine lane_ofLanes_of_mod (fun x y => ?_) x y
  rw [lane_mod, lane_congr a (Nat.mod_add_mod x 5 1) (Nat.mod_mod y 5),
    lane_congr a (Nat.mod_add_mod x 5 2) (Nat.mod_mod y 5)]

theorem iota_lane (a : Grid) (ir : Nat) {x y : Nat} (hx : x < 5) (hy : y < 5) :
    (iota a ir).lane x y = if x = 0 ∧ y = 0 then a.lane 0 0 ^^^ roundConstant ir else a.lane x y :=
  lane_ofLanes _ hx hy

/-- R114: the lane at (x, y) moves to (y, 2x + 3y). -/
theorem piStep_lane_moved (a : Grid) (x y : Nat) : (piStep a).lane y (2 * x + 3 * y) = a.lane x y := by
  rw [piStep_lane]
  exact lane_congr a (by omega) rfl

/-- Settles O22: the lanes of the three steps, with the indices reduced modulo 5. -/
theorem thetaPiChiLaneFormulas : Obligations.ThetaPiChiLaneFormulas := by
  intro a x y hx hy
  refine ⟨fun c parity => ?_, ?_, ?_, ?_⟩
  · have columns (u : Nat) : columnParity a u = c (u % 5) := by
      rw [parity _ (Nat.mod_lt u (by decide)), ← (columnParity_periodic a).map_mod_nat u, columnParity]
    rw [theta_lane, columns, columns]
  · rw [← piStep_lane_moved a x y]
    exact lane_congr _ rfl (Nat.mod_mod _ 5)
  · rw [piStep_lane]
    exact lane_congr a (Nat.mod_mod _ 5).symm rfl
  · rw [chi_lane, lane_congr a (Nat.mod_mod (x + 1) 5) rfl, lane_congr a (Nat.mod_mod (x + 2) 5) rfl]

/-! ### The generation rules of the tables -/

/-- R113: the walk stays on the grid, and the table holds the rule's offsets along it. -/
theorem rhoOffset_rhoWalk :
    ∀ t < 24, (rhoWalk t).1 < 5 ∧ (rhoWalk t).2 < 5
      ∧ rhoOffset (rhoWalk t).1 (rhoWalk t).2 = (t + 1) * (t + 2) / 2 % 64 := by decide

/-- R116: the table holds the constants of the shift register. -/
theorem roundConstant_eq_generatedConstant : ∀ ir < 24, roundConstant ir = generatedConstant ir := by decide +kernel

/-- Settles O23: the lane formulas with the two tables, which agree with their rules entry by entry. -/
theorem rhoIotaFollowTheGenerationRules : Obligations.RhoIotaFollowTheGenerationRules := by
  refine ⟨fun a t ht => ?_, fun a => ?_, fun a ir x y hir hx hy => ?_⟩
  · obtain ⟨hx, hy, offset⟩ := rhoOffset_rhoWalk t ht
    rw [rho_lane a hx hy, offset]
  · rw [rho_lane a (by decide) (by decide)]
    exact rotateLeft_of_dvd _ (Nat.dvd_zero 64)
  · rw [iota_lane a ir hx hy, roundConstant_eq_generatedConstant ir hir]

/-! ### theta is injective

On the five column parities theta acts as the polynomial `1 + X + X⁴ Z` over GF(2) with `X⁵ = 1` and `Z⁶⁴ = 1`:
`X` reads the column to the left and `Z` rotates by one. Squaring doubles each exponent, so that the 64th power has no
`Z`; and the 192nd power is 1. -/

/-- Each column's value XORed with the one `n` columns to the left and, rotated by `n`, the one `n` to the right. -/
def spread (n : Nat) (c : Nat → Lane) (x : Nat) : Lane := c x ^^^ (c (x + 4 * n) ^^^ (c (x + n)).rotateLeft n)

theorem columnParity_theta (a : Grid) : columnParity (theta a) = spread 1 (columnParity a) := by
  funext x
  rw [columnParity]
  simp only [theta_lane]
  exact xor_of_five _ _ _ _ _ _

theorem spread_spread {c : Nat → Lane} (periodic : Periodic c 5) (n : Nat) :
    spread n (spread n c) = spread (2 * n) c := by
  funext x
  have here : c (x + 4 * n + n) = c x := eq_of_periodic_of_mod periodic (by omega)
  have here' : c (x + n + 4 * n) = c x := eq_of_periodic_of_mod periodic (by omega)
  have left : x + 4 * n + 4 * n = x + 4 * (2 * n) := by omega
  have right : x + n + n = x + 2 * n := by omega
  simp only [spread, rotateLeft_xor, rotateLeft_rotateLeft, here, here', left, right, ← Nat.two_mul]
  simp only [BitVec.xor_assoc, xor_left_comm, xor_xor_cancel]

theorem spread_two_pow_eq_of_spread_one_eq {c d : Nat → Lane} (hc : Periodic c 5) (hd : Periodic d 5)
    (h : spread 1 c = spread 1 d) (k : Nat) : spread (2 ^ k) c = spread (2 ^ k) d := by
  induction k with
  | zero => exact h
  | succ k ih => rw [pow_succ', ← spread_spread hc, ← spread_spread hd, ih]

/-- The 192nd power is 1: without rotations, spreading by 64 columns undoes spreading by 128. -/
theorem spread_64_spread_128 {c : Nat → Lane} (periodic : Periodic c 5) : spread 64 (spread 128 c) = c := by
  funext x
  have reduced (k : Nat) : c (x + k) = c (x + k % 5) := eq_of_periodic_of_mod periodic (by omega)
  have unrotated (v : Lane) : v.rotateLeft 64 = v ∧ v.rotateLeft 128 = v :=
    ⟨rotateLeft_of_dvd v (by decide), rotateLeft_of_dvd v (by decide)⟩
  simp only [spread, unrotated, Nat.add_assoc, Nat.reduceMul, Nat.reduceAdd]
  rw [reduced 64, reduced 128, reduced 192, reduced 256, reduced 384, reduced 512, reduced 576, reduced 768]
  simp only [Nat.reduceMod, BitVec.xor_assoc, BitVec.xor_comm, xor_left_comm, xor_xor_cancel, BitVec.xor_self,
    BitVec.xor_zero]

theorem eq_of_spread_one_eq {c d : Nat → Lane} (hc : Periodic c 5) (hd : Periodic d 5)
    (h : spread 1 c = spread 1 d) : c = d :=
  calc c = spread 64 (spread 128 c) := (spread_64_spread_128 hc).symm
    _ = spread 64 (spread 128 d) := congrArg (spread 64) (spread_two_pow_eq_of_spread_one_eq hc hd h 7)
    _ = d := spread_64_spread_128 hd

theorem theta_injective : Injective theta := by
  intro a b same
  have parities : columnParity a = columnParity b := by
    apply eq_of_spread_one_eq (columnParity_periodic a) (columnParity_periodic b)
    rw [← columnParity_theta, ← columnParity_theta, same]
  apply grid_ext
  intro x y _ _
  have lanes := congrArg (fun g : Grid => g.lane x y) same
  simp only [theta_lane, parities] at lanes
  exact (BitVec.xor_left_inj _).1 lanes

/-! ### The other steps are injective -/

theorem rho_injective : Injective rho := by
  intro a b same
  apply grid_ext
  intro x y hx hy
  have lanes := congrArg (fun g : Grid => g.lane x y) same
  simp only [rho_lane _ hx hy] at lanes
  exact rotateLeft_injective (rhoOffset x y) lanes

theorem piStep_injective : Injective piStep := by
  intro a b same
  apply grid_ext
  intro x y _ _
  rw [← piStep_lane_moved a x y, same, piStep_lane_moved]

/-- chi on the five bits of a row, undone at one of them. -/
theorem chi_bit_undone : ∀ a b c d e : Bool,
    a = ((a ^^ (!b && c)) ^^ (!(b ^^ (!c && d)) && ((c ^^ (!d && e)) ^^ (!(d ^^ (!e && a)) && (e ^^ (!a && b)))))) := by
  decide

/-- chi is undone along its row. -/
theorem lane_eq_of_chi (a : Grid) (x y : Nat) :
    a.lane x y = (chi a).lane x y ^^^ (~~~((chi a).lane (x + 1) y) &&&
      ((chi a).lane (x + 2) y ^^^ (~~~((chi a).lane (x + 3) y) &&& (chi a).lane (x + 4) y))) := by
  have wrap (k : Nat) : a.lane (x + (k + 5)) y = a.lane (x + k) y := lane_congr a (Nat.add_mod_right (x + k) 5) rfl
  apply BitVec.eq_of_getLsbD_eq
  intro i hi
  simp only [chi_lane, Nat.add_assoc, Nat.reduceAdd, wrap 0, wrap 1, Nat.add_zero, BitVec.getLsbD_xor,
    BitVec.getLsbD_and, BitVec.getLsbD_not, hi, decide_true, Bool.true_and]
  exact chi_bit_undone _ _ _ _ _

theorem chi_injective : Injective chi := by
  intro a b same
  apply grid_ext
  intro x y _ _
  rw [lane_eq_of_chi a, same, ← lane_eq_of_chi b]

theorem iota_injective (ir : Nat) : Injective fun a => iota a ir := by
  intro a b (same : iota a ir = iota b ir)
  apply grid_ext
  intro x y hx hy
  have lanes := congrArg (fun g : Grid => g.lane x y) same
  simp only [iota_lane _ ir hx hy] at lanes
  by_cases origin : x = 0 ∧ y = 0
  · obtain ⟨rfl, rfl⟩ := origin
    exact (BitVec.xor_left_inj _).1 lanes
  · rwa [if_neg origin, if_neg origin] at lanes

/-! ### Rounds -/

theorem keccakRound_injective (ir : Nat) : Injective fun a => keccakRound a ir :=
  (iota_injective ir).comp (chi_injective.comp (piStep_injective.comp (rho_injective.comp theta_injective)))

theorem foldl_keccakRound_injective (rounds : List Nat) : Injective fun a => rounds.foldl keccakRound a := by
  induction rounds with
  | nil => exact injective_id
  | cons ir rest ih => exact ih.comp (keccakRound_injective ir)

/-- Settles O26: each of the five steps is injective, so each round is, and so is every sequence of rounds. -/
theorem permutationIsInjective : Obligations.PermutationIsInjective :=
  fun _ _ same => foldl_keccakRound_injective (List.range 24) same

/-- Settles O25: the 24 rounds evaluated on the zero state, lane by lane and through the byte view. -/
theorem permutationOfTheZeroState : Obligations.PermutationOfTheZeroState :=
  ⟨by decide +kernel, by decide +kernel⟩

/-! ### The command -/

theorem exec_keccakF (s : State) : exec .keccakF s = .next (finish .ok { s with st := keccakF s.st }) := rfl

/-- Settles O27: the command's meaning, with the permutation's rounds and the code of `OK` written out. -/
theorem keccakFCompletes : Obligations.KeccakFCompletes := by
  intro s
  rw [exec_keccakF, finish, keccakF]
  rfl

end Sys2Proof.Permutation
end

section
/-! The sponge: the padded string, the squeezed bytes, the absorbed blocks, and what ABSORB and SQUEEZE check (R130 to
R137). -/

namespace Sys2Proof.Sponge

open Sys2Proof Sys2Proof.Machine Sys2Proof.ByteMap Sys2Proof.Invariant Sys2Proof.SqueezeCommand

/-! ### Padding -/

theorem pad_take (msg : List Byte) (rateBytes : Nat) (ds : Byte) : (pad msg rateBytes ds).take msg.length = msg :=
  List.take_left

/-- R131: the padding has `q = rate_bytes - (len(M) mod rate_bytes)` bytes. -/
theorem pad_length_eq_add (msg : List Byte) {rateBytes : Nat} (ds : Byte) (positive : 1 ≤ rateBytes) :
    (pad msg rateBytes ds).length = msg.length + (rateBytes - msg.length % rateBytes) := by
  have room : msg.length % rateBytes < rateBytes := Nat.mod_lt _ positive
  rw [pad, List.length_append, List.length_modify, List.length_cons, List.length_replicate]
  omega

/-- R131: the padding fills the block after the last full one of the message. -/
theorem pad_length (msg : List Byte) {rateBytes : Nat} (ds : Byte) (positive : 1 ≤ rateBytes) :
    (pad msg rateBytes ds).length = (msg.length / rateBytes + 1) * rateBytes := by
  have room : msg.length % rateBytes < rateBytes := Nat.mod_lt _ positive
  have parts : msg.length / rateBytes * rateBytes + msg.length % rateBytes = msg.length := Nat.div_add_mod' _ _
  rw [pad_length_eq_add msg ds positive, Nat.add_one_mul]
  omega

/-- R131: byte `k` of the padding is `ds` if it is the first, with 0x80 XORed in if it is the last. -/
theorem pad_getElem?_of_padding (msg : List Byte) {rateBytes k : Nat} (ds : Byte)
    (inside : k < rateBytes - msg.length % rateBytes) :
    (pad msg rateBytes ds)[msg.length + k]?
      = some ((if k = 0 then ds else 0x00) ^^^ (if k + 1 = rateBytes - msg.length % rateBytes then 0x80 else 0x00)) := by
  have plain : (ds :: List.replicate (rateBytes - msg.length % rateBytes - 1) 0)[k]?
      = some (if k = 0 then ds else 0x00) := by
    cases k with
    | zero => rfl
    | succ k =>
      rw [List.getElem?_cons_succ, List.getElem?_replicate, if_pos (by omega), if_neg (Nat.succ_ne_zero k)]
  rw [pad, List.getElem?_append_right (Nat.le_add_right _ _), Nat.add_sub_cancel_left, List.getElem?_modify, plain]
  by_cases last : k + 1 = rateBytes - msg.length % rateBytes
  · rw [if_pos last]
    exact congrArg some (if_pos (show rateBytes - msg.length % rateBytes - 1 = k by omega))
  · rw [if_neg last]
    exact congrArg some ((if_neg (show rateBytes - msg.length % rateBytes - 1 ≠ k by omega)).trans BitVec.xor_zero.symm)

/-- Settles O28: the bytes from the message's length on are those of the padding. -/
theorem paddingFillsTheLastBlock : Obligations.PaddingFillsTheLastBlock := by
  intro msg rateBytes ds positive _
  have length := pad_length_eq_add msg ds positive
  have room : msg.length % rateBytes < rateBytes := Nat.mod_lt _ positive
  refine ⟨pad_take msg rateBytes ds, pad_length msg ds positive ▸ Nat.dvd_mul_left _ _, by omega, by omega,
    fun j hj hlast => ?_⟩
  obtain ⟨k, rfl⟩ := Nat.exists_eq_add_of_le hj
  rw [pad_getElem?_of_padding msg ds (by omega), length]
  simp only [Nat.add_assoc, Nat.add_eq_left, Nat.add_left_cancel_iff]

/-! ### The bytes of a squeeze -/

/-- The leading `rateBytes` bytes of each of `n` states, each the permutation of the one before (R133). -/
def squeezedBlocks (rateBytes : Nat) : Nat → Grid → List Byte
  | 0, _ => []
  | n + 1, a => a.bytes.take rateBytes ++ squeezedBlocks rateBytes n (keccakF a)

/-- A state gives as many bytes as the rate, up to the 200 it has. -/
theorem length_take_bytes (a : Grid) {rateBytes : Nat} (hmax : rateBytes ≤ 200) :
    (a.bytes.take rateBytes).length = rateBytes := by
  rw [List.length_take, bytes_length, Nat.min_eq_left hmax]

theorem squeezedBlocks_getElem? {rateBytes j : Nat} (hmax : rateBytes ≤ 200) (hj : j < rateBytes) :
    ∀ {n i : Nat} (a : Grid), i < n →
      (squeezedBlocks rateBytes n a)[i * rateBytes + j]? = some ((keccakF^[i] a).byte j)
  | 0, _, _, hi => absurd hi (Nat.not_lt_zero _)
  | n + 1, 0, a, _ => by
    rw [squeezedBlocks, Nat.zero_mul, Nat.zero_add, List.getElem?_append_left (by rwa [length_take_bytes a hmax]),
      List.getElem?_take_of_lt hj, bytes_getElem?, if_pos (by omega), Function.iterate_zero_apply]
  | n + 1, i + 1, a, hi => by
    have later : (i + 1) * rateBytes + j = rateBytes + (i * rateBytes + j) := by
      rw [Nat.add_one_mul]
      omega
    rw [squeezedBlocks, later, List.getElem?_append_right (by rw [length_take_bytes a hmax]; exact Nat.le_add_right _ _),
      length_take_bytes a hmax, Nat.add_sub_cancel_left, squeezedBlocks_getElem? hmax hj _ (Nat.lt_of_succ_lt_succ hi),
      Function.iterate_succ_apply]

/-- R133: where `n` turns and no fewer give enough bits, the loop makes `n` turns. -/
theorem squeezeLoop_eq {bits rateBytes : Nat} (hmax : rateBytes ≤ 200) :
    ∀ {fuel n : Nat} (out : List Byte) (a : Grid), n ≤ fuel → (∀ m, m < n → 8 * (out.length + m * rateBytes) < bits) →
      bits ≤ 8 * (out.length + n * rateBytes) →
      squeezeLoop bits rateBytes fuel out a = (out ++ squeezedBlocks rateBytes n a, keccakF^[n] a)
  | 0, 0, out, _, _, _, _ => by
    rw [squeezeLoop, squeezedBlocks, List.append_nil, Function.iterate_zero_apply]
  | fuel + 1, 0, out, _, _, _, enough => by
    rw [squeezeLoop, if_neg (by omega), squeezedBlocks, List.append_nil, Function.iterate_zero_apply]
  | fuel + 1, n + 1, out, a, fuelled, missing, enough => by
    have grown : (out ++ a.bytes.take rateBytes).length = out.length + rateBytes := by
      rw [List.length_append, length_take_bytes a hmax]
    have turn (m : Nat) : out.length + (m + 1) * rateBytes = (out ++ a.bytes.take rateBytes).length + m * rateBytes := by
      rw [grown, Nat.add_one_mul]
      omega
    rw [squeezeLoop, if_pos (by simpa using missing 0 (Nat.succ_pos n)),
      squeezeLoop_eq hmax _ _ (Nat.le_of_succ_le_succ fuelled)
        (fun m hm => turn m ▸ missing (m + 1) (Nat.succ_lt_succ hm)) (turn n ▸ enough),
      squeezedBlocks, List.append_assoc, Function.iterate_succ_apply]

/-- R133: a squeeze cuts the blocks of `ceil(L / rate)` states, and leaves the state after them. -/
theorem squeeze_eq (a : Grid) (bits : Nat) {rate : Nat} (whole : rate % 8 = 0) (hmin : 8 ≤ rate) (hmax : rate ≤ 1600) :
    squeeze a bits rate = (truncateBits (squeezedBlocks (rate / 8) ((bits + rate - 1) / rate) a) bits,
      keccakF^[(bits + rate - 1) / rate] a) := by
  obtain ⟨rateBytes, rfl⟩ := Nat.dvd_of_mod_eq_zero whole
  have bytes : 8 * rateBytes / 8 = rateBytes := Nat.mul_div_cancel_left _ (by decide)
  obtain ⟨n, hn⟩ : ∃ n, n = (bits + 8 * rateBytes - 1) / (8 * rateBytes) := ⟨_, rfl⟩
  have total (m : Nat) : 8 * (0 + m * rateBytes) = m * (8 * rateBytes) := by ring
  have missing (m : Nat) (hm : m < n) : 8 * (0 + m * rateBytes) < bits := by
    have := (Nat.le_div_iff_mul_le (by omega)).1 (hn ▸ hm : m + 1 ≤ _)
    rw [Nat.add_one_mul] at this
    rw [total]
    omega
  have enough : bits ≤ 8 * (0 + n * rateBytes) := by
    have rest : (bits + 8 * rateBytes - 1) % (8 * rateBytes) < 8 * rateBytes := Nat.mod_lt _ (by omega)
    have parts := Nat.div_add_mod' (bits + 8 * rateBytes - 1) (8 * rateBytes)
    rw [← hn] at parts
    rw [total]
    omega
  have fuelled : n ≤ bits := by
    by_contra more
    have := missing bits (Nat.not_le.1 more)
    have := Nat.le_mul_of_pos_right bits (show 0 < rateBytes by omega)
    omega
  rw [squeeze, bytes, ← hn, squeezeLoop_eq (by omega) [] a fuelled missing enough, List.nil_append]

/-- R133: the cut keeps the bytes whose bits are all wanted. -/
theorem truncateBits_getElem?_of_whole (out : List Byte) {bits k : Nat} (wanted : 8 * k + 8 ≤ bits) :
    (truncateBits out bits)[k]? = out[k]? := by
  unfold truncateBits ceil8
  split
  · rw [List.getElem?_modify_ne _ _ (by omega), List.getElem?_take_of_lt (by omega)]
  · rw [List.getElem?_take_of_lt (by omega)]

/-- R133: of a last byte that is not whole, the cut keeps the low bits. -/
theorem truncateBits_getElem?_of_cut (out : List Byte) {bits : Nat} (cut : bits % 8 ≠ 0) :
    (truncateBits out bits)[bits / 8]? = out[bits / 8]?.map (· &&& BitVec.ofNat 8 (2 ^ (bits % 8) - 1)) := by
  have last : (bits + 7) / 8 - 1 = bits / 8 := by omega
  unfold truncateBits ceil8
  rw [if_pos cut, last, List.getElem?_modify_eq, List.getElem?_take_of_lt (by omega), Option.map_eq_map]

theorem toNat_and_ofNat_two_pow_sub_one_lt (b : Byte) (n : Nat) :
    (b &&& BitVec.ofNat 8 (2 ^ n - 1)).toNat < 2 ^ n := by
  have mask : (BitVec.ofNat 8 (2 ^ n - 1)).toNat < 2 ^ n := by
    rw [BitVec.toNat_ofNat]
    exact (Nat.mod_le _ _).trans_lt (Nat.sub_one_lt (Nat.two_pow_pos n).ne')
  exact Nat.and_lt_two_pow _ mask

/-- Settles O29: the last byte is one that the cut left its low bits. -/
theorem squeezeOutputLength : Obligations.SqueezeOutputLength := by
  intro a bits rate _ hmin hmax
  have length : (squeeze a bits rate).1.length = (bits + 7) / 8 := squeeze_length a bits hmin hmax
  refine ⟨length, fun b cut last => ?_⟩
  rw [List.getLast?_eq_getElem?, length, show (bits + 7) / 8 - 1 = bits / 8 by omega, squeeze,
    truncateBits_getElem?_of_cut _ cut] at last
  obtain ⟨full, -, rfl⟩ := Option.map_eq_some_iff.1 last
  exact toNat_and_ofNat_two_pow_sub_one_lt full _

/-- A byte that begins before the end of the output lies in a block that the loop copies. -/
theorem block_lt {bits rate i j : Nat} (whole : rate % 8 = 0) (hmin : 8 ≤ rate)
    (wanted : 8 * (i * (rate / 8) + j) < bits) : i < (bits + rate - 1) / rate := by
  have rateBits : 8 * (i * (rate / 8)) = i * rate := by
    rw [Nat.mul_left_comm, Nat.mul_div_cancel' (Nat.dvd_of_mod_eq_zero whole)]
  rw [← Nat.succ_le_iff, Nat.le_div_iff_mul_le (by omega), Nat.succ_mul]
  omega

/-- R133: a whole byte of the output is a leading byte of the state its block comes from. -/
theorem squeeze_getElem?_of_whole (a : Grid) {bits rate i j : Nat} (whole : rate % 8 = 0) (hmin : 8 ≤ rate)
    (hmax : rate ≤ 1600) (hj : j < rate / 8) (wanted : 8 * (i * (rate / 8) + j) + 8 ≤ bits) :
    (squeeze a bits rate).1[i * (rate / 8) + j]? = some ((keccakF^[i] a).byte j) := by
  rw [squeeze_eq a bits whole hmin hmax, truncateBits_getElem?_of_whole _ wanted,
    squeezedBlocks_getElem? (by omega) hj a (block_lt (j := j) whole hmin (by omega))]

/-- Settles O30: a whole byte of an output does not depend on the length asked for. -/
theorem squeezeIsPrefixExtending : Obligations.SqueezeIsPrefixExtending := by
  intro a bits₁ bits₂ rate whole hmin hmax shorter whole₁ whole₂
  have length : (squeeze a bits₁ rate).1.length = (bits₁ + 7) / 8 := squeeze_length a bits₁ hmin hmax
  refine List.prefix_iff_getElem?.2 fun k hk => ?_
  have place : k / (rate / 8) * (rate / 8) + k % (rate / 8) = k := Nat.div_add_mod' _ _
  have same (bits : Nat) (wanted : 8 * k + 8 ≤ bits) :
      (squeeze a bits rate).1[k]? = some ((keccakF^[k / (rate / 8)] a).byte (k % (rate / 8))) := by
    have := squeeze_getElem?_of_whole a whole hmin hmax (Nat.mod_lt k (show 0 < rate / 8 by omega)) (place ▸ wanted)
    rwa [place] at this
  rw [← List.getElem?_eq_getElem hk, same bits₁ (by omega), same bits₂ (by omega)]

/-- Settles O31: the state and the bytes of the copied blocks, and the cut of the last byte. -/
theorem squeezeCopiesSuccessiveStates : Obligations.SqueezeCopiesSuccessiveStates := by
  intro a bits rate whole hmin hmax
  refine ⟨by rw [squeeze_eq a bits whole hmin hmax],
    fun i j hj wanted => squeeze_getElem?_of_whole a whole hmin hmax hj wanted, fun i j hj last cut => ?_⟩
  rw [squeeze_eq a bits whole hmin hmax, last, truncateBits_getElem?_of_cut _ cut, ← last,
    squeezedBlocks_getElem? (by omega) hj a (block_lt (j := j) whole hmin (by omega)), Option.map_some]

/-! ### The blocks of an absorption -/

/-- The state after the first `n` blocks of a padded string (R132). -/
def absorbedBlocks (padded : List Byte) (rateBytes n : Nat) : Grid :=
  (List.range n).foldl (fun a i => absorbBlock a (padBlock padded rateBytes i)) Grid.zero

theorem absorbedBlocks_succ (padded : List Byte) (rateBytes n : Nat) :
    absorbedBlocks padded rateBytes (n + 1)
      = absorbBlock (absorbedBlocks padded rateBytes n) (padBlock padded rateBytes n) := by
  rw [absorbedBlocks, List.range_succ, List.foldl_concat, absorbedBlocks]

/-- R132, R135 (d): the padded message has one block more than the message has full ones. -/
theorem absorb_eq (msg : List Byte) {cap : Nat} (ds : Byte) (hcap : cap ≤ 1592) :
    absorb msg cap ds
      = absorbedBlocks (pad msg ((1600 - cap) / 8) ds) ((1600 - cap) / 8) (msg.length / ((1600 - cap) / 8) + 1) := by
  have positive : 1 ≤ (1600 - cap) / 8 := by omega
  rw [absorb, pad_length msg ds positive, Nat.mul_div_cancel _ positive, absorbedBlocks]

/-- The bytes of a block, zero-extended to 200 (R132). -/
theorem padBlock_getElem? {padded : List Byte} {rateBytes i : Nat} (full : (i + 1) * rateBytes ≤ padded.length)
    {j : Nat} (hj : j < 200) :
    (padBlock padded rateBytes i)[j]? = if j < rateBytes then padded[i * rateBytes + j]? else some 0 := by
  rw [Nat.add_one_mul] at full
  have length : ((padded.drop (i * rateBytes)).take rateBytes).length = rateBytes := by
    rw [List.length_take, List.length_drop]
    omega
  rw [padBlock]
  split
  next inRate =>
    rw [List.getElem?_append_left (by rwa [length]), List.getElem?_take_of_lt inRate, List.getElem?_drop]
  next inCapacity =>
    rw [List.getElem?_append_right (by omega), List.getElem?_replicate, if_pos (by omega)]

theorem padBlock_length {padded : List Byte} {rateBytes i : Nat} (full : (i + 1) * rateBytes ≤ padded.length)
    (hmax : rateBytes ≤ 200) : (padBlock padded rateBytes i).length = 200 := by
  rw [Nat.add_one_mul] at full
  rw [padBlock, List.length_append, List.length_take, List.length_drop, List.length_replicate]
  omega

/-- A block of 200 bytes is XORed into the byte view byte by byte. -/
theorem ofBytes_xorBytes_byte (a : Grid) {block : List Byte} (length : block.length = 200) {j : Nat} (hj : j < 200)
    {b : Byte} (hb : block[j]? = some b) : (Grid.ofBytes (xorBytes a.bytes block)).byte j = a.byte j ^^^ b := by
  have filled : (xorBytes a.bytes block).length = 200 := by
    rw [xorBytes, List.length_zipWith, bytes_length, length, Nat.min_self]
  apply Option.some_injective
  rw [ofBytes_byte filled hj, xorBytes, List.getElem?_zipWith, bytes_getElem?, if_pos hj, hb]

/-- Settles O60: the states between the blocks are those of the loop, and XOR with the zeros of the extension keeps the
bytes of the capacity. -/
theorem absorbXorsEachPaddedBlock : Obligations.AbsorbXorsEachPaddedBlock := by
  intro msg cap rateBytes ds _ hcap rate
  have hmax : rateBytes ≤ 200 := by omega
  have positive : 1 ≤ rateBytes := by omega
  obtain ⟨padded, hpadded⟩ : ∃ padded, padded = pad msg rateBytes ds := ⟨_, rfl⟩
  have length : padded.length = (msg.length / rateBytes + 1) * rateBytes := hpadded ▸ pad_length msg ds positive
  refine ⟨absorbedBlocks padded rateBytes, zero_lane, fun i hi => ?_, by rw [absorb_eq msg ds hcap, ← rate, hpadded]⟩
  have full : (i + 1) * rateBytes ≤ padded.length := length ▸ Nat.mul_le_mul_right rateBytes hi
  have block := padBlock_length full hmax
  refine ⟨_, absorbedBlocks_succ padded rateBytes i, fun j hj => ?_, fun j hj hlast => ?_⟩
  · have inside : i * rateBytes + j < padded.length := by
      rw [Nat.add_one_mul] at full
      omega
    refine ⟨padded[i * rateBytes + j], by rw [← hpadded, List.getElem?_eq_getElem inside],
      ofBytes_xorBytes_byte _ block (by omega) ?_⟩
    rw [padBlock_getElem? full (by omega), if_pos hj, List.getElem?_eq_getElem inside]
  · rw [ofBytes_xorBytes_byte _ block hlast (b := 0) (by rw [padBlock_getElem? full hlast, if_neg (Nat.not_lt.2 hj)])]
    exact BitVec.xor_zero

/-! ### The commands -/

theorem exec_absorb (cap : Nat) (ds : Byte) (s : State) : exec (.absorb cap ds) s = execAbsorb cap ds s := rfl

theorem exec_squeeze (rate : Nat) (s : State) : exec (.squeeze rate) s = execSqueeze rate s := rfl

/-- R136: the parameters ABSORB refuses. -/
theorem absorbBadParam_eq_true_iff {cap : Nat} {ds : Byte} :
    absorbBadParam cap ds = true ↔ cap % 8 ≠ 0 ∨ 1592 < cap ∨ ds.toNat < 0x01 ∨ 0x7F < ds.toNat := by
  simp only [absorbBadParam, Bool.or_eq_true, decide_eq_true_eq, or_assoc]

/-- R137: the parameters SQUEEZE refuses. -/
theorem squeezeBadParam_eq_true_iff {rate : Nat} :
    squeezeBadParam rate = true ↔ rate % 8 ≠ 0 ∨ rate < 8 ∨ 1600 < rate := by
  simp only [squeezeBadParam, Bool.or_eq_true, decide_eq_true_eq, or_assoc]

/-- R136: the answer of ABSORB where both checks pass. -/
theorem exec_absorb_of_legal {cap : Nat} {ds : Byte} {s : State} (whole : cap % 8 = 0) (hcap : cap ≤ 1592)
    (dsMin : 0x01 ≤ ds.toNat) (dsMax : ds.toNat ≤ 0x7F) (fits : s.ilen.toNat ≤ s.cfg.ibufSize) :
    exec (.absorb cap ds) s = .next { s with st := absorb s.msg cap ds, result := 0 } := by
  rw [exec_absorb]
  rcases execAbsorb_cases cap ds s with ⟨bad, -⟩ | ⟨-, long, -⟩ | ⟨-, -, done⟩
  · have := absorbBadParam_eq_true_iff.1 bad
    omega
  · exact absurd fits (Nat.not_le.2 (of_decide_eq_true long))
  · exact done

/-- Settles O32: the state ABSORB leaves holds nothing of the old `ST`, and the message is not read from it. -/
theorem absorbCompletes : Obligations.AbsorbCompletes := by
  intro cap ds s whole hcap dsMin dsMax fits
  have done := exec_absorb_of_legal whole hcap dsMin dsMax fits
  refine ⟨done, fun a => ?_⟩
  rw [done, exec_absorb_of_legal (s := { s with st := a }) whole hcap dsMin dsMax fits]
  rfl

/-- Settles O33: the check of the parameters comes first, and no fault is recorded before it. -/
theorem badParametersRaiseBadParam : Obligations.BadParametersRaiseBadParam := by
  intro s noFault
  refine ⟨fun cap ds bad => ?_, fun rate bad => ?_⟩
  · rw [exec_absorb, execAbsorb, if_pos (absorbBadParam_eq_true_iff.2 bad), raiseFault_of_noFault _ _ noFault]
    rfl
  · rw [exec_squeeze, execSqueeze, if_pos (squeezeBadParam_eq_true_iff.2 bad), raiseFault_of_noFault _ _ noFault]
    rfl

end Sys2Proof.Sponge
end

section
/-! HASH, KDF and MAC complete with the sponge of the message in `OBUF` and nothing left in `ST` (R150 to R154). -/

namespace Sys2Proof.XofCommands

open Sys2Proof Sys2Proof.Machine Sys2Proof.Invariant Sys2Proof.SqueezeCommand

/-- R134, R135 (a): with R6's capacities the sponge gives `ceil8(L)` bytes. -/
theorem sponge_length (msg : List Byte) {cap : Nat} (ds : Byte) (bits : Nat) (hcap : cap ≤ 1592) :
    (sponge msg cap ds bits).length = ceil8 bits :=
  squeeze_length _ bits (by omega) (by omega)

/-- R151: `t` is `s` with `out` in `OBUF[0:OLEN]`, `ST` zeroed and RESULT `OK`, the rest as it was. -/
def Delivers (out : List Byte) (s t : State) : Prop :=
  t.olen.toNat = out.length
    ∧ (∀ j, j < out.length → out[j]? = some (t.obuf.read j))
    ∧ (∀ j, out.length ≤ j → t.obuf.read j = s.obuf.read j)
    ∧ (∀ x y, t.st.lane x y = 0)
    ∧ t.result = 0
    ∧ t = { s with st := t.st, obuf := t.obuf, olen := t.olen, result := t.result }

/-- R151: `OLEN` can hold the length of every output that fits `OBUF`. -/
theorem xofCommand_delivers (ds : Byte) {bits : Nat} {s : State} (sizes : s.cfg.SizesOk)
    (fits : ceil8 bits ≤ s.cfg.obufSize) :
    Delivers (sponge s.msg s.cfg.capXof ds bits) s (xofCommand ds bits s) := by
  obtain ⟨-, hcap, -, -, -, -, -, -, -, -, -, -, -, -, -, obufMax⟩ := sizes
  have length := sponge_length s.msg ds bits hcap
  obtain ⟨written, kept⟩ := writeBytes_read s.obuf (sponge s.msg s.cfg.capXof ds bits)
  have olen : (xofCommand ds bits s).olen.toNat = (sponge s.msg s.cfg.capXof ds bits).length := by
    rw [xofCommand_olen, BitVec.toNat_ofNat, Nat.mod_eq_of_lt (by omega)]
  exact ⟨olen, written, kept, zero_lane, rfl, rfl⟩

theorem messageTooLong_ne_true {s : State} (fits : s.ilen.toNat ≤ s.cfg.ibufSize) : s.messageTooLong ≠ true :=
  fun long => absurd fits (Nat.not_le.2 (of_decide_eq_true long))

/-- R152: the answer of HASH where the message fits. -/
theorem exec_hash_of_fits {s : State} (fits : s.ilen.toNat ≤ s.cfg.ibufSize) :
    exec .hash s = .next (xofCommand s.cfg.dsHash s.cfg.hashBits s) := by
  rcases execHash_cases s with ⟨long, -⟩ | ⟨-, done⟩
  · exact absurd long (messageTooLong_ne_true fits)
  · exact done

/-- R153: the answer of KDF where the message and the output fit. -/
theorem exec_kdf_of_fits {s : State} (fits : s.ilen.toNat ≤ s.cfg.ibufSize)
    (outputFits : ceil8 s.obits.toNat ≤ s.cfg.obufSize) :
    exec .kdf s = .next (xofCommand s.cfg.dsKdf s.obits.toNat s) := by
  rcases execKdf_cases s with ⟨long | long, -⟩ | ⟨-, -, done⟩
  · exact absurd long (messageTooLong_ne_true fits)
  · exact absurd outputFits (Nat.not_le.2 (of_decide_eq_true long))
  · exact done

/-- R154: the answer of MAC where the message fits. -/
theorem exec_mac_of_fits {s : State} (fits : s.ilen.toNat ≤ s.cfg.ibufSize) :
    exec .mac s = .next (xofCommand s.cfg.dsMac s.cfg.tagBits s) := by
  rcases execMac_cases s with ⟨long, -⟩ | ⟨-, done⟩
  · exact absurd long (messageTooLong_ne_true fits)
  · exact done

/-- Settles O36: each command is `xofCommand` with its own suffix and length, whose output fits `OBUF`: of HASH and MAC
by the configuration, of KDF by the check. -/
theorem hashKdfMacComplete : Obligations.HashKdfMacComplete := by
  intro s sizes fits i out command
  have ⟨_, hcap, _, _, _, _, _, _, _, _, _, hashFits, tagFits, _⟩ := sizes
  rcases command with ⟨rfl, rfl⟩ | ⟨rfl, outputFits, rfl⟩ | ⟨rfl, rfl⟩
  · obtain ⟨olen, delivered⟩ := xofCommand_delivers s.cfg.dsHash sizes hashFits
    exact ⟨_, exec_hash_of_fits fits, olen, fun _ => ⟨sponge_length _ _ _ hcap, rfl⟩, Instr.noConfusion,
      Instr.noConfusion, delivered⟩
  · obtain ⟨olen, delivered⟩ := xofCommand_delivers s.cfg.dsKdf sizes outputFits
    exact ⟨_, exec_kdf_of_fits fits outputFits, olen, Instr.noConfusion,
      fun _ => ⟨sponge_length _ _ _ hcap, rfl⟩, Instr.noConfusion, delivered⟩
  · obtain ⟨olen, delivered⟩ := xofCommand_delivers s.cfg.dsMac sizes tagFits
    exact ⟨_, exec_mac_of_fits fits, olen, Instr.noConfusion, Instr.noConfusion,
      fun _ => ⟨sponge_length _ _ _ hcap, rfl⟩, delivered⟩

end Sys2Proof.XofCommands
end

section
/-! The derived nonce: a search for the first nonzero attempt (R224). -/

namespace Sys2Proof.DerivedNonce

open Sys2Proof Sys2Proof.Machine

/-- A search over `0 … n - 1` answers with the first index at which `f` answers. -/
theorem findSome?_range_eq_some_iff {α : Type} (f : Nat → Option α) (k : α) (n : Nat) :
    (List.range n).findSome? f = some k ↔ ∃ c, c < n ∧ f c = some k ∧ ∀ c', c' < c → f c' = none := by
  induction n with
  | zero => simp
  | succ n ih =>
    rw [List.range_succ, List.findSome?_append, Option.or_eq_some_iff, ih, List.findSome?_eq_none_iff,
      List.findSome?_singleton]
    constructor
    · rintro (⟨c, hc, found, first⟩ | ⟨before, found⟩)
      · exact ⟨c, Nat.lt_succ_of_lt hc, found, first⟩
      · exact ⟨n, Nat.lt_succ_self n, found, fun c' hc' => before c' (List.mem_range.2 hc')⟩
    · rintro ⟨c, hc, found, first⟩
      rcases Nat.lt_succ_iff_lt_or_eq.1 hc with earlier | rfl
      · exact .inl ⟨c, earlier, found, first⟩
      · exact .inr ⟨fun c' hc' => first c' (List.mem_range.1 hc'), found⟩

/-- R224: an attempt is passed over exactly if it is 0. -/
theorem attempt_eq_none_iff {k : Nat} : (if k = 0 then none else some k) = none ↔ k = 0 :=
  ⟨fun passed => by_contra fun nonzero => Option.some_ne_none k ((if_neg nonzero).symm.trans passed),
    fun zero => if_pos zero⟩

/-- R224: an attempt is taken as it is if it is not 0. -/
theorem attempt_eq_some_iff {a k : Nat} : (if a = 0 then none else some a) = some k ↔ k ≠ 0 ∧ a = k := by
  rw [Option.ite_none_left_eq_some, Option.some_inj]
  constructor <;> rintro ⟨nonzero, rfl⟩ <;> exact ⟨nonzero, rfl⟩

theorem deriveNonce_eq_none_iff {cfg : Config} {dk : Nat} {msg : List Byte} :
    deriveNonce cfg dk msg = none ↔ ∀ c, c < 256 → nonceAttempt cfg dk msg c = 0 :=
  List.findSome?_eq_none_iff.trans
    ⟨fun passed c hc => attempt_eq_none_iff.1 (passed c (List.mem_range.2 hc)),
      fun zero c hc => attempt_eq_none_iff.2 (zero c (List.mem_range.1 hc))⟩

theorem deriveNonce_eq_some_iff {cfg : Config} {dk : Nat} {msg : List Byte} {k : Nat} :
    deriveNonce cfg dk msg = some k ↔
      k ≠ 0 ∧ ∃ c, c < 256 ∧ nonceAttempt cfg dk msg c = k ∧ ∀ c', c' < c → nonceAttempt cfg dk msg c' = 0 := by
  refine (findSome?_range_eq_some_iff _ k 256).trans ⟨?_, ?_⟩
  · rintro ⟨c, hc, found, first⟩
    obtain ⟨nonzero, attempt⟩ := attempt_eq_some_iff.1 found
    exact ⟨nonzero, c, hc, attempt, fun c' hc' => attempt_eq_none_iff.1 (first c' hc')⟩
  · rintro ⟨nonzero, c, hc, attempt, first⟩
    exact ⟨c, hc, attempt_eq_some_iff.2 ⟨nonzero, attempt⟩, fun c' hc' => attempt_eq_none_iff.2 (first c' hc')⟩

/-- R150, R224: the counter byte ends the context, and the key and the message are the key material. -/
theorem nonceAttempt_toNat (cfg : Config) (dk : Nat) (msg : List Byte) (c : Byte) :
    nonceAttempt cfg dk msg c.toNat
      = leValue (kdfFn cfg (enc dk ++ msg) (cfg.ctxNonce ++ [c]) cfg.nonceBits) % cfg.r := by
  rw [nonceAttempt, kdfFn, BitVec.ofNat_toNat, BitVec.setWidth_eq, List.append_assoc (cfg.ctxNonce ++ [c])]

/-- Settles O54: the search for a nonce read as the first nonzero attempt, and the attempt as the KDF of R150. -/
theorem nonceIsTheFirstNonzeroAttempt : Obligations.NonceIsTheFirstNonzeroAttempt :=
  fun cfg dk msg =>
    ⟨fun _ => deriveNonce_eq_some_iff, deriveNonce_eq_none_iff, nonceAttempt_toNat cfg dk msg⟩

end Sys2Proof.DerivedNonce
end

section
/-! The laws of the field: each is proved in `ZMod p` and carried back to the reduced numbers (R171 to R173, R178). -/

namespace Sys2Proof.FieldLaws

open Sys2Proof Sys2Proof.Machine Sys2Proof.FieldFacts Sys2Proof.FieldCommands

/-! ### Differences over the integers -/

theorem subp_eq (cfg : Config) (a b : Nat) : subp cfg a b = (((a : Int) - b) % cfg.p).toNat := rfl

theorem subp_of_le (cfg : Config) {a b : Nat} (le : b ≤ a) : subp cfg a b = (a - b) % cfg.p := by
  rw [subp_eq, ← Nat.cast_sub le]
  exact Int.toNat_natCast _

/-- A multiple of the modulus can be lent to the minuend. -/
theorem subp_add_p (cfg : Config) (a b : Nat) : subp cfg (a + cfg.p) b = subp cfg a b := by
  rw [subp_eq, subp_eq, Nat.cast_add, add_sub_right_comm, Int.add_emod_right]

/-- R171: `negp(a)` is the difference `p - a`. -/
theorem negp_eq_subp (cfg : Config) (a : Nat) : negp cfg a = subp cfg cfg.p a := rfl

theorem subp_lt {cfg : Config} (positive : 0 < cfg.p) (a b : Nat) : subp cfg a b < cfg.p :=
  (Int.toNat_lt_of_ne_zero positive.ne').2 (Int.emod_lt_of_pos _ (Int.natCast_pos.2 positive))

theorem subp_eq_ite {cfg : Config} {a b : Nat} (ha : a < cfg.p) (hb : b < cfg.p) :
    subp cfg a b = if b ≤ a then a - b else a + cfg.p - b := by
  by_cases le : b ≤ a
  · rw [if_pos le, subp_of_le cfg le, Nat.mod_eq_of_lt (by omega)]
  · rw [if_neg le, ← subp_add_p, subp_of_le cfg (by omega), Nat.mod_eq_of_lt (by omega)]

theorem negp_eq_ite {cfg : Config} {a : Nat} (ha : a < cfg.p) : negp cfg a = if a = 0 then 0 else cfg.p - a := by
  rw [negp_eq_subp, subp_of_le cfg ha.le]
  by_cases zero : a = 0
  · rw [if_pos zero, zero, Nat.sub_zero, Nat.mod_self]
  · rw [if_neg zero, Nat.mod_eq_of_lt (by omega)]

/-- Settles O37: a difference that would be negative is raised by the modulus. -/
theorem fieldAddSubNegFormulas : Obligations.FieldAddSubNegFormulas := by
  intro cfg a b ha hb
  have positive : 0 < cfg.p := Nat.zero_lt_of_lt ha
  exact ⟨rfl, Nat.mod_lt _ positive, subp_eq_ite ha hb, subp_lt positive a b, negp_eq_ite ha, subp_lt positive _ a⟩

/-! ### Reduced numbers are equal if they are equal in the field -/

/-- Every round of the loop reduces its result. -/
theorem powModLoop_lt {m : Nat} (positive : 0 < m) (a e i : Nat) {acc : Nat} (reduced : acc < m) :
    powModLoop m a e i acc < m := by
  induction i generalizing acc with
  | zero => exact reduced
  | succ i ih =>
    apply ih
    cases e.testBit i with
    | true => exact Nat.mod_lt _ positive
    | false => exact Nat.mod_lt _ positive

section
variable {cfg : Config} [Fact cfg.p.Prime]

theorem addp_lt (a b : Nat) : addp cfg a b < cfg.p := Nat.mod_lt _ (Fact.out : cfg.p.Prime).pos

theorem mulp_lt (a b : Nat) : mulp cfg a b < cfg.p := Nat.mod_lt _ (Fact.out : cfg.p.Prime).pos

theorem invp_lt {a : Nat} (nonzero : (a : ZMod cfg.p) ≠ 0) : invp cfg a < cfg.p := by
  have prime : cfg.p.Prime := Fact.out
  have remainder : ¬ a % cfg.p = 0 := by rwa [← Nat.dvd_iff_mod_eq_zero, ← ZMod.natCast_eq_zero_iff]
  exact (if_neg remainder).trans_lt (powModLoop_lt prime.pos _ _ _ prime.one_lt)

theorem natCast_negp (a : Nat) : (negp cfg a : ZMod cfg.p) = -a := by
  rw [negp_eq_subp, natCast_subp, ZMod.natCast_self, zero_sub]

/-- R170: the numbers below p stand for the field's elements, each for one. -/
theorem eq_of_natCast_eq {a b : Nat} (ha : a < cfg.p) (hb : b < cfg.p) (h : (a : ZMod cfg.p) = b) : a = b :=
  CharP.natCast_injOn_Iio (ZMod cfg.p) cfg.p ha hb h

theorem natCast_ne_zero_of_lt {a : Nat} (nonzero : a ≠ 0) (ha : a < cfg.p) : (a : ZMod cfg.p) ≠ 0 := fun zero =>
  nonzero (Nat.eq_zero_of_dvd_of_lt ((ZMod.natCast_eq_zero_iff _ _).1 zero) ha)

theorem ne_zero_of_natCast_ne_zero {a : Nat} (nonzero : (a : ZMod cfg.p) ≠ 0) : a ≠ 0 := fun zero =>
  nonzero (by rw [zero, Nat.cast_zero])

/-! ### The inverse -/

/-- R173: the inverse of a nonzero element is not zero. -/
theorem natCast_invp_ne_zero {a : Nat} (nonzero : (a : ZMod cfg.p) ≠ 0) : (invp cfg a : ZMod cfg.p) ≠ 0 := by
  rw [natCast_invp cfg nonzero]
  exact inv_ne_zero nonzero

theorem mulp_eq_one_iff {a b : Nat} : mulp cfg a b = 1 ↔ (a * b : ZMod cfg.p) = 1 := by
  rw [← natCast_mulp]
  constructor
  · intro product
    rw [product, Nat.cast_one]
  · intro product
    exact eq_of_natCast_eq (mulp_lt a b) (Fact.out : cfg.p.Prime).one_lt (product.trans Nat.cast_one.symm)

theorem mulp_invp {a : Nat} (nonzero : (a : ZMod cfg.p) ≠ 0) : mulp cfg a (invp cfg a) = 1 := by
  rw [mulp_eq_one_iff, natCast_invp cfg nonzero]
  exact mul_inv_cancel₀ nonzero

theorem eq_invp_of_mulp_eq_one {a b : Nat} (nonzero : (a : ZMod cfg.p) ≠ 0) (hb : b < cfg.p)
    (product : mulp cfg a b = 1) : b = invp cfg a := by
  apply eq_of_natCast_eq hb (invp_lt nonzero)
  rw [natCast_invp cfg nonzero]
  exact eq_inv_of_mul_eq_one_right (mulp_eq_one_iff.1 product)

/-- R178: taking the inverse twice, a number below p comes back. -/
theorem invp_invp {a : Nat} (nonzero : (a : ZMod cfg.p) ≠ 0) (ha : a < cfg.p) : invp cfg (invp cfg a) = a := by
  have inverse := natCast_invp_ne_zero nonzero
  apply eq_of_natCast_eq (invp_lt inverse) ha
  rw [natCast_invp cfg inverse, natCast_invp cfg nonzero, inv_inv]

/-- R178: the inverse of a product. -/
theorem invp_mulp {a b : Nat} (ha : (a : ZMod cfg.p) ≠ 0) (hb : (b : ZMod cfg.p) ≠ 0) :
    invp cfg (mulp cfg a b) = mulp cfg (invp cfg a) (invp cfg b) := by
  have product : (mulp cfg a b : ZMod cfg.p) ≠ 0 := by
    rw [natCast_mulp]
    exact mul_ne_zero ha hb
  apply eq_of_natCast_eq (invp_lt product) (mulp_lt _ _)
  rw [natCast_invp cfg product, natCast_mulp, natCast_mulp, natCast_invp cfg ha, natCast_invp cfg hb, mul_inv]

/-! ### The ring laws of R178 -/

theorem addp_assoc (a b c : Nat) : addp cfg (addp cfg a b) c = addp cfg a (addp cfg b c) := by
  apply eq_of_natCast_eq (addp_lt _ _) (addp_lt _ _)
  rw [natCast_addp, natCast_addp, natCast_addp, natCast_addp, add_assoc]

theorem mulp_assoc (a b c : Nat) : mulp cfg (mulp cfg a b) c = mulp cfg a (mulp cfg b c) := by
  apply eq_of_natCast_eq (mulp_lt _ _) (mulp_lt _ _)
  rw [natCast_mulp, natCast_mulp, natCast_mulp, natCast_mulp, mul_assoc]

theorem mulp_addp (a b c : Nat) : mulp cfg a (addp cfg b c) = addp cfg (mulp cfg a b) (mulp cfg a c) := by
  apply eq_of_natCast_eq (mulp_lt _ _) (addp_lt _ _)
  rw [natCast_mulp, natCast_addp, natCast_addp, natCast_mulp, natCast_mulp, mul_add]

theorem addp_negp (a : Nat) : addp cfg a (negp cfg a) = 0 := by
  apply eq_of_natCast_eq (addp_lt _ _) (Fact.out : cfg.p.Prime).pos
  rw [natCast_addp, natCast_negp, add_neg_cancel, Nat.cast_zero]

theorem subp_eq_addp_negp (a b : Nat) : subp cfg a b = addp cfg a (negp cfg b) := by
  apply eq_of_natCast_eq (subp_lt (Fact.out : cfg.p.Prime).pos a b) (addp_lt _ _)
  rw [natCast_subp, natCast_addp, natCast_negp, sub_eq_add_neg]

end

theorem addp_comm (cfg : Config) (a b : Nat) : addp cfg a b = addp cfg b a :=
  congrArg (· % cfg.p) (add_comm a b)

theorem mulp_comm (cfg : Config) (a b : Nat) : mulp cfg a b = mulp cfg b a :=
  congrArg (· % cfg.p) (mul_comm a b)

theorem mulp_one {cfg : Config} {a : Nat} (ha : a < cfg.p) : mulp cfg a 1 = a :=
  (congrArg (· % cfg.p) (mul_one a)).trans (Nat.mod_eq_of_lt ha)

theorem mulp_zero (cfg : Config) (a : Nat) : mulp cfg a 0 = 0 := Nat.zero_mod _

/-! ### The statements about p -/

/-- Settles O38: `invp` is the inverse in the field, and only one number below p stands for it. -/
theorem inverseExistsAndIsUnique : Obligations.InverseExistsAndIsUnique := by
  intro cfg a hp positive ha
  have : Fact cfg.p.Prime := ⟨hp ▸ e521P_prime⟩
  have nonzero : (a : ZMod cfg.p) ≠ 0 := natCast_ne_zero_of_lt (Nat.ne_of_gt positive) ha
  have inverse : invp cfg a ≠ 0 := ne_zero_of_natCast_ne_zero (natCast_invp_ne_zero nonzero)
  exact ⟨⟨Nat.one_le_iff_ne_zero.2 inverse, invp_lt nonzero, mulp_invp nonzero⟩,
    fun b _ hb product => eq_invp_of_mulp_eq_one nonzero hb product⟩

/-- Settles O39: the laws of a commutative ring, and for nonzero operands those of the inverse. -/
theorem fieldLaws : Obligations.FieldLaws := by
  intro cfg a b c hp ha hb _
  have : Fact cfg.p.Prime := ⟨hp ▸ e521P_prime⟩
  refine ⟨addp_comm cfg a b, addp_assoc a b c, mulp_comm cfg a b, mulp_assoc a b c, mulp_addp a b c, addp_negp a,
    subp_eq_addp_negp a b, mulp_one ha, mulp_zero cfg a, fun nonzeroA => ?_, fun nonzeroA nonzeroB => ?_⟩
  · have nonzero := natCast_ne_zero_of_lt nonzeroA ha
    exact ⟨mulp_invp nonzero, invp_invp nonzero ha⟩
  · exact invp_mulp (natCast_ne_zero_of_lt nonzeroA ha) (natCast_ne_zero_of_lt nonzeroB hb)

/-! ### FINV -/

/-- R177: what FINV answers for an operand that is not 0 modulo p. -/
theorem exec_finv_of_ne_zero {rd ra : Reg} {s : State} (nonzero : s.fieldOperand ra ≠ 0) :
    exec (.finv rd ra) s = .next (finish .ok (s.setReg rd (invp s.cfg (s.fieldOperand ra)))) := by
  rcases execFinv_cases rd ra s with ⟨zero, -⟩ | ⟨-, done⟩
  · exact absurd zero nonzero
  · exact done

/-- R177: what FINV answers for an operand that is 0 modulo p. -/
theorem exec_finv_of_eq_zero {rd ra : Reg} {s : State} (zero : s.fieldOperand ra = 0) :
    exec (.finv rd ra) s = .next (finish .invalidScalar s) := by
  rcases execFinv_cases rd ra s with ⟨-, rejected⟩ | ⟨nonzero, -⟩
  · exact rejected
  · exact absurd zero nonzero

/-- Settles O41: the register holds the whole inverse of its operand's remainder, which O38 describes. -/
theorem finvCompletes : Obligations.FinvCompletes := by
  intro rd ra s hp
  have positive : 0 < s.cfg.p := hp ▸ e521P_prime.pos
  refine ⟨fun nonzero => ?_, exec_finv_of_eq_zero⟩
  obtain ⟨⟨one_le, lt, product⟩, -⟩ := inverseExistsAndIsUnique s.cfg (s.fieldOperand ra) hp
    (Nat.one_le_iff_ne_zero.2 nonzero) (Nat.mod_lt _ positive)
  have written : (finish .ok (s.setReg rd (invp s.cfg (s.fieldOperand ra)))).reg rd
      = invp s.cfg (s.fieldOperand ra) := reg_setReg_same (hp ▸ lt) rd
  refine ⟨_, exec_finv_of_ne_zero nonzero, ?_, ?_, ?_, fun i hi => reg_setReg_other hi _, rfl⟩
  · rwa [written]
  · rwa [written]
  · rw [written, ← Nat.mod_mul_mod]
    exact product

end Sys2Proof.FieldLaws
end

section
/-! The addition of R195 as a law on the points of the curve: its sum is the one pair of field elements that solves the
formula, and double-and-add (R197) stays on the curve. -/

namespace Sys2Proof.PointLaws

open Sys2Proof Sys2Proof.Machine Sys2Proof.FieldFacts Sys2Proof.HomogeneousPoints Sys2Proof.EdwardsLaw
  Sys2Proof.FieldCommands Sys2Proof.FieldLaws

theorem identity_x : Point.identity.x = 0 := rfl
theorem identity_y : Point.identity.y = 1 := rfl

theorem ptNeg_x (cfg : Config) (a : Point) : (ptNeg cfg a).x = negp cfg a.x := rfl
theorem ptNeg_y (cfg : Config) (a : Point) : (ptNeg cfg a).y = a.y := rfl

section
variable {cfg : Config} [Fact cfg.p.Prime]

/-- R195: with R191's constants neither denominator vanishes on the curve. -/
theorem denominators_ne_zero_of_onCurve (hp : cfg.p = Config.e521P) (hd : cfg.d = Config.e521D) {a b : Point}
    {t : ZMod cfg.p} (ht : t = cfg.d * (a.x * b.x * (a.y * b.y))) (ha : onCurve cfg a = true)
    (hb : onCurve cfg b = true) : 1 + t ≠ 0 ∧ 1 - t ≠ 0 := by
  have odd : cfg.p ≠ 2 := hp ▸ e521P_ne_two
  have nonsquare : ¬ IsSquare (cfg.d : ZMod cfg.p) :=
    not_isSquare_of_powMod odd (by rw [hp, hd]; exact powMod_e521D)
  rw [onCurve_iff] at ha hb
  exact denominators_ne_zero (term_sq_ne_one (two_ne_zero_of_odd odd) nonsquare ha hb ht)

/-- Where neither denominator vanishes, only one pair of field elements solves the formula. -/
theorem ptAdd_eq_of_solves {a b c : Point} {t : ZMod cfg.p} (ht : t = cfg.d * (a.x * b.x * (a.y * b.y)))
    (plus : 1 + t ≠ 0) (minus : 1 - t ≠ 0) (hx : c.x < cfg.p) (hy : c.y < cfg.p)
    (solvesX : (c.x : ZMod cfg.p) * (1 + t) = a.x * b.y + a.y * b.x)
    (solvesY : (c.y : ZMod cfg.p) * (1 - t) = a.y * b.y - a.x * b.x) : ptAdd cfg a b = c := by
  obtain ⟨ltX, ltY⟩ := ptAdd_lt (Fact.out : cfg.p.Prime).pos a b
  obtain ⟨sumX, sumY⟩ := natCast_ptAdd ht plus minus
  have sameX : (ptAdd cfg a b).x = c.x :=
    eq_of_natCast_eq ltX hx (by rw [sumX, ← solvesX, mul_div_cancel_right₀ _ plus])
  have sameY : (ptAdd cfg a b).y = c.y :=
    eq_of_natCast_eq ltY hy (by rw [sumY, ← solvesY, mul_div_cancel_right₀ _ minus])
  exact congrArg₂ Point.mk sameX sameY

/-- R190, R193: the check is the curve's equation in the field. -/
theorem onCurve_iff_equation (a : Point) : onCurve cfg a = true ↔
    (a.x : ZMod cfg.p) ^ 2 + (a.y : ZMod cfg.p) ^ 2 = 1 + cfg.d * ((a.x : ZMod cfg.p) ^ 2 * (a.y : ZMod cfg.p) ^ 2) :=
  onCurve_iff cfg a

/-- R194: the identity is a point of every curve. -/
theorem identity_valid : Point.identity.Valid cfg := by
  have prime : cfg.p.Prime := Fact.out
  refine ⟨prime.pos, prime.one_lt, (onCurve_iff_equation _).2 ?_⟩
  rw [identity_x, identity_y, Nat.cast_zero, Nat.cast_one]
  ring

/-- R202: adding the identity on the right, both denominators are 1 and the point comes back. -/
theorem ptAdd_identity {a : Point} (hx : a.x < cfg.p) (hy : a.y < cfg.p) : ptAdd cfg a Point.identity = a := by
  have x0 : (Point.identity.x : ZMod cfg.p) = 0 := Nat.cast_zero
  have y1 : (Point.identity.y : ZMod cfg.p) = 1 := Nat.cast_one
  have term : (0 : ZMod cfg.p) = cfg.d * (a.x * Point.identity.x * (a.y * Point.identity.y)) := by
    rw [x0]
    ring
  have plus : (1 : ZMod cfg.p) + 0 ≠ 0 := by rw [add_zero]; exact one_ne_zero
  have minus : (1 : ZMod cfg.p) - 0 ≠ 0 := by rw [sub_zero]; exact one_ne_zero
  refine ptAdd_eq_of_solves term plus minus hx hy ?_ ?_
  · rw [x0, y1]
    ring
  · rw [x0, y1]
    ring

/-- R194: the negative of a point of the curve is one. -/
theorem ptNeg_valid {a : Point} (ha : a.Valid cfg) : (ptNeg cfg a).Valid cfg := by
  obtain ⟨-, ltY, curve⟩ := ha
  refine ⟨subp_lt (Fact.out : cfg.p.Prime).pos _ _, ltY, ?_⟩
  rw [onCurve_iff_equation] at curve ⊢
  rwa [ptNeg_x, ptNeg_y, natCast_negp, neg_sq]

end

/-! ### The sum of two points of the curve -/

/-- Settles O42: completeness keeps the denominators from 0, so that the quotients solve the formula. -/
theorem pointAddSolvesTheFormula : Obligations.PointAddSolvesTheFormula := by
  rintro cfg a b hp hd ⟨-, -, ha⟩ ⟨-, -, hb⟩ t ht
  have : Fact cfg.p.Prime := ⟨hp ▸ e521P_prime⟩
  have term : (t : ZMod cfg.p) = cfg.d * (a.x * b.x * (a.y * b.y)) := by
    rw [ht]
    push_cast
    ring
  obtain ⟨plus, minus⟩ := denominators_ne_zero_of_onCurve hp hd term ha hb
  obtain ⟨sumX, sumY⟩ := natCast_ptAdd term plus minus
  obtain ⟨ltX, ltY⟩ := ptAdd_lt (Fact.out : cfg.p.Prime).pos a b
  refine ⟨fun zero => plus ?_, fun zero => minus ?_, ltX, ltY, ?_, ?_⟩
  · exact_mod_cast (ZMod.natCast_eq_zero_iff _ _).2 (Nat.dvd_of_mod_eq_zero zero)
  · exact_mod_cast (ZMod.intCast_zmod_eq_zero_iff_dvd _ _).2 (Int.dvd_of_emod_eq_zero zero)
  · rw [← ZMod.natCast_eq_natCast_iff']
    push_cast
    rw [sumX, div_mul_cancel₀ _ plus]
  · rw [← ZMod.intCast_eq_intCast_iff']
    push_cast
    rw [sumY, div_mul_cancel₀ _ minus]

/-- Settles O43: the equation holds of the quotients, and both are reduced. -/
theorem pointAddStaysOnTheCurve : Obligations.PointAddStaysOnTheCurve := by
  rintro cfg a b hp hd ⟨-, -, ha⟩ ⟨-, -, hb⟩
  obtain ⟨ltX, ltY⟩ := ptAdd_lt (hp ▸ e521P_prime.pos : 0 < cfg.p) a b
  exact ⟨ltX, ltY, ptAdd_onCurve hp hd ha hb⟩

/-- R202: the formula is symmetric in its operands, whatever the configuration. -/
theorem ptAdd_comm (cfg : Config) (a b : Point) : ptAdd cfg a b = ptAdd cfg b a := by
  have term : addTerm cfg a b = addTerm cfg b a := by
    rw [addTerm, addTerm, mulp_comm cfg a.x, mulp_comm cfg a.y]
  rw [ptAdd, ptAdd, term, addp_comm cfg (mulp cfg a.x b.y), mulp_comm cfg a.y b.x, mulp_comm cfg a.x b.y,
    mulp_comm cfg a.y b.y, mulp_comm cfg a.x b.x]

/-- Settles O49: the formula is symmetric, and with (0, 1) its denominators are 1. -/
theorem pointAddCommutesWithNeutral : Obligations.PointAddCommutesWithNeutral := by
  rintro cfg a b hp ⟨ltX, ltY, -⟩ -
  have : Fact cfg.p.Prime := ⟨hp ▸ e521P_prime⟩
  have neutral := ptAdd_identity ltX ltY
  exact ⟨ptAdd_comm cfg a b, neutral, (ptAdd_comm cfg Point.identity a).trans neutral⟩

/-- Settles O50: the numerator of x3 cancels, and those of y3, `x² + y²` and `1 + d·x²·y²`, are equal on the curve. -/
theorem pointAndNegativeCancel : Obligations.PointAndNegativeCancel := by
  intro cfg a hp hd ha
  have : Fact cfg.p.Prime := ⟨hp ▸ e521P_prime⟩
  have negative : (ptNeg cfg a).Valid cfg := ptNeg_valid ha
  have ⟨_, _, onPoint⟩ := ha
  have ⟨_, _, onNegative⟩ := negative
  obtain ⟨plus, minus⟩ := denominators_ne_zero_of_onCurve hp hd rfl onPoint onNegative
  obtain ⟨ltX, ltY, -⟩ := identity_valid (cfg := cfg)
  have equation := (onCurve_iff_equation a).1 onPoint
  refine ⟨negative, ptAdd_eq_of_solves rfl plus minus ltX ltY ?_ ?_⟩
  · rw [identity_x, ptNeg_x, ptNeg_y, natCast_negp, Nat.cast_zero]
    ring
  · rw [identity_y, ptNeg_x, ptNeg_y, natCast_negp, Nat.cast_one]
    linear_combination -equation

/-! ### Multiples -/

/-- One turn of R197's loop: the accumulator doubled, and the point added where the scalar's bit is 1. -/
def turn (cfg : Config) (base : Point) (bit : Bool) (acc : Point) : Point :=
  if bit then ptAdd cfg (ptAdd cfg acc acc) base else ptAdd cfg acc acc

theorem doubleAndAdd_succ (cfg : Config) (k : Nat) (base : Point) (i : Nat) (acc : Point) :
    doubleAndAdd cfg k base (i + 1) acc = doubleAndAdd cfg k base i (turn cfg base (k.testBit i) acc) := rfl

/-- The loop's last turn is that of the lowest bit; the turns before are those of half the scalar. -/
theorem doubleAndAdd_half (cfg : Config) (k : Nat) (base : Point) (i : Nat) (acc : Point) :
    doubleAndAdd cfg k base (i + 1) acc = turn cfg base (k.testBit 0) (doubleAndAdd cfg (k / 2) base i acc) := by
  induction i generalizing acc with
  | zero => rfl
  | succ i ih => rw [doubleAndAdd_succ, ih, doubleAndAdd_succ cfg (k / 2), Nat.testBit_succ]

theorem bitLength_half {k : Nat} (nonzero : k ≠ 0) : bitLength k = bitLength (k / 2) + 1 := by
  rw [bitLength, bitLength, if_neg nonzero, Nat.log2_def]
  by_cases two_le : 2 ≤ k
  · rw [if_pos two_le, if_neg (by omega)]
  · rw [if_neg two_le, if_pos (by omega)]

/-- A property that every turn keeps holds after the loop. -/
theorem doubleAndAdd_keeps {cfg : Config} {base : Point} {P : Point → Prop}
    (keeps : ∀ bit acc, P acc → P (turn cfg base bit acc)) (k i : Nat) {acc : Point} (start : P acc) :
    P (doubleAndAdd cfg k base i acc) := by
  induction i generalizing acc with
  | zero => exact start
  | succ i ih => exact ih (keeps _ _ start)

theorem turn_valid {cfg : Config} (hp : cfg.p = Config.e521P) (hd : cfg.d = Config.e521D) {base acc : Point}
    (hbase : base.Valid cfg) (bit : Bool) (hacc : acc.Valid cfg) : (turn cfg base bit acc).Valid cfg := by
  have doubled := pointAddStaysOnTheCurve cfg acc acc hp hd hacc hacc
  cases bit with
  | true => exact pointAddStaysOnTheCurve cfg _ base hp hd doubled hbase
  | false => exact doubled

/-- R197: every multiple of a point of the curve is one, the scalar reduced or not. -/
theorem ptMulUnreduced_valid {cfg : Config} (hp : cfg.p = Config.e521P) (hd : cfg.d = Config.e521D) {base : Point}
    (hbase : base.Valid cfg) (k : Nat) : (ptMulUnreduced cfg k base).Valid cfg := by
  have : Fact cfg.p.Prime := ⟨hp ▸ e521P_prime⟩
  exact doubleAndAdd_keeps (fun bit _ => turn_valid hp hd hbase bit) k _ identity_valid

theorem ptMulUnreduced_zero (cfg : Config) (base : Point) : ptMulUnreduced cfg 0 base = Point.identity := rfl

/-- R197: a multiple is the multiple by half the scalar, and one more turn; of the scalar 0 too, whose loop has none. -/
theorem ptMulUnreduced_half {cfg : Config} [Fact cfg.p.Prime] (k : Nat) (base : Point) :
    ptMulUnreduced cfg k base = turn cfg base (k.testBit 0) (ptMulUnreduced cfg (k / 2) base) := by
  by_cases zero : k = 0
  · obtain ⟨ltX, ltY, -⟩ := identity_valid (cfg := cfg)
    rw [zero]
    exact (ptAdd_identity ltX ltY).symm
  · rw [ptMulUnreduced, bitLength_half zero]
    exact doubleAndAdd_half cfg k base _ _

theorem ptMul_of_lt {cfg : Config} {k : Nat} (lt : k < cfg.r) (base : Point) :
    ptMul cfg k base = ptMulUnreduced cfg k base :=
  congrArg (ptMulUnreduced cfg · base) (Nat.mod_eq_of_lt lt)

/-- R197: scalars that are equal modulo r give one multiple. -/
theorem ptMul_congr {cfg : Config} {k l : Nat} (h : k % cfg.r = l % cfg.r) (base : Point) :
    ptMul cfg k base = ptMul cfg l base :=
  congrArg (ptMulUnreduced cfg · base) h

/-- Below r no multiple on the way is reduced. -/
theorem ptMul_half {cfg : Config} [Fact cfg.p.Prime] {k : Nat} (lt : k < cfg.r) (base : Point) :
    ptMul cfg k base = turn cfg base (k.testBit 0) (ptMul cfg (k / 2) base) := by
  rw [ptMul_of_lt lt, ptMul_of_lt ((Nat.div_le_self k 2).trans_lt lt)]
  exact ptMulUnreduced_half k base

/-- R197, R202: doubled scalars below r, and those with one more, from the two turns of the loop. -/
theorem ptMul_doubled {cfg : Config} [Fact cfg.p.Prime] (k : Nat) (base : Point) :
    (2 * k < cfg.r → ptMul cfg (2 * k) base = ptAdd cfg (ptMul cfg k base) (ptMul cfg k base))
      ∧ (2 * k + 1 < cfg.r →
          ptMul cfg (2 * k + 1) base = ptAdd cfg (ptAdd cfg (ptMul cfg k base) (ptMul cfg k base)) base) := by
  constructor
  · intro lt
    have half : 2 * k / 2 = k := Nat.mul_div_cancel_left k two_pos
    rw [ptMul_half lt, half, Nat.testBit_zero, Nat.mul_mod_right]
    rfl
  · intro lt
    have half : (2 * k + 1) / 2 = k := by omega
    have odd : (2 * k + 1) % 2 = 1 := by omega
    rw [ptMul_half lt, half, Nat.testBit_zero, odd]
    rfl

theorem e521R_gt_one : 1 < Config.e521R := by
  unfold Config.e521R
  omega

/-- Settles O44: the scalar is reduced first, the loop's last turn gives the doubled scalars, and every turn stays on the
curve. -/
theorem pointMultiplesReduceTheScalar : Obligations.PointMultiplesReduceTheScalar := by
  rintro cfg a ⟨hp, hd, hr, -⟩ ha
  have : Fact cfg.p.Prime := ⟨hp ▸ e521P_prime⟩
  have one_lt : 1 < cfg.r := hr ▸ e521R_gt_one
  have zero : ptMul cfg 0 a = Point.identity := (ptMul_of_lt (by omega) a).trans (ptMulUnreduced_zero cfg a)
  have order : ptMul cfg cfg.r a = Point.identity := (ptMul_congr (Nat.mod_self _) a).trans zero
  have one : ptMul cfg 1 a = a := by
    obtain ⟨ltX, ltY, -⟩ := ha
    obtain ⟨oneX, oneY, -⟩ := identity_valid (cfg := cfg)
    calc ptMul cfg 1 a = ptAdd cfg (ptAdd cfg Point.identity Point.identity) a := by
          rw [← zero]; exact (ptMul_doubled 0 a).2 one_lt
      _ = a := by rw [ptAdd_identity oneX oneY, ptAdd_comm, ptAdd_identity ltX ltY]
  exact ⟨zero, order, one, fun k => ⟨ptMul_congr (Nat.add_mod_right _ _) a, ptMulUnreduced_valid hp hd ha _⟩,
    fun k => (ptMul_doubled k a).1, fun k => (ptMul_doubled k a).2⟩

end Sys2Proof.PointLaws
end

section
/-! The point commands PDBL and PMUL, and the rejection of malformed operands (R198, R200, R201). -/

namespace Sys2Proof.PointCommands

open Sys2Proof Sys2Proof.Machine Sys2Proof.FieldFacts Sys2Proof.FieldCommands Sys2Proof.PointLaws

theorem exec_padd (pd pa pb : PointReg) (s : State) : exec (.padd pd pa pb) s = execPadd pd pa pb s := rfl

theorem exec_pdbl (pd pa : PointReg) (s : State) : exec (.pdbl pd pa) s = execPdbl pd pa s := rfl

/-! ### What `get_point` answers -/

theorem coordinates_eq (s : State) (j : PointReg) :
    s.coordinates j = ⟨s.reg (pointX j) % s.cfg.p, s.reg (pointY j) % s.cfg.p⟩ := rfl

theorem getPoint_of_onCurve {s : State} {j : PointReg} (h : onCurve s.cfg (s.coordinates j) = true) :
    s.getPoint j = some (s.coordinates j) := if_pos h

theorem getPoint_ne_some_of_offCurve {s : State} {j : PointReg} (h : onCurve s.cfg (s.coordinates j) = false)
    (a : Point) : s.getPoint j ≠ some a := by
  have rejected : s.getPoint j = none := if_neg (ne_true_of_eq_false h)
  rw [rejected]
  exact (Option.some_ne_none a).symm

/-- R198: an operand that passes the check is reduced, and so a point of the curve. -/
theorem coordinates_valid {s : State} {j : PointReg} (positive : 0 < s.cfg.p)
    (h : onCurve s.cfg (s.coordinates j) = true) : (s.coordinates j).Valid s.cfg :=
  ⟨Nat.mod_lt _ positive, Nat.mod_lt _ positive, h⟩

/-! ### Malformed operands -/

/-- Settles O48: a failed check answers none, and on none every command finishes at once. -/
theorem malformedPointsAreRejected : Obligations.MalformedPointsAreRejected := by
  intro s
  refine ⟨fun pd pa pb off => ?_, fun pd pa off => ?_, fun pd rk pa off => ?_⟩
  · rcases execPadd_cases pd pa pb s with ⟨-, rejected⟩ | ⟨a, b, foundA, foundB, -⟩
    · exact rejected
    · rcases off with offA | offB
      · exact absurd foundA (getPoint_ne_some_of_offCurve offA a)
      · exact absurd foundB (getPoint_ne_some_of_offCurve offB b)
  · rcases execPdbl_cases pd pa s with ⟨-, rejected⟩ | ⟨a, found, -⟩
    · exact rejected
    · exact absurd found (getPoint_ne_some_of_offCurve off a)
  · rcases execPmul_cases pd rk pa s with ⟨-, rejected⟩ | ⟨a, found, -⟩
    · exact rejected
    · exact absurd found (getPoint_ne_some_of_offCurve off a)

/-! ### PDBL -/

/-- R200: PDBL is PADD with the operand named twice. -/
theorem exec_pdbl_eq_exec_padd (pd pa : PointReg) (s : State) : exec (.pdbl pd pa) s = exec (.padd pd pa pa) s := by
  rw [exec_pdbl, exec_padd, execPdbl, execPadd]
  cases s.getPoint pa with
  | none => rfl
  | some a => rfl

/-- Settles O46: the completion is that of PADD. -/
theorem pdblCompletes : Obligations.PdblCompletes := by
  intro pd pa s constants
  refine ⟨fun h => ?_, exec_pdbl_eq_exec_padd pd pa s⟩
  rw [exec_pdbl_eq_exec_padd]
  exact paddCompletes pd pa pa s constants h h

/-! ### PMUL -/

/-- R201: the answer of PMUL where its operand passes the check. -/
theorem exec_pmul_of_onCurve (pd : PointReg) (rk : Reg) {pa : PointReg} {s : State}
    (h : onCurve s.cfg (s.coordinates pa) = true) :
    exec (.pmul pd rk pa) s = .next (finish .ok (s.setPoint pd (ptMul s.cfg (s.reg rk) (s.coordinates pa)))) := by
  have found := getPoint_of_onCurve h
  rcases execPmul_cases pd rk pa s with ⟨rejected, -⟩ | ⟨a, operand, done⟩
  · exact absurd (found.symm.trans rejected) (Option.some_ne_none _)
  · rw [← Option.some.inj (found.symm.trans operand)] at done
    exact done

/-- R22: the coordinates of `P[j]` after a point of field elements is written to it. -/
theorem coordinates_setPoint {s : State} (hp : s.cfg.p = Config.e521P) {a : Point} (hx : a.x < s.cfg.p)
    (hy : a.y < s.cfg.p) (j : PointReg) : (s.setPoint j a).coordinates j = a := by
  obtain ⟨regX, regY⟩ := setPoint_point (s := s) (hp ▸ hx) (hp ▸ hy) j
  rw [coordinates_eq, regX, regY, setPoint_cfg, Nat.mod_eq_of_lt hx, Nat.mod_eq_of_lt hy]

/-- Settles O47: the loop reduces the scalar itself, and its result is a point of the curve. -/
theorem pmulCompletes : Obligations.PmulCompletes := by
  rintro pd rk pa s ⟨hp, hd, -, -⟩ h
  have positive : 0 < s.cfg.p := hp ▸ e521P_prime.pos
  have reduced : ptMul s.cfg (s.reg rk % s.cfg.r) (s.coordinates pa) = ptMul s.cfg (s.reg rk) (s.coordinates pa) :=
    ptMul_congr (Nat.mod_mod _ _) _
  rw [reduced]
  have done := exec_pmul_of_onCurve pd rk h
  obtain ⟨ltX, ltY, curve⟩ :=
    ptMulUnreduced_valid hp hd (coordinates_valid positive h) (s.reg rk % s.cfg.r)
  obtain ⟨regX, regY⟩ := setPoint_point (s := s) (hp ▸ ltX) (hp ▸ ltY) pd
  refine ⟨_, done, congrArg₂ Point.mk regX regY, ?_, fun i hx hy => setPoint_other hx hy _, rfl⟩
  exact (congrArg (onCurve s.cfg) (coordinates_setPoint hp ltX ltY pd)).trans curve

end Sys2Proof.PointCommands
end

section
/-! A signature verifies under its key's point (R229): the response makes VERIFY's point the nonce's multiple of G. -/

namespace Sys2Proof.SignVerify

open Sys2Proof Sys2Proof.Machine Sys2Proof.XofCommands Sys2Proof.FieldCommands Sys2Proof.PointLaws
  Sys2Proof.PointCommands

/-! ### The response equation -/

/-- R225: the response is reduced. -/
theorem responseScalar_lt {cfg : Config} (positive : 0 < cfg.r) (k h dk : Nat) : responseScalar cfg k h dk < cfg.r :=
  (Int.toNat_lt_of_ne_zero positive.ne').2 (Int.emod_lt_of_pos _ (Int.natCast_pos.2 positive))

/-- R225: `s + h·dk` is the nonce modulo r. -/
theorem responseScalar_add_mod {cfg : Config} (positive : 0 < cfg.r) (k h dk : Nat) :
    (responseScalar cfg k h dk + h * dk) % cfg.r = k % cfg.r := by
  have value : ((responseScalar cfg k h dk : Nat) : Int) = ((k : Int) - h * dk) % cfg.r :=
    Int.toNat_of_nonneg (Int.emod_nonneg _ (Int.natCast_ne_zero.2 positive.ne'))
  apply Int.natCast_inj.1
  rw [Int.natCast_mod, Nat.cast_add, Nat.cast_mul, value, Int.emod_add_emod, sub_add_cancel, ← Int.natCast_mod]

/-- R229: with the response of nonce `k`, `s·G + h·(dk·G)` is `k·G`. -/
theorem commitment_response {cfg : Config} (law : GeneratorLaw cfg) (positive : 0 < cfg.r) (k h dk : Nat) :
    commitment cfg h (responseScalar cfg k h dk) (ptMul cfg dk (generator cfg)) = ptMul cfg k (generator cfg) := by
  obtain ⟨-, add, mul⟩ := law
  rw [commitment, mul, add]
  exact ptMul_congr (responseScalar_add_mod positive k h dk) _

theorem challenge_lt {cfg : Config} (positive : 0 < cfg.r) (a : Point) (msg : List Byte) :
    challenge cfg a msg < cfg.r := Nat.mod_lt _ positive

/-! ### What a completed signature wrote -/

theorem exec_sign (rh rs rd : Reg) (s : State) : exec (.sign rh rs rd) s = execSign rh rs rd s := rfl

theorem exec_signX (rh rs rd rk : Reg) (s : State) : exec (.signX rh rs rd rk) s = execSignX rh rs rd rk s := rfl

theorem result_of_invalidScalar {s t : State} (ended : (.next (finish .invalidScalar s) : Answer) = .next t) :
    t.result ≠ 0 := by
  cases ended
  exact (by decide : ResultCode.invalidScalar.number ≠ 0)

/-- R226, R227: SIGN.X or SIGN ends with `OK` only where it wrote the signature of some nonce. -/
theorem signature_written {rh rs rd rk : Reg} {i : Instr} {s t : State} (fits : s.ilen.toNat ≤ s.cfg.ibufSize)
    (command : i = .signX rh rs rd rk ∨ i = .sign rh rs rd) (run : exec i s = .next t) (ok : t.result = 0) :
    ∃ k, t = writeSignature rh rs (signCore s.cfg (s.reg rd) k s.msg) s := by
  have short := messageTooLong_ne_true fits
  rcases command with rfl | rfl
  · rw [exec_signX] at run
    rcases execSignX_cases rh rs rd rk s with ⟨long, -⟩ | ⟨-, -, refused⟩ | ⟨-, -, -, done⟩
    · exact absurd long short
    · exact absurd ok (result_of_invalidScalar (refused.symm.trans run))
    · exact ⟨_, Host.Outcome.next.inj (run.symm.trans done)⟩
  · rw [exec_sign] at run
    rcases execSign_cases rh rs rd s with ⟨long, -⟩ | ⟨-, -, refused⟩ | ⟨-, -, -, refused⟩ | ⟨k, -, -, -, done⟩
    · exact absurd long short
    · exact absurd ok (result_of_invalidScalar (refused.symm.trans run))
    · exact absurd ok (result_of_invalidScalar (refused.symm.trans run))
    · exact ⟨k, Host.Outcome.next.inj (run.symm.trans done)⟩

theorem reg_writeSignature (rh rs : Reg) (sig : Nat × Nat) (s : State) (i : Reg) :
    (writeSignature rh rs sig s).reg i = ((s.setReg rh sig.1).setReg rs sig.2).reg i := rfl

theorem reg_writeSignature_other {rh rs i : Reg} (hh : i ≠ rh) (hs : i ≠ rs) (sig : Nat × Nat) (s : State) :
    (writeSignature rh rs sig s).reg i = s.reg i :=
  (reg_setReg_other hs _).trans (reg_setReg_other hh _)

/-- A point register that the signature does not touch keeps its point. -/
theorem coordinates_writeSignature {rh rs : Reg} {j : PointReg} (hx : rh ≠ pointX j) (hy : rh ≠ pointY j)
    (sx : rs ≠ pointX j) (sy : rs ≠ pointY j) (sig : Nat × Nat) (s : State) :
    (writeSignature rh rs sig s).coordinates j = s.coordinates j := by
  rw [coordinates_eq, reg_writeSignature_other hx.symm sx.symm, reg_writeSignature_other hy.symm sy.symm,
    writeSignature_cfg, coordinates_eq]

/-- R22: scalars below an r that fits a register are held whole, one in each of two registers. -/
theorem reg_writeSignature_pair {rh rs : Reg} (distinct : rh ≠ rs) {h resp : Nat} {s : State}
    (fits : s.cfg.r ≤ 2 ^ 528) (h_lt : h < s.cfg.r) (resp_lt : resp < s.cfg.r) :
    (writeSignature rh rs (h, resp) s).reg rh = h ∧ (writeSignature rh rs (h, resp) s).reg rs = resp := by
  rw [reg_writeSignature, reg_writeSignature, reg_setReg_other distinct, reg_setReg, if_pos rfl, reg_setReg, if_pos rfl]
  exact ⟨Nat.mod_eq_of_lt (h_lt.trans_le fits), Nat.mod_eq_of_lt (resp_lt.trans_le fits)⟩

/-! ### VERIFY -/

/-- R228: VERIFY accepts where all its checks pass and the recomputed challenge is h. -/
theorem exec_verify_accepts {rh rs : Reg} {pv : PointReg} {s : State} (fits : s.ilen.toNat ≤ s.cfg.ibufSize)
    (h_lt : s.reg rh < s.cfg.r) (s_lt : s.reg rs < s.cfg.r) (key : onCurve s.cfg (s.coordinates pv) = true)
    (same : challenge s.cfg (commitment s.cfg (s.reg rh) (s.reg rs) (s.coordinates pv)) s.msg = s.reg rh) :
    exec (.verify rh rs pv) s = .next (finish .ok s.clearSt) := by
  have short := messageTooLong_ne_true fits
  have inRange : ¬ (s.cfg.r ≤ s.checkedScalar rh ∨ s.cfg.r ≤ s.checkedScalar rs) :=
    not_or.2 ⟨Nat.not_le.2 h_lt, Nat.not_le.2 s_lt⟩
  change execVerify rh rs pv s = _
  rw [execVerify, if_neg short, if_neg inRange, getPoint_of_onCurve key]
  exact if_pos same

/-- Settles O57: VERIFY finds h and s in their registers and the key's point in its own, and its point is the nonce's. -/
theorem signThenVerifyAccepts : Obligations.SignThenVerifyAccepts := by
  intro rh rs rd rk pv i s t law fits528 fits _ inRange key distinct hx hy sx sy command run ok
  have positive : 0 < s.cfg.r := Nat.zero_lt_of_lt inRange
  obtain ⟨k, rfl⟩ := signature_written fits command run ok
  obtain ⟨h, hdef⟩ : ∃ h, h = challenge s.cfg (ptMul s.cfg k (generator s.cfg)) s.msg := ⟨_, rfl⟩
  have signature : signCore s.cfg (s.reg rd) k s.msg = (h, responseScalar s.cfg k h (s.reg rd)) := by
    rw [hdef]
    rfl
  rw [signature]
  have h_lt : h < s.cfg.r := hdef ▸ challenge_lt positive _ _
  have s_lt := responseScalar_lt positive k h (s.reg rd)
  obtain ⟨regH, regS⟩ := reg_writeSignature_pair distinct fits528 h_lt s_lt
  have kept := (coordinates_writeSignature hx hy sx sy (h, responseScalar s.cfg k h (s.reg rd)) s).trans key
  have ⟨valid, _, _⟩ := law
  obtain ⟨-, -, keyOnCurve⟩ := valid (s.reg rd)
  refine ⟨_, exec_verify_accepts fits ?_ ?_ ?_ ?_, rfl⟩
  · rwa [regH]
  · rwa [regS]
  · rwa [kept, writeSignature_cfg]
  · rw [regH, regS, kept, writeSignature_cfg, commitment_response law positive, hdef]
    rfl

end Sys2Proof.SignVerify
end

section
/-! Encryption to a point and back (R251, R255, R256, R259, R260): both sides reach the same secret, and `open` undoes
`seal`. -/

namespace Sys2Proof.KeyProtocol

open Sys2Proof Sys2Proof.Machine Sys2Proof.DerivedNonce Sys2Proof.XofCommands Sys2Proof.PointLaws

/-! ### `seal` and `open` -/

theorem xorBytes_length {a b : List Byte} (h : b.length = a.length) : (xorBytes a b).length = a.length := by
  rw [xorBytes, List.length_zipWith, h, Nat.min_self]

/-- A stream at least as long as the message, XORed twice, gives the message back. -/
theorem xorBytes_cancel {a b : List Byte} (h : a.length ≤ b.length) : xorBytes (xorBytes a b) b = a := by
  induction a generalizing b with
  | nil => rfl
  | cons x xs ih =>
    cases b with
    | nil => exact absurd h (Nat.not_succ_le_zero _)
    | cons y ys =>
      have byte : x ^^^ y ^^^ y = x := by rw [BitVec.xor_assoc, BitVec.xor_self, BitVec.xor_zero]
      exact congrArg₂ List.cons byte (ih (Nat.le_of_succ_le_succ h))

/-- R253: a KDF of whole bytes gives as many as asked for. -/
theorem kdfBytes_length {cfg : Config} (sizes : cfg.SizesOk) (keyMaterial context : List Byte) (nbytes : Nat) :
    (kdfBytes cfg keyMaterial context nbytes).length = nbytes := by
  obtain ⟨-, hcap, -⟩ := sizes
  rw [kdfBytes, kdfFn, sponge_length _ _ _ hcap, ceil8]
  omega

theorem sealMessage_ciphertext (hp : HostParams) (cfg : Config) (secret message : List Byte) :
    (sealMessage hp cfg secret message).1
      = xorBytes message (kdfBytes cfg (sealKeys hp cfg secret).1 hp.ctxStream message.length) := rfl

theorem sealMessage_tag (hp : HostParams) (cfg : Config) (secret message : List Byte) :
    (sealMessage hp cfg secret message).2
      = macFn cfg (sealKeys hp cfg secret).2 (sealMessage hp cfg secret message).1 hp.ctxTag := rfl

/-- R255: the ciphertext is as long as the message. -/
theorem sealMessage_length {cfg : Config} (sizes : cfg.SizesOk) (hp : HostParams) (secret message : List Byte) :
    (sealMessage hp cfg secret message).1.length = message.length := by
  rw [sealMessage_ciphertext, xorBytes_length (kdfBytes_length sizes _ _ _)]

/-- R254, R255: under a tag that matches, `open` removes the stream. -/
theorem openMessage_of_tag {hp : HostParams} {cfg : Config} {secret c t : List Byte}
    (tag : macFn cfg (sealKeys hp cfg secret).2 c hp.ctxTag = t) :
    openMessage hp cfg secret c t
      = (xorBytes c (kdfBytes cfg (sealKeys hp cfg secret).1 hp.ctxStream c.length), true) :=
  if_pos (beq_iff_eq.2 tag)

/-- R255: `open` undoes `seal` where both sides have one secret. -/
theorem openMessage_sealMessage {cfg : Config} (sizes : cfg.SizesOk) (hp : HostParams) (message : List Byte)
    {secret secret' : List Byte} (shared : secret' = secret) :
    openMessage hp cfg secret' (sealMessage hp cfg secret message).1 (sealMessage hp cfg secret message).2
      = (message, true) := by
  rw [shared, openMessage_of_tag (sealMessage_tag hp cfg secret message).symm, sealMessage_length sizes,
    sealMessage_ciphertext, xorBytes_cancel (kdfBytes_length sizes _ _ _).ge]

/-! ### Key pairs -/

/-- R252, R256: the scalar found is the nonzero value of one of the attempts. -/
theorem keygenScalar_eq_some {hp : HostParams} {cfg : Config} {password : List Byte} {k : Nat}
    (found : keygenScalar hp cfg password = some k) :
    k ≠ 0 ∧ ∃ j, j < hp.attempts ∧ keygenAttempt hp cfg password j = k := by
  obtain ⟨j, hj, attempt, -⟩ := (findSome?_range_eq_some_iff _ k hp.attempts).1 found
  obtain ⟨nonzero, value⟩ := attempt_eq_some_iff.1 attempt
  exact ⟨nonzero, j, hj, value⟩

/-- R256: a generated pair is that of the scalar found. -/
theorem genKeypair_eq_some {hp : HostParams} {cfg : Config} {now : Nat} {password : List Byte} {owner : String}
    {kp : KeyPair} (generated : genKeypair hp cfg now password owner = some kp) :
    ∃ k, keygenScalar hp cfg password = some k ∧ kp = ⟨owner, k, ptMul cfg k (generator cfg), now⟩ := by
  obtain ⟨k, found, pair⟩ := Option.map_eq_some_iff.1 generated
  exact ⟨k, found, pair.symm⟩

/-! ### The validated constructor -/

theorem getE521Point_of_valid {cfg : Config} {a : Point} (valid : a.Valid cfg) : getE521Point cfg a.x a.y = .ok a := by
  obtain ⟨ltX, ltY, curve⟩ := valid
  rw [getE521Point, Nat.mod_eq_of_lt ltX, Nat.mod_eq_of_lt ltY]
  exact if_pos curve

theorem getE521Point_of_offCurve {cfg : Config} {x y : Nat} (off : onCurve cfg ⟨x % cfg.p, y % cfg.p⟩ = false) :
    getE521Point cfg x y = .error (.kind .malformedPoint) := if_neg (ne_true_of_eq_false off)

/-! ### The ephemeral scalar -/

theorem ephemeralScalar_cons (cfg : Config) (draw : Nat) (rest : List Nat) :
    ephemeralScalar cfg (draw :: rest)
      = if draw % cfg.r = 0 then ephemeralScalar cfg rest else .ok (draw % cfg.r) := rfl

/-- R259: draws that are 0 modulo r are passed over. -/
theorem ephemeralScalar_zeros_append {cfg : Config} {zeros : List Nat} (zero : ∀ z ∈ zeros, z % cfg.r = 0)
    (draws : List Nat) : ephemeralScalar cfg (zeros ++ draws) = ephemeralScalar cfg draws := by
  induction zeros with
  | nil => rfl
  | cons z zs ih =>
    obtain ⟨head, tail⟩ := List.forall_mem_cons.1 zero
    rw [List.cons_append, ephemeralScalar_cons, if_pos head, ih tail]

/-- R259: the first draw that is not 0 modulo r is taken, reduced. -/
theorem ephemeralScalar_first {cfg : Config} {zeros : List Nat} (zero : ∀ z ∈ zeros, z % cfg.r = 0) {k : Nat}
    (nonzero : k % cfg.r ≠ 0) (rest : List Nat) : ephemeralScalar cfg (zeros ++ k :: rest) = .ok (k % cfg.r) := by
  rw [ephemeralScalar_zeros_append zero, ephemeralScalar_cons, if_neg nonzero]

theorem ephemeralScalar_none {cfg : Config} {zeros : List Nat} (zero : ∀ z ∈ zeros, z % cfg.r = 0) :
    ephemeralScalar cfg zeros = .error .drawAgain := by
  have passed := ephemeralScalar_zeros_append zero []
  rwa [List.append_nil] at passed

/-! ### Encryption and decryption -/

/-- R259: the scalar is drawn first, then the public key is checked; either can fail the call. -/
theorem encryptWithKey_eq_bind (hp : HostParams) (cfg : Config) (draws : List Nat) (pub : Point) (message : List Byte) :
    encryptWithKey hp cfg draws pub message
      = (ephemeralScalar cfg draws).bind fun k => (getE521Point cfg pub.x pub.y).map fun v =>
          ⟨ptMul cfg k (generator cfg), (sealMessage hp cfg (hp.serialize (ptMul cfg k v).x) message).1,
            (sealMessage hp cfg (hp.serialize (ptMul cfg k v).x) message).2⟩ := by
  unfold encryptWithKey
  cases ephemeralScalar cfg draws with
  | error e => rfl
  | ok k => rfl

/-- R260: the cryptogram's point is checked, and gives the secret of `open`. -/
theorem decryptWithKey_eq_map (hp : HostParams) (cfg : Config) (dk : Nat) (g : ECCryptogram) :
    decryptWithKey hp cfg dk g
      = (getE521Point cfg g.z.x g.z.y).map fun z => openMessage hp cfg (hp.serialize (ptMul cfg dk z).x) g.c g.t := rfl

/-- R202, R260: both sides reach the same point, `k·(dk·G) = dk·(k·G)`. -/
theorem shared_point {cfg : Config} (law : GeneratorLaw cfg) (k dk : Nat) :
    ptMul cfg k (ptMul cfg dk (generator cfg)) = ptMul cfg dk (ptMul cfg k (generator cfg)) := by
  obtain ⟨-, -, mul⟩ := law
  rw [mul, mul, Nat.mul_comm]

/-- R260: decryption gives the message back, whatever scalar the host drew. -/
theorem decryptWithKey_encryptWithKey {hp : HostParams} {cfg : Config} (law : GeneratorLaw cfg) (sizes : cfg.SizesOk)
    {draws : List Nat} {k : Nat} (scalar : ephemeralScalar cfg draws = .ok k) (dk : Nat) (message : List Byte) :
    ∃ g, encryptWithKey hp cfg draws (ptMul cfg dk (generator cfg)) message = .ok g
      ∧ decryptWithKey hp cfg dk g = .ok (message, true)
      ∧ g.z = ptMul cfg k (generator cfg) ∧ g.c.length = message.length := by
  have ⟨valid, _, _⟩ := law
  have secret : hp.serialize (ptMul cfg dk (ptMul cfg k (generator cfg))).x
      = hp.serialize (ptMul cfg k (ptMul cfg dk (generator cfg))).x := by rw [shared_point law]
  have encrypted := encryptWithKey_eq_bind hp cfg draws (ptMul cfg dk (generator cfg)) message
  rw [scalar, getE521Point_of_valid (valid dk)] at encrypted
  refine ⟨_, encrypted, ?_, rfl, sealMessage_length sizes hp _ _⟩
  rw [decryptWithKey_eq_map, getE521Point_of_valid (valid k)]
  exact congrArg Except.ok (openMessage_sealMessage sizes hp message secret)

/-- Settles O59: the key pair is that of an attempt, and each protocol clause is the equation of its case. -/
theorem keyDecryptionInverts : Obligations.KeyDecryptionInverts := by
  intro hp cfg law sizes
  refine ⟨?keyPair, ?roundTrip, ?malformedKey, ?noDraw, ?malformedCryptogram⟩
  case keyPair =>
    intro now password owner kp positive generated
    obtain ⟨k, found, rfl⟩ := genKeypair_eq_some generated
    obtain ⟨nonzero, j, hj, attempt⟩ := keygenScalar_eq_some found
    have lt : k < cfg.r := attempt ▸ Nat.mod_lt _ positive
    exact ⟨⟨Nat.pos_of_ne_zero nonzero, lt, rfl⟩, rfl, rfl, j, hj, attempt.symm⟩
  case roundTrip =>
    intro zeros rest k dk message zero nonzero
    obtain ⟨g, encrypted, decrypted, point, length⟩ :=
      decryptWithKey_encryptWithKey (hp := hp) law sizes (ephemeralScalar_first zero nonzero rest) dk message
    have reduced : g.z = ptMul cfg k (generator cfg) := point.trans (ptMul_congr (Nat.mod_mod _ _) _)
    have ⟨valid, _, _⟩ := law
    obtain ⟨-, -, curve⟩ := valid k
    exact ⟨g, encrypted, decrypted, reduced, reduced ▸ curve, length⟩
  case malformedKey =>
    intro zeros rest k pub message zero nonzero off
    rw [encryptWithKey_eq_bind, ephemeralScalar_first zero nonzero rest, getE521Point_of_offCurve off]
    rfl
  case noDraw =>
    intro zeros pub message zero
    rw [encryptWithKey_eq_bind, ephemeralScalar_none zero]
    rfl
  case malformedCryptogram =>
    intro dk g off
    rw [decryptWithKey_eq_map, getE521Point_of_offCurve off]
    rfl

end Sys2Proof.KeyProtocol
end

section
/-! The Schnorr commands: their operand checks in the order of R276, the signature of SIGN and SIGN.X, and the verdict of
VERIFY (R222 to R228). -/

namespace Sys2Proof.SchnorrCommands

open Sys2Proof Sys2Proof.Machine Sys2Proof.Invariant Sys2Proof.XofCommands Sys2Proof.DerivedNonce
  Sys2Proof.FieldCommands Sys2Proof.PointLaws Sys2Proof.PointCommands Sys2Proof.SignVerify

theorem exec_verify (rh rs : Reg) (pv : PointReg) (s : State) :
    exec (.verify rh rs pv) s = execVerify rh rs pv s := rfl

theorem keyOutOfRange_eq_true_iff {cfg : Config} {dk : Nat} : keyOutOfRange cfg dk = true ↔ dk = 0 ∨ cfg.r ≤ dk := by
  rw [keyOutOfRange, Bool.or_eq_true, decide_eq_true_iff, decide_eq_true_iff]

theorem keyOutOfRange_ne_true {cfg : Config} {dk : Nat} (nonzero : dk ≠ 0) (lt : dk < cfg.r) :
    keyOutOfRange cfg dk ≠ true := fun out =>
  (keyOutOfRange_eq_true_iff.1 out).elim nonzero (Nat.not_le.2 lt)

/-! ### The functions of R222 to R225 -/

/-- R222: the challenge is the MAC with the empty key over the coordinates and the message. -/
theorem challenge_eq_mac (cfg : Config) (c : Point) (msg : List Byte) :
    challenge cfg c msg = leValue (macFn cfg [] (enc c.x ++ enc c.y ++ msg) cfg.ctxSig) % cfg.r := by
  simp only [challenge, macFn, List.append_nil, List.append_assoc]

theorem signCore_eq (cfg : Config) (dk k : Nat) (msg : List Byte) :
    signCore cfg dk k msg = (challenge cfg (ptMul cfg k (generator cfg)) msg,
      responseScalar cfg k (challenge cfg (ptMul cfg k (generator cfg)) msg) dk) := rfl

/-- R225: the response counts the nonce modulo r. -/
theorem responseScalar_mod (cfg : Config) (k h dk : Nat) :
    responseScalar cfg (k % cfg.r) h dk = responseScalar cfg k h dk := by
  rw [responseScalar, responseScalar, Int.natCast_mod, Int.emod_sub_emod]

/-- R227: a nonce signs exactly as its residue modulo r. -/
theorem signCore_mod (cfg : Config) (dk k : Nat) (msg : List Byte) :
    signCore cfg dk (k % cfg.r) msg = signCore cfg dk k msg := by
  rw [signCore_eq, signCore_eq, responseScalar_mod, ptMul_congr (Nat.mod_mod k cfg.r)]

/-- R224: a derived nonce is nonzero and reduced. -/
theorem deriveNonce_range {cfg : Config} (positive : 0 < cfg.r) {dk k : Nat} {msg : List Byte}
    (derived : deriveNonce cfg dk msg = some k) : k ≠ 0 ∧ k < cfg.r := by
  obtain ⟨nonzero, c, -, attempt, -⟩ := deriveNonce_eq_some_iff.1 derived
  exact ⟨nonzero, attempt ▸ Nat.mod_lt _ positive⟩

/-! ### Operand checks -/

/-- R226: SIGN with a key out of range. -/
theorem exec_sign_of_badKey (rh rs : Reg) {rd : Reg} {s : State} (fits : s.ilen.toNat ≤ s.cfg.ibufSize)
    (bad : s.reg rd = 0 ∨ s.cfg.r ≤ s.reg rd) : exec (.sign rh rs rd) s = .next (finish .invalidScalar s) := by
  have out : keyOutOfRange s.cfg (s.checkedScalar rd) = true := keyOutOfRange_eq_true_iff.2 bad
  rw [exec_sign]
  rcases execSign_cases rh rs rd s with ⟨long, -⟩ | ⟨-, -, rejected⟩ | ⟨-, inRange, -⟩ | ⟨_, -, inRange, -⟩
  · exact absurd long (messageTooLong_ne_true fits)
  · exact rejected
  · exact absurd out (ne_true_of_eq_false inRange)
  · exact absurd out (ne_true_of_eq_false inRange)

/-- R227: SIGN.X with a key out of range or a nonce that is 0 modulo r. -/
theorem exec_signX_of_badScalar (rh rs : Reg) {rd rk : Reg} {s : State} (fits : s.ilen.toNat ≤ s.cfg.ibufSize)
    (bad : (s.reg rd = 0 ∨ s.cfg.r ≤ s.reg rd) ∨ s.reg rk % s.cfg.r = 0) :
    exec (.signX rh rs rd rk) s = .next (finish .invalidScalar s) := by
  rw [exec_signX]
  rcases execSignX_cases rh rs rd rk s with ⟨long, -⟩ | ⟨-, -, rejected⟩ | ⟨-, inRange, nonzero, -⟩
  · exact absurd long (messageTooLong_ne_true fits)
  · exact rejected
  · rcases bad with key | nonce
    · exact absurd (keyOutOfRange_eq_true_iff.2 key) (ne_true_of_eq_false inRange)
    · exact absurd nonce nonzero

/-- R228: VERIFY with h or s not below r, whatever the key. -/
theorem exec_verify_of_badScalar {rh rs : Reg} (pv : PointReg) {s : State} (fits : s.ilen.toNat ≤ s.cfg.ibufSize)
    (bad : s.cfg.r ≤ s.reg rh ∨ s.cfg.r ≤ s.reg rs) :
    exec (.verify rh rs pv) s = .next (finish .invalidScalar s) := by
  have passed (h_lt : s.reg rh < s.cfg.r) (s_lt : s.reg rs < s.cfg.r) : False :=
    bad.elim (Nat.not_le.2 h_lt) (Nat.not_le.2 s_lt)
  rw [exec_verify]
  rcases execVerify_cases rh rs pv s with
    ⟨long, -⟩ | ⟨-, -, rejected⟩ | ⟨-, h_lt, s_lt, -⟩ | ⟨_, _, -, h_lt, s_lt, -⟩
  · exact absurd long (messageTooLong_ne_true fits)
  · exact rejected
  · exact (passed h_lt s_lt).elim
  · exact (passed h_lt s_lt).elim

/-- R228: VERIFY with scalars in range and a key off the curve. -/
theorem exec_verify_of_offCurve {rh rs : Reg} {pv : PointReg} {s : State} (fits : s.ilen.toNat ≤ s.cfg.ibufSize)
    (h_lt : s.reg rh < s.cfg.r) (s_lt : s.reg rs < s.cfg.r) (off : onCurve s.cfg (s.coordinates pv) = false) :
    exec (.verify rh rs pv) s = .next (finish .malformedPoint s) := by
  rw [exec_verify]
  rcases execVerify_cases rh rs pv s with
    ⟨long, -⟩ | ⟨-, bad, -⟩ | ⟨-, -, -, -, rejected⟩ | ⟨key, _, -, -, -, found, -⟩
  · exact absurd long (messageTooLong_ne_true fits)
  · exact absurd bad (not_or.2 ⟨Nat.not_le.2 h_lt, Nat.not_le.2 s_lt⟩)
  · exact rejected
  · exact absurd found (getPoint_ne_some_of_offCurve off key)

/-- Settles O55: each failed check is the answer of its command. -/
theorem schnorrOperandChecks : Obligations.SchnorrOperandChecks := by
  intro s fits
  refine ⟨fun rh rs rd rk bad => ?badKey, fun rh rs rd rk zero => ?zeroNonce, fun rh rs pv => ?verify⟩
  case badKey => exact ⟨exec_sign_of_badKey rh rs fits bad, exec_signX_of_badScalar rh rs fits (.inl bad)⟩
  case zeroNonce => exact exec_signX_of_badScalar rh rs fits (.inr zero)
  case verify => exact ⟨exec_verify_of_badScalar pv fits, exec_verify_of_offCurve fits⟩

/-! ### Signing -/

/-- R22, R226: the response is written last, so `R[rs]` holds it also where `rh = rs`. -/
theorem reg_writeSignature_response (rh rs : Reg) {sig : Nat × Nat} (s : State) (lt : sig.2 < 2 ^ 528) :
    (writeSignature rh rs sig s).reg rs = sig.2 := by
  rw [reg_writeSignature, reg_setReg, if_pos rfl, Nat.mod_eq_of_lt lt]

/-- What a completed signature with nonce `k` and challenge `h` leaves in `t`: the effect R225 to R227 give SIGN and
SIGN.X alike. -/
def Signs (rh rs rd : Reg) (k h : Nat) (s t : State) : Prop :=
  h = challenge s.cfg (ptMul s.cfg k (generator s.cfg)) s.msg ∧ h < s.cfg.r
    ∧ (∀ c : Point, c = ptMul s.cfg k (generator s.cfg) →
        h = leValue (macFn s.cfg [] (enc c.x ++ enc c.y ++ s.msg) s.cfg.ctxSig) % s.cfg.r)
    ∧ t.reg rs < s.cfg.r ∧ (t.reg rs + h * s.reg rd) % s.cfg.r = k % s.cfg.r
    ∧ (rh ≠ rs → t.reg rh = h)
    ∧ (∀ i, i ≠ rh → i ≠ rs → t.reg i = s.reg i)
    ∧ (∀ x y, t.st.lane x y = 0)
    ∧ t = { s with regs := t.regs, st := t.st, result := 0 }

/-- R225: what `sign_core` computes, written to the registers, is a signature with its nonce. -/
theorem writeSignature_signs (rh rs rd : Reg) (k : Nat) {s : State} (positive : 0 < s.cfg.r)
    (fits528 : s.cfg.r ≤ 2 ^ 528) :
    ∃ h, Signs rh rs rd k h s (writeSignature rh rs (signCore s.cfg (s.reg rd) k s.msg) s) := by
  rw [signCore_eq]
  obtain ⟨h, hdef⟩ : ∃ h, h = challenge s.cfg (ptMul s.cfg k (generator s.cfg)) s.msg := ⟨_, rfl⟩
  have h_lt : h < s.cfg.r := hdef ▸ challenge_lt positive _ _
  have s_lt := responseScalar_lt positive k h (s.reg rd)
  rw [← hdef]
  have response := reg_writeSignature_response rh rs (sig := (h, responseScalar s.cfg k h (s.reg rd))) s
    (s_lt.trans_le fits528)
  refine ⟨h, hdef, h_lt, ?mac, ?reduced, ?solves, ?challenge, ?frame, zero_lane, rfl⟩
  case mac =>
    rintro c rfl
    rw [hdef, challenge_eq_mac]
  case reduced => rwa [response]
  case solves => rw [response, responseScalar_add_mod positive]
  case challenge => exact fun distinct => (reg_writeSignature_pair distinct fits528 h_lt s_lt).1
  case frame => exact fun i hh hs => reg_writeSignature_other hh hs _ s

/-- R227: the answer of SIGN.X where its checks pass. -/
theorem exec_signX_of_inRange (rh rs : Reg) {rd rk : Reg} {s : State} (fits : s.ilen.toNat ≤ s.cfg.ibufSize)
    (nonzero : s.reg rd ≠ 0) (lt : s.reg rd < s.cfg.r) (nonce : s.reg rk % s.cfg.r ≠ 0) :
    exec (.signX rh rs rd rk) s = .next (writeSignature rh rs (signCore s.cfg (s.reg rd) (s.reg rk) s.msg) s) := by
  rw [exec_signX]
  rcases execSignX_cases rh rs rd rk s with ⟨long, -⟩ | ⟨-, bad, -⟩ | ⟨-, -, -, done⟩
  · exact absurd long (messageTooLong_ne_true fits)
  · exact absurd bad (not_or.2 ⟨keyOutOfRange_ne_true nonzero lt, nonce⟩)
  · rw [← signCore_mod]
    exact done

/-- R226: the answer of SIGN where its checks pass and a nonce is found. -/
theorem exec_sign_of_nonce (rh rs : Reg) {rd : Reg} {k : Nat} {s : State} (fits : s.ilen.toNat ≤ s.cfg.ibufSize)
    (nonzero : s.reg rd ≠ 0) (lt : s.reg rd < s.cfg.r) (derived : deriveNonce s.cfg (s.reg rd) s.msg = some k) :
    exec (.sign rh rs rd) s = .next (writeSignature rh rs (signCore s.cfg (s.reg rd) k s.msg) s) := by
  rw [exec_sign]
  rcases execSign_cases rh rs rd s with ⟨long, -⟩ | ⟨-, bad, -⟩ | ⟨-, -, missing, -⟩ | ⟨l, -, -, found, done⟩
  · exact absurd long (messageTooLong_ne_true fits)
  · exact absurd bad (keyOutOfRange_ne_true nonzero lt)
  · exact absurd (derived.symm.trans missing) (Option.some_ne_none k)
  · rw [Option.some.inj (derived.symm.trans found)]
    exact done

/-- R226: the answer of SIGN where its checks pass and every attempt at a nonce is 0. -/
theorem exec_sign_of_noNonce (rh rs : Reg) {rd : Reg} {s : State} (fits : s.ilen.toNat ≤ s.cfg.ibufSize)
    (nonzero : s.reg rd ≠ 0) (lt : s.reg rd < s.cfg.r) (missing : deriveNonce s.cfg (s.reg rd) s.msg = none) :
    exec (.sign rh rs rd) s = .next (finish .invalidScalar s.clearSt) := by
  rw [exec_sign]
  rcases execSign_cases rh rs rd s with ⟨long, -⟩ | ⟨-, bad, -⟩ | ⟨-, -, -, ended⟩ | ⟨l, -, -, found, -⟩
  · exact absurd long (messageTooLong_ne_true fits)
  · exact absurd bad (keyOutOfRange_ne_true nonzero lt)
  · exact ended
  · exact absurd (found.symm.trans missing) (Option.some_ne_none l)

/-- Settles O52: the answer of SIGN.X is a signature with the nonce in `R[rk]`. -/
theorem signXCompletes : Obligations.SignXCompletes := by
  intro rh rs rd rk s fits528 fits nonzero lt nonce
  obtain ⟨h, signs⟩ := writeSignature_signs rh rs rd (s.reg rk) (Nat.zero_lt_of_lt lt) fits528
  exact ⟨_, h, exec_signX_of_inRange rh rs fits nonzero lt nonce, signs⟩

/-- Settles O53: the answer of SIGN is a signature with the derived nonce, which is reduced, and SIGN.X answers the same
with that nonce in a register. -/
theorem signCompletes : Obligations.SignCompletes := by
  intro rh rs rd s fits528 fits nonzero lt
  refine ⟨fun k derived => ?_, exec_sign_of_noNonce rh rs fits nonzero lt⟩
  have positive := Nat.zero_lt_of_lt lt
  obtain ⟨k_nonzero, k_lt⟩ := deriveNonce_range positive derived
  have reduced := Nat.mod_eq_of_lt k_lt
  obtain ⟨h, hdef, h_lt, mac, s_lt, solves, hreg, frame, cleared, rest⟩ :=
    writeSignature_signs rh rs rd k positive fits528
  refine ⟨_, h, exec_sign_of_nonce rh rs fits nonzero lt derived, hdef, h_lt, mac, s_lt, solves.trans reduced, hreg,
    frame, cleared, rest, ?sameAsSignX⟩
  rintro rk rfl
  exact exec_signX_of_inRange rh rs fits nonzero lt (by rwa [reduced])

/-! ### Verifying -/

/-- R228: the outcome of VERIFY once its checks have passed. -/
def verdict (rh rs : Reg) (pv : PointReg) (s : State) : ResultCode :=
  if challenge s.cfg (commitment s.cfg (s.reg rh) (s.reg rs) (s.coordinates pv)) s.msg = s.reg rh then .ok
  else .signatureInvalid

theorem verdict_number (rh rs : Reg) (pv : PointReg) (s : State) :
    (verdict rh rs pv s).number
      = if challenge s.cfg (commitment s.cfg (s.reg rh) (s.reg rs) (s.coordinates pv)) s.msg = s.reg rh then 0 else 4 :=
  apply_ite ResultCode.number _ _ _

theorem verdict_number_eq_zero_iff {rh rs : Reg} {pv : PointReg} {s : State} :
    (verdict rh rs pv s).number = 0
      ↔ challenge s.cfg (commitment s.cfg (s.reg rh) (s.reg rs) (s.coordinates pv)) s.msg = s.reg rh := by
  have rejects : (4 : Word) ≠ 0 := by decide
  rw [verdict_number, ite_eq_left_iff, not_imp_comm]
  exact forall_prop_of_true rejects

/-- R228: the answer of VERIFY where its checks pass. -/
theorem exec_verify_of_onCurve {rh rs : Reg} {pv : PointReg} {s : State} (fits : s.ilen.toNat ≤ s.cfg.ibufSize)
    (h_lt : s.reg rh < s.cfg.r) (s_lt : s.reg rs < s.cfg.r) (on : onCurve s.cfg (s.coordinates pv) = true) :
    exec (.verify rh rs pv) s = .next (finish (verdict rh rs pv s) s.clearSt) := by
  have point := getPoint_of_onCurve on
  rw [exec_verify]
  rcases execVerify_cases rh rs pv s with
    ⟨long, -⟩ | ⟨-, bad, -⟩ | ⟨-, -, -, malformed, -⟩ | ⟨key, code, -, -, -, found, hcode, done⟩
  · exact absurd long (messageTooLong_ne_true fits)
  · exact absurd bad (not_or.2 ⟨Nat.not_le.2 h_lt, Nat.not_le.2 s_lt⟩)
  · exact absurd (point.symm.trans malformed) (Option.some_ne_none _)
  · obtain rfl := Option.some.inj (point.symm.trans found)
    rw [done, hcode]
    rfl

/-- Settles O56: the verdict compares the challenge of R228's point, a MAC by R222, with h. -/
theorem verifyDecides : Obligations.VerifyDecides := by
  intro rh rs pv s fits h_lt s_lt on
  refine ⟨_, exec_verify_of_onCurve fits h_lt s_lt on, verdict_number rh rs pv s, ?mac, zero_lane, rfl⟩
  rintro c rfl
  rw [← challenge_eq_mac]
  exact verdict_number_eq_zero_iff

end Sys2Proof.SchnorrCommands
end

section
/-! Encryption under a password and back (R255, R257, R258): the salted password is the one secret of both sides, and a
tag that does not match releases nothing (R254). -/

namespace Sys2Proof.PasswordProtocol

open Sys2Proof Sys2Proof.Machine Sys2Proof.KeyProtocol

/-- R254, R255: under a tag that does not match, `open` releases nothing. -/
theorem openMessage_of_mismatch {hp : HostParams} {cfg : Config} {secret c t : List Byte}
    (mismatch : macFn cfg (sealKeys hp cfg secret).2 c hp.ctxTag ≠ t) :
    openMessage hp cfg secret c t = ([], false) :=
  if_neg fun equal => mismatch (beq_iff_eq.1 equal)

/-- R258: decryption takes the nonce that opens the secret from the cryptogram. -/
theorem decryptWithPw_encryptWithPw {cfg : Config} (sizes : cfg.SizesOk) (hp : HostParams)
    (z : Vector Byte hp.zBytes) (password message : List Byte) :
    decryptWithPw hp cfg password (encryptWithPw hp cfg z password message) = (message, true) :=
  openMessage_sealMessage sizes hp message rfl

/-- Settles O58: `open` undoes `seal` under the secret `z || password`, and its tag gate answers the last clause. -/
theorem passwordDecryptionInverts : Obligations.PasswordDecryptionInverts := by
  intro hp cfg z password message sizes
  exact ⟨decryptWithPw_encryptWithPw sizes hp z password message, rfl,
    sealMessage_length sizes hp (z.toList ++ password) message, fun _ mismatch => openMessage_of_mismatch mismatch⟩

end Sys2Proof.PasswordProtocol
end

section
/-! The host's KDF and MAC over the bus (R89, R253): WRMSG and WR32 load the operands, the command leaves its output in
`OBUF`, and RDOUT reads it back. -/

namespace Sys2Proof.HostXof

open Sys2Proof Sys2Proof.Machine Sys2Proof.ByteMap Sys2Proof.SqueezeCommand Sys2Proof.BusAccess Sys2Proof.Encoding
  Sys2Proof.XofCommands

/-! ### The host's progress -/

/-- `s` after `n` transactions that changed nothing of the block, the last of which returned `r`. -/
def moved (n : Nat) (r : Option Byte) (s : State) : State := { s with pc := s.pc + n, returned := r }

theorem moved_moved (m n : Nat) (q r : Option Byte) (s : State) :
    moved n r (moved m q s) = moved (m + n) r s := by
  simp only [moved, Nat.add_assoc]

/-- R53: a write to a location does not depend on how far the host is. -/
theorem putByte_moved (n : Nat) (r : Option Byte) (s : State) (l : Location) (v : Byte) :
    (moved n r s).putByte l v = moved n r (s.putByte l v) := by
  cases l with
  | control c j => cases c <;> rfl
  | lanes | reg | param | input | output => rfl

theorem putByte_fault (s : State) (l : Location) (v : Byte) : (s.putByte l v).fault = s.fault := by
  cases l with
  | control c j => cases c <;> rfl
  | lanes | reg | param | input | output => rfl

/-- R53: a write to a location of access RW. -/
theorem transact_write8_eq_moved {s : State} (noFault : s.fault = 0) {a : Addr} {l : Location}
    (mapped : locate s.cfg a = some l) (writable : l.writable = true) (v : Byte) :
    transact (.write8 a v) s = .next (moved 1 none (s.putByte l v)) := by
  rw [transact_write8_writable noFault mapped writable]
  exact congrArg (fun t : State => Host.Outcome.next t.advance) (putByte_moved 0 none s l v)

/-! ### Runs of writes -/

/-- The locations `place j`, `place (j + 1)`, … with the bytes of a string. -/
def putBytes (place : Nat → Location) : Nat → List Byte → State → State
  | _, [], s => s
  | j, b :: bs, s => putBytes place (j + 1) bs (s.putByte (place j) b)

theorem putBytes_moved (place : Nat → Location) (n : Nat) (r : Option Byte) {j : Nat} {bs : List Byte} {s : State} :
    putBytes place j bs (moved n r s) = moved n r (putBytes place j bs s) := by
  induction bs generalizing j s with
  | nil => rfl
  | cons b bs ih => rw [putBytes, putBytes, putByte_moved, ih]

/-- R34: the bytes of a string in `IBUF`. -/
theorem putBytes_input {j : Nat} {bs : List Byte} {s : State} :
    putBytes .input j bs s = { s with ibuf := s.ibuf.writeBytes j bs } := by
  induction bs generalizing j s with
  | nil => rfl
  | cons b bs ih => exact ih

/-- R57: the bytes of a string in `ILEN`. -/
theorem putBytes_ilen {j : Nat} {bs : List Byte} {s : State} :
    putBytes (.control .ilen) j bs s = { s with ilen := withBytes s.ilen j bs } := by
  induction bs generalizing j s with
  | nil => rfl
  | cons b bs ih => exact ih

/-- R57: the bytes of a string in `OBITS`. -/
theorem putBytes_obits {j : Nat} {bs : List Byte} {s : State} :
    putBytes (.control .obits) j bs s = { s with obits := withBytes s.obits j bs } := by
  induction bs generalizing j s with
  | nil => rfl
  | cons b bs ih => exact ih

/-- R89: `WRB` over a run of addresses of access RW writes their locations in order. -/
theorem hostRun_writeBytes {place : Nat → Location} (writable : ∀ j, (place j).writable = true) {s : State}
    (noFault : s.fault = 0) {a : Addr} {j : Nat} {bs : List Byte}
    (mapped : ∀ i, i < bs.length → locate s.cfg (a + BitVec.ofNat 16 i) = some (place (j + i))) :
    ∃ r, (hostRun (hostWriteBytes a bs) s).1 = moved bs.length r (putBytes place j bs s) := by
  induction bs generalizing a j s with
  | nil => exact ⟨s.returned, rfl⟩
  | cons b bs ih =>
    have first : locate s.cfg a = some (place j) := by
      have := mapped 0 (Nat.succ_pos _)
      rwa [BitVec.add_zero] at this
    obtain ⟨t, ht⟩ : ∃ t, t = moved 1 none (s.putByte (place j) b) := ⟨_, rfl⟩
    have write : transact (.write8 a b) s = .next t := ht ▸ transact_write8_eq_moved noFault first (writable j) b
    have cfg : t.cfg = s.cfg := ht ▸ (Frame.putByte_keepsRun s (place j) b).cfg
    have fault : t.fault = 0 := ht ▸ (putByte_fault s (place j) b).trans noFault
    obtain ⟨r, rest⟩ := ih fault (a := a + 1) (j := j + 1) fun i hi => by
      have := mapped (i + 1) (Nat.succ_lt_succ hi)
      rwa [Nat.add_comm i, BitVec.ofNat_add, ← BitVec.add_assoc, ← Nat.add_assoc, ← cfg] at this
    refine ⟨r, ?_⟩
    rw [hostWriteBytes, hostRun_cons write, rest, ht, putBytes_moved, moved_moved, putBytes, List.length_cons,
      Nat.add_comm 1]

/-! ### WR32 and WRMSG -/

/-- R8, R57: the bytes of a number make up the whole word. -/
theorem withBytes_leBytes {k : Nat} (old : BitVec (8 * k)) (v : Nat) :
    withBytes old 0 (leBytes k v) = BitVec.ofNat (8 * k) v := by
  have length : (leBytes k v).length = k := leBytes_length k v
  refine eq_of_byteOf_eq fun j hj => ?_
  rw [byteOf_withBytes old (by rw [length, Nat.zero_add]), if_pos (Nat.zero_le j), Nat.sub_zero, leBytes_getElem?,
    if_pos hj, Option.getD_some]
  exact (byteOf_ofNat k v hj).symm

/-- R57, R89: `WR32` of a control register of access RW. -/
theorem hostRun_write32 {s : State} (noFault : s.fault = 0) {n : Nat} (hn : n < 6)
    (writable : ∀ j, (Location.control (ControlReg.ofIndex n) j).writable = true) (v : Nat) :
    ∃ r, (hostRun (hostWrite32 (BitVec.ofNat 16 (4 * n)) v) s).1
      = moved 4 r (putBytes (.control (ControlReg.ofIndex n)) 0 (leBytes 4 v) s) := by
  have length : (leBytes 4 v).length = 4 := leBytes_length 4 v
  obtain ⟨r, run⟩ := hostRun_writeBytes writable noFault (a := BitVec.ofNat 16 (4 * n)) (j := 0) (bs := leBytes 4 v)
    fun i hi => by rw [← BitVec.ofNat_add, Nat.zero_add, locate_control s.cfg hn (length ▸ hi)]
  exact ⟨r, length ▸ run⟩

theorem hostRun_write32_ilen {s : State} (noFault : s.fault = 0) (v : Nat) :
    ∃ r, (hostRun (hostWrite32 0x000C v) s).1 = moved 4 r { s with ilen := BitVec.ofNat 32 v } := by
  obtain ⟨r, run⟩ := hostRun_write32 noFault (n := 3) (by decide) (fun _ => rfl) v
  exact ⟨r, run.trans (congrArg (moved 4 r) (putBytes_ilen.trans
    (congrArg (fun w => { s with ilen := w }) (withBytes_leBytes (k := 4) s.ilen v))))⟩

theorem hostRun_write32_obits {s : State} (noFault : s.fault = 0) (v : Nat) :
    ∃ r, (hostRun (hostWrite32 0x0010 v) s).1 = moved 4 r { s with obits := BitVec.ofNat 32 v } := by
  obtain ⟨r, run⟩ := hostRun_write32 noFault (n := 4) (by decide) (fun _ => rfl) v
  exact ⟨r, run.trans (congrArg (moved 4 r) (putBytes_obits.trans
    (congrArg (fun w => { s with obits := w }) (withBytes_leBytes (k := 4) s.obits v))))⟩

/-- R89: `s` with a message in `IBUF` and its length in `ILEN`. -/
def loadMessage (msg : List Byte) (s : State) : State :=
  { s with ibuf := s.ibuf.writeBytes 0 msg, ilen := BitVec.ofNat 32 msg.length }

/-- R89: `WRMSG` of a message that fits `IBUF`. -/
theorem hostRun_writeMessage {s : State} (noFault : s.fault = 0) (sizes : s.cfg.SizesOk) {msg : List Byte}
    (fits : msg.length ≤ s.cfg.ibufSize) :
    ∃ r, (hostRun (hostWriteMessage msg) s).1 = moved (msg.length + 4) r (loadMessage msg s) := by
  obtain ⟨-, -, -, -, -, -, -, -, -, -, -, -, -, ⟨-, ibufMax⟩, -⟩ := sizes
  obtain ⟨q, bytes⟩ := hostRun_writeBytes (place := .input) (fun _ => rfl) noFault (a := 0x4000) (j := 0) (bs := msg)
    fun i hi => by
      rw [show (0x4000 : Addr) = BitVec.ofNat 16 0x4000 from rfl, ← BitVec.ofNat_add, Nat.zero_add]
      exact locate_eq_input_iff.2 ⟨toNat_addr (by omega), by omega, by omega⟩
  rw [putBytes_input] at bytes
  obtain ⟨r, length⟩ := hostRun_write32_ilen (s := moved msg.length q { s with ibuf := s.ibuf.writeBytes 0 msg })
    noFault msg.length
  refine ⟨r, ?_⟩
  rw [hostWriteMessage, hostRun_append, bytes]
  exact length.trans (moved_moved msg.length 4 q r (loadMessage msg s))

/-- R10, R89: what `WRMSG` loads is the message of the next command. -/
theorem loadMessage_msg {msg : List Byte} (small : msg.length < 2 ^ 32) (s : State) : (loadMessage msg s).msg = msg := by
  have ilen : (loadMessage msg s).ilen.toNat = msg.length := (BitVec.toNat_ofNat _ _).trans (Nat.mod_eq_of_lt small)
  obtain ⟨written, -⟩ := writeBytes_read s.ibuf msg
  apply List.ext_getElem?
  intro k
  rw [State.msg, ilen, memory_readBytes_getElem?]
  split
  next inside => exact (written k inside).symm
  next beyond => exact (List.getElem?_eq_none (Nat.not_lt.1 beyond)).symm

/-! ### The command and RDOUT -/

/-- R54, R86, R88: a command statement runs its command. -/
theorem hostRun_issue {i : Instr} {s t : State} (wellFormed : i.wellFormed = true) (noFault : s.fault = 0)
    (done : exec i s.begin = .next t) : (hostRun [hostIssue i] s).1 = t.advance := by
  have decoded : decode (encode i) = .ok i := decodeEncodeRoundTrip i wellFormed
  have issued : issueWord (encode i) s.begin = .next t := by
    rw [issueWord, begin_fault, if_neg (not_not.2 noFault), decoded]
    exact done
  have ended : transact (hostIssue i) s = .next t.advance := by rw [hostIssue, transact, issued, endTransaction]
  rw [hostRun_cons ended]
  rfl

/-- R89: `RDOUT` reads the output that `OLEN` and `OBUF` hold. -/
theorem hostReadOutput_eq {s : State} (sizes : s.cfg.SizesOk) {out : List Byte} (olen : s.olen.toNat = out.length)
    (fits : out.length ≤ s.cfg.obufSize) (obuf : ∀ j, j < out.length → out[j]? = some (s.obuf.read j)) :
    (hostReadOutput s).2 = out := by
  obtain ⟨-, -, -, -, -, -, -, -, -, -, -, -, -, -, -, obufMax⟩ := sizes
  obtain ⟨q, length⟩ := hostRead32_control s (n := 5) (by decide)
  have address : (0x0014 : Addr) = BitVec.ofNat 16 (4 * 5) := rfl
  obtain ⟨r, bytes⟩ := hostRun_readBytes (s := moved 4 q s) (a := 0x8000) (bs := out) fun j hj => by
    rw [show (0x8000 : Addr) = BitVec.ofNat 16 0x8000 from rfl, ← BitVec.ofNat_add, obuf j hj]
    exact peek_of_locate (locate_eq_output_iff.2 ⟨toNat_addr (by omega), by omega, hj.trans_le fits⟩)
  rw [hostReadOutput, address, length]
  exact congrArg Prod.snd (olen ▸ bytes)

/-- R151, R253: a command that ends as `xofCommand` says, followed by `RDOUT`, returns the sponge of the message. -/
theorem hostReadOutput_issue_xof {i : Instr} {ds : Byte} {bits : Nat} {s : State} (wellFormed : i.wellFormed = true)
    (noFault : s.fault = 0) (sizes : s.cfg.SizesOk) (fits : ceil8 bits ≤ s.cfg.obufSize)
    (done : exec i s.begin = .next (xofCommand ds bits s.begin)) :
    (hostReadOutput (hostRun [hostIssue i] s).1).2 = sponge s.msg s.cfg.capXof ds bits := by
  have ⟨_, hcap, _⟩ := sizes
  obtain ⟨olen, obuf, -⟩ := xofCommand_delivers (s := s.begin) ds sizes fits
  rw [hostRun_issue wellFormed noFault done]
  exact hostReadOutput_eq (s := (xofCommand ds bits s.begin).advance) sizes olen
    ((sponge_length s.msg ds bits hcap).trans_le fits) obuf

/-! ### KDFh and MACh -/

/-- R6, R253: `ILEN` can count the bytes of every message that fits `IBUF`. -/
theorem loadMessage_msg_of_fits {s : State} (sizes : s.cfg.SizesOk) {msg : List Byte}
    (fits : msg.length ≤ s.cfg.ibufSize) : (loadMessage msg s).msg = msg := by
  obtain ⟨-, -, -, -, -, -, -, -, -, -, -, -, -, ⟨-, ibufMax⟩, -⟩ := sizes
  exact loadMessage_msg (by omega) s

theorem loadMessage_ilen_le {s : State} {msg : List Byte} (fits : msg.length ≤ s.cfg.ibufSize) :
    (loadMessage msg s).ilen.toNat ≤ s.cfg.ibufSize :=
  (BitVec.toNat_ofNat _ _).trans_le ((Nat.mod_le _ _).trans fits)

/-- R154, R253: `MACh` of a message that stands in one piece. -/
theorem hostRun_mac_returns {s : State} (noFault : s.fault = 0) (sizes : s.cfg.SizesOk) {msg : List Byte}
    (fits : msg.length ≤ s.cfg.ibufSize) :
    (hostReadOutput (hostRun (hostWriteMessage msg ++ [hostIssue .mac]) s).1).2
      = sponge msg s.cfg.capXof s.cfg.dsMac s.cfg.tagBits := by
  have ⟨_, _, _, _, _, _, _, _, _, _, _, _, tagFits, _⟩ := sizes
  obtain ⟨r, loaded⟩ := hostRun_writeMessage noFault sizes fits
  have returned := hostReadOutput_issue_xof (s := moved (msg.length + 4) r (loadMessage msg s)) rfl noFault sizes
    tagFits (exec_mac_of_fits (loadMessage_ilen_le fits))
  rw [hostRun_append, loaded]
  exact returned.trans (congrArg (fun m => sponge m s.cfg.capXof s.cfg.dsMac s.cfg.tagBits)
    (loadMessage_msg_of_fits sizes fits))

/-- R253: the operands of `KDFh`: a message and an output length. -/
def loadKdf (msg : List Byte) (bits : Nat) (s : State) : State :=
  { loadMessage msg s with obits := BitVec.ofNat 32 bits }

theorem hostRun_loadKdf {s : State} (noFault : s.fault = 0) (sizes : s.cfg.SizesOk) {msg : List Byte}
    (fits : msg.length ≤ s.cfg.ibufSize) (bits : Nat) :
    ∃ r, (hostRun (hostWriteMessage msg ++ hostWrite32 0x0010 bits) s).1
      = moved (msg.length + 8) r (loadKdf msg bits s) := by
  obtain ⟨q, message⟩ := hostRun_writeMessage noFault sizes fits
  obtain ⟨r, length⟩ := hostRun_write32_obits (s := moved (msg.length + 4) q (loadMessage msg s)) noFault bits
  refine ⟨r, ?_⟩
  rw [hostRun_append, message]
  exact length.trans (moved_moved (msg.length + 4) 4 q r (loadKdf msg bits s))

/-- R153, R253: `KDFh` of a message that stands in one piece. -/
theorem hostRun_kdf_returns {s : State} (noFault : s.fault = 0) (sizes : s.cfg.SizesOk) {msg : List Byte} {bits : Nat}
    (fits : msg.length ≤ s.cfg.ibufSize) (small : bits < 2 ^ 32) (outputFits : ceil8 bits ≤ s.cfg.obufSize) :
    (hostReadOutput (hostRun (hostWriteMessage msg ++ hostWrite32 0x0010 bits ++ [hostIssue .kdf]) s).1).2
      = sponge msg s.cfg.capXof s.cfg.dsKdf bits := by
  obtain ⟨r, loaded⟩ := hostRun_loadKdf noFault sizes fits bits
  have obits : (BitVec.ofNat 32 bits).toNat = bits := by rw [BitVec.toNat_ofNat, Nat.mod_eq_of_lt small]
  have bytes : ceil8 (BitVec.ofNat 32 bits).toNat ≤ s.cfg.obufSize := by rwa [obits]
  have returned := hostReadOutput_issue_xof (s := moved (msg.length + 8) r (loadKdf msg bits s)) rfl noFault sizes
    bytes (exec_kdf_of_fits (loadMessage_ilen_le fits) bytes)
  rw [hostRun_append, loaded]
  exact returned.trans (congrArg₂ (fun m n => sponge m s.cfg.capXof s.cfg.dsKdf n)
    (loadMessage_msg_of_fits sizes fits) obits)

/-- Settles O21: both sequences load the strings in R150's order, `OBITS` can count the bits asked for, and `sponge` is
`squeeze` of `absorb`. -/
theorem hostSequencesReturnKdfAndMac : Obligations.HostSequencesReturnKdfAndMac := by
  intro s noFault sizes
  have ⟨_, _, _, _, _, _, _, _, _, _, _, _, _, _, _, obufMax⟩ := sizes
  refine ⟨fun keyMaterial context nbytes inputFits outputFits => ?kdf, fun key message context inputFits => ?mac⟩
  case kdf =>
    have whole : ceil8 (8 * nbytes) = nbytes := by unfold ceil8; omega
    have returned : (hostKdf keyMaterial context nbytes s).2 = kdfFn s.cfg keyMaterial context (8 * nbytes) :=
      hostRun_kdf_returns noFault sizes (List.length_append.trans_le inputFits) (by omega) (whole.trans_le outputFits)
    exact ⟨returned, returned⟩
  case mac =>
    have fits : (context ++ key ++ message).length ≤ s.cfg.ibufSize := by
      rwa [List.length_append, List.length_append]
    have returned : (hostMac key message context s).2 = macFn s.cfg key message context :=
      hostRun_mac_returns noFault sizes fits
    exact ⟨returned, returned⟩

end Sys2Proof.HostXof
end

section
/-! The exceptions of the block: the sticky first fault, the refusals for lengths beyond a buffer, and how every command
and every faulting transaction ends (R270 to R277). -/

namespace Sys2Proof.Exceptions

open Sys2Proof Sys2Proof.Machine Sys2Proof.Frame Sys2Proof.BusAccess Sys2Proof.Encoding Sys2Proof.Sponge
  Sys2Proof.SqueezeCommand

/-! ### The first fault -/

/-- Settles O11: by R274's test of FAULT. -/
theorem raiseFaultKeepsTheFirst : Obligations.RaiseFaultKeepsTheFirst :=
  ⟨fun code info _ noFault => raiseFault_of_noFault code info noFault,
    fun code info _ fault => raiseFault_of_fault code info fault, rfl, rfl, rfl, rfl⟩

/-- R275: an Issue while a fault is recorded. -/
theorem transact_issue_faulted {s : State} (fault : s.fault ≠ 0) (w : Word) :
    transact (.issue w) s = .next s.begin.advance := by
  have ignored : issueWord w s.begin = .next s.begin := if_pos fault
  rw [transact, ignored, endTransaction]

/-- R52, R275: a read while a fault is recorded, whether or not the address is mapped. -/
theorem transact_read8_faulted {s : State} (fault : s.fault ≠ 0) (a : Addr) :
    transact (.read8 a) s = .next { s with pc := s.pc + 1, returned := some ((s.peek a).getD 0x00) } := by
  cases read : s.peek a with
  | some b => exact transact_read8_mapped read
  | none =>
    rw [transact_read8_unmapped read, raiseFault_of_fault (s := s.begin) _ _ fault]
    rfl

/-- Settles O10: the gate of R275 is closed to Issue and Write8, and Read8 has no such gate. -/
theorem faultedBlockIgnoresWork : Obligations.FaultedBlockIgnoresWork := by
  intro s fault
  refine ⟨fun w next => ?issue, fun a v next => ?write8, fun a next => ?read8⟩ <;> rw [step_eq_transact next]
  case issue => exact ⟨_, transact_issue_faulted fault w, rfl⟩
  case write8 => exact ⟨_, transact_write8_faulted fault a v, rfl⟩
  case read8 => exact transact_read8_faulted fault a

/-! ### Lengths beyond a buffer -/

/-- R272, R276: the message's length is the first check of these commands. -/
theorem exec_of_messageTooLong {i : Instr} {s : State} (first : checksMessageFirst i = true)
    (long : s.messageTooLong = true) : exec i s = .next (raiseFault .lenRange (encode i) s) := by
  cases i with
  | hash | kdf | mac | sign | signX | verify => exact if_pos long
  | keccakF | absorb | squeeze | fmul | finv | padd | pdbl | pmul => cases first

/-- R136: the parameters ABSORB accepts. -/
theorem absorbBadParam_ne_true {cap : Nat} {ds : Byte} (whole : cap % 8 = 0) (hcap : cap ≤ 1592)
    (dsMin : 0x01 ≤ ds.toNat) (dsMax : ds.toNat ≤ 0x7F) : absorbBadParam cap ds ≠ true := by
  rw [ne_eq, absorbBadParam_eq_true_iff]
  omega

theorem exec_absorb_of_messageTooLong {cap : Nat} {ds : Byte} {s : State} (legal : absorbBadParam cap ds ≠ true)
    (long : s.messageTooLong = true) :
    exec (.absorb cap ds) s = .next (raiseFault .lenRange (encode (.absorb cap ds)) s) := by
  rw [exec_absorb, execAbsorb, if_neg legal, if_pos long]

theorem exec_squeeze_of_outputTooLong {rate : Nat} {s : State} (legal : squeezeBadParam rate = false)
    (long : s.outputTooLong = true) :
    exec (.squeeze rate) s = .next (raiseFault .lenRange (encode (.squeeze rate)) s) := by
  rw [exec_squeeze, execSqueeze, if_neg (ne_true_of_eq_false legal), if_pos long]

theorem exec_kdf_of_outputTooLong {s : State} (long : s.outputTooLong = true) :
    exec .kdf s = .next (raiseFault .lenRange (encode .kdf) s) := by
  rcases execKdf_cases s with ⟨-, refused⟩ | ⟨-, fits, -⟩
  · exact refused
  · exact absurd long (ne_true_of_eq_false fits)

/-- Settles O34: each refusal is a LEN_RANGE, which is recorded since no fault is. -/
theorem lengthsBeyondABufferRaiseLenRange : Obligations.LengthsBeyondABufferRaiseLenRange := by
  intro s noFault
  have recorded (i : Instr) : raiseFault .lenRange (encode i) s = { s with fault := 3, faultInfo := encode i } :=
    raiseFault_of_noFault _ _ noFault
  refine ⟨fun i first long => ?message, fun cap ds whole hcap dsMin dsMax long => ?absorb,
    fun rate whole hmin hmax long => ?squeeze, fun _ long => ?kdf⟩ <;> rw [← recorded]
  case message => exact exec_of_messageTooLong first (decide_eq_true long)
  case absorb =>
    exact exec_absorb_of_messageTooLong (absorbBadParam_ne_true whole hcap dsMin dsMax) (decide_eq_true long)
  case squeeze =>
    exact exec_squeeze_of_outputTooLong (squeezeBadParam_eq_false whole hmin hmax) (decide_eq_true long)
  case kdf => exact exec_kdf_of_outputTooLong (decide_eq_true long)

/-! ### The outcomes the tables list -/

/-- The two ends R270 gives a command `i` in state `s`: `finish` with a code that R273 lists, after writes that leave
FAULT and FAULT_INFO alone, or a fault of the command's own word that R272 lists. -/
def ListedEnd (i : Instr) (s t : State) : Prop :=
  (∃ code u, code.number ∈ resultCodes i ∧ u.fault = s.fault ∧ u.faultInfo = s.faultInfo ∧ t = finish code u)
    ∨ ∃ code, code.number ∈ faultCodes i ∧ t = raiseFault code (encode i) s

theorem ListedEnd.completed {i : Instr} {s : State} (code : ResultCode) (u : State)
    (listed : code.number ∈ resultCodes i) (fault : u.fault = s.fault) (info : u.faultInfo = s.faultInfo) :
    ListedEnd i s (finish code u) :=
  .inl ⟨code, u, listed, fault, info, rfl⟩

theorem ListedEnd.refused {i : Instr} {s : State} (code : FaultCode) (listed : code.number ∈ faultCodes i) :
    ListedEnd i s (raiseFault code (encode i) s) :=
  .inr ⟨code, listed, rfl⟩

/-- The verdict of VERIFY is one of the codes 0 and 4, the first and the last that R273 lists for it. -/
theorem ite_number_mem_resultCodes_verify (rh rs : Reg) (pv : PointReg) (accepts : Prop) [Decidable accepts] :
    (if accepts then ResultCode.ok else ResultCode.signatureInvalid).number ∈ resultCodes (.verify rh rs pv) := by
  split
  · exact .head _
  · exact .tail _ (.tail _ (.tail _ (.head _)))

/-- R270, R272, R273: how each command can end. -/
theorem exec_listedEnd (i : Instr) (s : State) : ∃ t, exec i s = .next t ∧ ListedEnd i s t := by
  cases i with
  | keccakF => exact ⟨_, rfl, .completed .ok _ (.head _) rfl rfl⟩
  | absorb cap ds =>
    rcases execAbsorb_cases cap ds s with ⟨-, h⟩ | ⟨-, -, h⟩ | ⟨-, -, h⟩
    · exact ⟨_, h, .refused .badParam (.head _)⟩
    · exact ⟨_, h, .refused .lenRange (.tail _ (.head _))⟩
    · exact ⟨_, h, .completed .ok _ (.head _) rfl rfl⟩
  | squeeze rate =>
    rcases execSqueeze_cases rate s with ⟨-, h⟩ | ⟨-, -, h⟩ | ⟨-, -, h⟩
    · exact ⟨_, h, .refused .badParam (.head _)⟩
    · exact ⟨_, h, .refused .lenRange (.tail _ (.head _))⟩
    · exact ⟨_, h, .completed .ok _ (.head _) rfl rfl⟩
  | hash =>
    rcases execHash_cases s with ⟨-, h⟩ | ⟨-, h⟩
    · exact ⟨_, h, .refused .lenRange (.head _)⟩
    · exact ⟨_, h, .completed .ok _ (.head _) rfl rfl⟩
  | kdf =>
    rcases execKdf_cases s with ⟨-, h⟩ | ⟨-, -, h⟩
    · exact ⟨_, h, .refused .lenRange (.head _)⟩
    · exact ⟨_, h, .completed .ok _ (.head _) rfl rfl⟩
  | mac =>
    rcases execMac_cases s with ⟨-, h⟩ | ⟨-, h⟩
    · exact ⟨_, h, .refused .lenRange (.head _)⟩
    · exact ⟨_, h, .completed .ok _ (.head _) rfl rfl⟩
  | fmul rd ra rb => exact ⟨_, rfl, .completed .ok _ (.head _) rfl rfl⟩
  | finv rd ra =>
    rcases execFinv_cases rd ra s with ⟨-, h⟩ | ⟨-, h⟩
    · exact ⟨_, h, .completed .invalidScalar _ (.tail _ (.head _)) rfl rfl⟩
    · exact ⟨_, h, .completed .ok _ (.head _) rfl rfl⟩
  | padd pd pa pb =>
    rcases execPadd_cases pd pa pb s with ⟨-, h⟩ | ⟨_, _, -, -, h⟩
    · exact ⟨_, h, .completed .malformedPoint _ (.tail _ (.head _)) rfl rfl⟩
    · exact ⟨_, h, .completed .ok _ (.head _) rfl rfl⟩
  | pdbl pd pa =>
    rcases execPdbl_cases pd pa s with ⟨-, h⟩ | ⟨_, -, h⟩
    · exact ⟨_, h, .completed .malformedPoint _ (.tail _ (.head _)) rfl rfl⟩
    · exact ⟨_, h, .completed .ok _ (.head _) rfl rfl⟩
  | pmul pd rk pa =>
    rcases execPmul_cases pd rk pa s with ⟨-, h⟩ | ⟨_, -, h⟩
    · exact ⟨_, h, .completed .malformedPoint _ (.tail _ (.head _)) rfl rfl⟩
    · exact ⟨_, h, .completed .ok _ (.head _) rfl rfl⟩
  | sign rh rs rd =>
    rcases execSign_cases rh rs rd s with ⟨-, h⟩ | ⟨-, -, h⟩ | ⟨-, -, -, h⟩ | ⟨_, -, -, -, h⟩
    · exact ⟨_, h, .refused .lenRange (.head _)⟩
    · exact ⟨_, h, .completed .invalidScalar _ (.tail _ (.head _)) rfl rfl⟩
    · exact ⟨_, h, .completed .invalidScalar _ (.tail _ (.head _)) rfl rfl⟩
    · exact ⟨_, h, .completed .ok _ (.head _) rfl rfl⟩
  | signX rh rs rd rk =>
    rcases execSignX_cases rh rs rd rk s with ⟨-, h⟩ | ⟨-, -, h⟩ | ⟨-, -, -, h⟩
    · exact ⟨_, h, .refused .lenRange (.head _)⟩
    · exact ⟨_, h, .completed .invalidScalar _ (.tail _ (.head _)) rfl rfl⟩
    · exact ⟨_, h, .completed .ok _ (.head _) rfl rfl⟩
  | verify rh rs pv =>
    rcases execVerify_cases rh rs pv s with ⟨-, h⟩ | ⟨-, -, h⟩ | ⟨-, -, -, -, h⟩ | ⟨_, code, -, -, -, -, hcode, h⟩
    · exact ⟨_, h, .refused .lenRange (.head _)⟩
    · exact ⟨_, h, .completed .invalidScalar _ (.tail _ (.tail _ (.head _))) rfl rfl⟩
    · exact ⟨_, h, .completed .malformedPoint _ (.tail _ (.head _)) rfl rfl⟩
    · exact ⟨_, h, .completed code _ (hcode ▸ ite_number_mem_resultCodes_verify rh rs pv _) rfl rfl⟩

/-- Settles O14: a completed command leaves FAULT 0, and a refused one records its fault, since none is recorded. -/
theorem commandsEndInAListedOutcome : Obligations.CommandsEndInAListedOutcome := by
  intro i s noFault
  obtain ⟨t, answer, ended⟩ := exec_listedEnd i s
  refine ⟨t, answer, ?_⟩
  rcases ended with ⟨code, u, listed, fault, info, rfl⟩ | ⟨code, listed, rfl⟩
  · exact .inl ⟨fault.trans noFault, info, listed⟩
  · rw [raiseFault_of_noFault _ _ noFault]
    exact .inr ⟨listed, rfl, rfl⟩

/-! ### Transactions that fault -/

/-- `t` is `s` with a fault recorded together with `info`, and nothing else of the block written (R274). -/
def OnlyRecords (info : Word) (s t : State) : Prop :=
  t = { s with fault := t.fault, faultInfo := info, returned := t.returned }

theorem raiseFault_onlyRecords (code : FaultCode) (info : Word) {s : State} (noFault : s.fault = 0) :
    OnlyRecords info s (raiseFault code info s) := by
  rw [raiseFault_of_noFault _ _ noFault]
  rfl

/-- R277: a command that faults has written nothing before. -/
theorem exec_onlyRecords {i : Instr} {s t : State} (answer : exec i s = .next t) (noFault : s.fault = 0)
    (faulted : t.fault ≠ 0) : OnlyRecords (encode i) s t := by
  rcases exec_inversion answer with ⟨code, -, rfl⟩ | ⟨-, -, -, -, frame⟩
  · exact raiseFault_onlyRecords code _ noFault
  · have kept : t.fault = s.fault := by rw [frame]
    exact absurd (kept.trans noFault) faulted

/-- R272: an illegal word is recorded itself, and a command's word is the word issued, by R88. -/
theorem issueWord_onlyRecords {w : Word} {s t : State} (answer : issueWord w s = .next t) (noFault : s.fault = 0)
    (faulted : t.fault ≠ 0) : OnlyRecords w s t := by
  rcases issueWord_cases w s with ⟨fault, -⟩ | ⟨-, i, decoded, hw⟩ | ⟨-, -, hw⟩
  · exact absurd noFault fault
  · obtain ⟨word, -⟩ := encodeDecodeRoundTrip w i decoded
    exact word ▸ exec_onlyRecords (hw.symm.trans answer) noFault faulted
  · obtain rfl := Host.Outcome.next.inj (hw.symm.trans answer)
    exact raiseFault_onlyRecords _ w noFault

theorem readByte_onlyRecords {a : Addr} {s : State} (noFault : s.fault = 0) (faulted : (readByte a s).fault ≠ 0) :
    OnlyRecords (a.setWidth 32) s (readByte a s) := by
  rcases readByte_cases a s with ⟨b, -, read⟩ | ⟨-, read⟩ <;> rw [read] at faulted ⊢
  · exact absurd noFault faulted
  · rw [raiseFault_of_noFault _ _ noFault]
    rfl

/-- R277: a write that faults has replaced no byte, since replacing one leaves FAULT alone. -/
theorem writeByte_onlyRecords {a : Addr} {v : Byte} {s : State} (noFault : s.fault = 0)
    (faulted : (writeByte a v s).fault ≠ 0) : OnlyRecords (a.setWidth 32) s (writeByte a v s) := by
  rcases writeByte_cases a v s with ⟨fault, -⟩ | ⟨-, l, -, -, write⟩ | ⟨-, -, write⟩
  · exact absurd noFault fault
  · rw [write, HostXof.putByte_fault] at faulted
    exact absurd noFault faulted
  · rw [write]
    exact raiseFault_onlyRecords _ _ noFault

/-- Settles O12: by the transaction the step carries out; a Reset never faults. -/
theorem faultingTransactionChangesNothingElse : Obligations.FaultingTransactionChangesNothingElse := by
  intro s t x next stepped noFault faulted
  have ended {u : State} (records : OnlyRecords (faultRecord x) s.begin u) :
      u.advance.faultInfo = faultRecord x
        ∧ u.advance = { s with fault := u.advance.fault, faultInfo := u.advance.faultInfo, pc := s.pc + 1,
                               returned := u.advance.returned } := by
    rw [records]
    exact ⟨rfl, rfl⟩
  rcases step_cases s with ⟨hx, -⟩ | ⟨hx, hs⟩ | ⟨a, hx, hs⟩ | ⟨a, v, hx, hs⟩ | ⟨w, u, hx, hu, hs⟩
  · cases next.symm.trans hx
  all_goals
    obtain rfl := Option.some.inj (next.symm.trans hx)
    obtain rfl := Host.Outcome.next.inj (hs.symm.trans stepped)
  · exact absurd rfl faulted
  · exact ended (readByte_onlyRecords noFault faulted)
  · exact ended (writeByte_onlyRecords noFault faulted)
  · exact ended (issueWord_onlyRecords hu noFault faulted)

end Sys2Proof.Exceptions
end
